-- ==== Sys2Proof/Word.lean ====
section
/-! DEFINITION. The word types of the engine (spec/00_scope.md R7): every value is an unsigned bit vector; the two
16-byte registers, the AES block and the counter block are byte arrays; the parameter table is 128 words. -/

namespace Sys2Proof

/-- An eight-bit value `u8`. -/
abbrev Byte := BitVec 8

/-- A 32-bit value `u32`: a register, a table word, a command word. -/
abbrev Word := BitVec 32

/-- A 64-bit value `u64`: the draw register `GOUT`. -/
abbrev DWord := BitVec 64

/-- Sixteen bytes, index 0 first: `KEY`, `ICTR`, a counter block, an AES block (spec/20_memory.md R67). -/
abbrev Block := Vector Byte 16

/-- The parameter table: exactly 128 words (spec/10_state.md R21). -/
abbrev Table := Vector Word 128

end Sys2Proof
end

