-- ==== Sys2Proof/Syntax.lean ====
section
/-! DEFINITION. The thirteen commands (spec/30_encoding.md R93), one constructor for each row of the opcode table. -/

namespace Sys2Proof

/-- The `DST` field of `KMDER`: which 16-byte register receives the key material (spec/30_encoding.md R92). -/
inductive Dst where
  | key
  | ictr
  deriving DecidableEq, Repr

/-- A command. Only `KMDER` has operand fields: the table index `IDX` and the destination `DST`. -/
inductive Instr where
  | nop
  | srst
  | tinit
  | tload
  | gseed
  | gnext32
  | gnext64
  | kmder (idx : Nat) (dst : Dst)
  | kcder
  | sopen
  | schunk
  | sclose
  | dstream
  deriving DecidableEq, Repr

end Sys2Proof
end

