-- ==== Sys2Proof/WellFormed.lean ====
section
/-! DEFINITION. Which commands the encoding can write: the table index of `KMDER` is an unsigned 7-bit number
(spec/30_encoding.md R92; log 16). Every other command has no operand field to check. -/

namespace Sys2Proof

/-- The command has a command word. -/
def Instr.wellFormed : Instr → Bool
  | .nop => true
  | .srst => true
  | .tinit => true
  | .tload => true
  | .gseed => true
  | .gnext32 => true
  | .gnext64 => true
  | .kmder idx _ => decide (idx < 128)
  | .kcder => true
  | .sopen => true
  | .schunk => true
  | .sclose => true
  | .dstream => true

end Sys2Proof
end

