-- ==== Sys2Proof/Decode.lean ====
section
/-! DEFINITION. The command encoding (spec/30_encoding.md R90 to R96): the decoder of R94, total on every 32-bit word and
rejecting by name, then the encoder, written from R91 to R93. -/

namespace Sys2Proof

/-- Why a word is no command (spec/30_encoding.md R95). -/
inductive Illegal where
  /-- Bits 31:24 hold one of the 243 unassigned opcodes. -/
  | unassignedOpcode
  /-- An assigned opcode with a nonzero must-be-zero field. -/
  | zeroFieldSet
  deriving DecidableEq, Repr

/-- Bits 31:24, the opcode `OPC` of both formats (R90). -/
def opcodeField (w : Word) : BitVec 8 := w.extractLsb' 24 8

/-- Format `Z`: bits 23:0 must be zero (R91). -/
def formatZ (w : Word) (i : Instr) : Except Illegal Instr :=
  if w.extractLsb' 0 24 = 0#24 then .ok i else .error .zeroFieldSet

/-- Format `K`: bits 23:9 and bit 7 must be zero, `DST` is bit 8, `IDX` is bits 6:0 (R92). -/
def formatK (w : Word) : Except Illegal Instr :=
  if w.extractLsb' 9 15 = 0#15 ∧ w.getLsbD 7 = false then
    .ok (.kmder (w.extractLsb' 0 7).toNat (if w.getLsbD 8 then .ictr else .key))
  else .error .zeroFieldSet

/-- The decoder of R94. -/
def decode (w : Word) : Except Illegal Instr :=
  match (opcodeField w).toNat with
  | 0x00 => formatZ w .nop
  | 0x01 => formatZ w .srst
  | 0x10 => formatZ w .tinit
  | 0x11 => formatZ w .tload
  | 0x20 => formatZ w .gseed
  | 0x21 => formatZ w .gnext32
  | 0x22 => formatZ w .gnext64
  | 0x30 => formatK w
  | 0x31 => formatZ w .kcder
  | 0x40 => formatZ w .sopen
  | 0x41 => formatZ w .schunk
  | 0x42 => formatZ w .sclose
  | 0x43 => formatZ w .dstream
  | _ => .error .unassignedOpcode

/-- The command an opcode-table word of `nbits` bits stands for; every command is one 32-bit word (R90). -/
def decodeTableWord (nbits w : Nat) : Option Instr :=
  if nbits ≤ 32 ∧ w < 2 ^ nbits then
    match decode (BitVec.ofNat 32 w) with
    | .ok i => some i
    | .error _ => none
  else none

/-- The `DST` bit (R92). -/
def dstBit : Dst → BitVec 1
  | .key => 0#1
  | .ictr => 1#1

/-- The command word (R91 to R93). -/
def encode : Instr → Word
  | .nop => 0x00#8 ++ 0#24
  | .srst => 0x01#8 ++ 0#24
  | .tinit => 0x10#8 ++ 0#24
  | .tload => 0x11#8 ++ 0#24
  | .gseed => 0x20#8 ++ 0#24
  | .gnext32 => 0x21#8 ++ 0#24
  | .gnext64 => 0x22#8 ++ 0#24
  | .kmder idx dst => 0x30#8 ++ 0#15 ++ dstBit dst ++ 0#1 ++ BitVec.ofNat 7 idx
  | .kcder => 0x31#8 ++ 0#24
  | .sopen => 0x40#8 ++ 0#24
  | .schunk => 0x41#8 ++ 0#24
  | .sclose => 0x42#8 ++ 0#24
  | .dstream => 0x43#8 ++ 0#24

end Sys2Proof
end

