-- ==== Sys2Proof/Config.lean ====
section
/-! DEFINITION. The parameters of the engine (spec/00_scope.md R6). Those the spec leaves `OPEN` are opaque constants:
no proof can see which value they have, so a statement about them holds for every value. The others are the numbers
of the table of R6. -/

namespace Sys2Proof

/-- A state of the generator strategy, as its number in some fixed numbering of the strategy's states.
DESIGN CHOICE (log 1): the spec's type `PRNG.GenState` is a parameter; plain data needs a type that can be compared. -/
abbrev GenState := Nat

/-- The generator strategy `PRNG`: three total functions, no further law (spec/00_scope.md R9). -/
structure Prng where
  /-- `seed(u32) -> generator instance`. -/
  seed : Word → GenState
  /-- One 32-bit draw: the value and the next state. -/
  next32 : GenState → Word × GenState
  /-- One 64-bit draw: the value and the next state; unrelated to `next32` (spec/42_generator.md R135). -/
  next64 : GenState → DWord × GenState
  deriving Inhabited

/-- The engine's generator strategy, `OPEN` (spec/92_eei_decisions.md D2; log 1). -/
opaque Config.prng : Prng

/-- Which of the two byte counts the loader was built with: `true` is the alternative 512, `false` the default 128
(spec/41_table_loader.md R125, spec/92_eei_decisions.md D7; log 2). -/
opaque Config.fullTableLoad : Bool

/-- `TBL_LOAD_BYTES`: how many bytes the loader requests (spec/41_table_loader.md R125; log 2). -/
def Config.tblLoadBytes : Nat := if Config.fullTableLoad then 512 else 128

/-- `OBUF_CAP`: the capacity of the output buffer, any value from 0 to 2^32 - 1 (spec/00_scope.md R6; log 3). -/
opaque Config.obufCap : Word

/-- `CHUNK_MIN` (spec/00_scope.md R6). -/
def Config.chunkMin : Nat := 4096

/-- `CHUNK_MAX` (spec/00_scope.md R6). -/
def Config.chunkMax : Nat := 524288

/-- `KEY_INDEX`: the table index the key is derived from (spec/00_scope.md R6). -/
def Config.keyIndex : Nat := 0

/-- `CTR_INDEX`: the table index the initial counter is derived from (spec/00_scope.md R6). -/
def Config.ctrIndex : Nat := 2

end Sys2Proof
end

