-- ==== Sys2Proof/Machine/State.lean ====
section
/-! DEFINITION. The state of the engine (spec/10_state.md R20), the model's own record of the host and of the byte
sources, the reasons a step can stop, and the machine after reset (R40). All of it is plain data. -/

namespace Sys2Proof.Machine

/-- The two external byte sources (spec/20_memory.md R60). -/
inductive Space where
  /-- `HDR`, the header source. -/
  | hdr
  /-- `SRC`, the ciphertext source. -/
  | src
  deriving DecidableEq, Repr

/-- Why the machine stops with a fault: it never does, so there is no constructor. Interface faults of the spec are
recorded and the engine goes on (spec/60_exceptions.md R213), and an engine whose request is never answered is a state,
`State.waiting` (spec/70_reset_and_hazards.md R249; log 11). -/
inductive Fault where
  deriving DecidableEq, Repr

/-- Why the model gives a step no meaning. -/
inductive Refusal where
  /-- Raised by the dispatch for an instruction without a meaning; no arm of this model does. Safe. -/
  | notModelled (mnemonic : String)
  /-- Raised by `TLOAD`, `KCDER`, `SCHUNK`, `DSTREAM` when the environment answers a request with more bytes than asked:
  outside the contract, "a model refuses it" (spec/20_memory.md R61, spec/93_implementation_defined.md U9; log 10). Safe. -/
  | answerTooLong (space : Space)
  deriving DecidableEq, Repr

/-- The ten interface faults (spec/60_exceptions.md R212). -/
inductive FaultCode where
  | illCmd
  | addr
  | noTbl
  | noGen
  | noKey
  | noCtx
  | ctxLive
  | range
  | uninit
  | own
  deriving DecidableEq, Repr

/-- What the environment does with one request: answers with some bytes, or never answers it (log 9, log 11). -/
inductive Reply where
  | bytes (d : List Byte)
  | never
  deriving DecidableEq, Repr

/-- A byte source as data (spec/20_memory.md R61, R62; log 9): `replies` are the answers to its next requests, one each;
when they are used up it is the reference environment `FileSource(data)`. -/
structure Source where
  replies : List Reply
  data : List Byte
  deriving DecidableEq, Repr

/-- One request `SrcRead(space, off, max)` with the count `n` of its answer, none for a request that was not answered
(spec/20_memory.md R73; log 12). -/
structure Request where
  space : Space
  off : Word
  max : Nat
  n : Option Nat
  deriving DecidableEq, Repr

/-- One thing the host side does to the engine (spec/40_control.md R113, R114, spec/20_memory.md R65,
spec/70_reset_and_hazards.md R240). `width` is in bits, `off` a byte offset of `REG`: any width and offset can be tried
(log 18). -/
inductive HostAccess where
  /-- `WR off, v`. -/
  | write (width off : Nat) (v : Word)
  /-- `RD off`. -/
  | read (width off : Nat)
  /-- `RDO o`, the host's read of one byte of the output buffer. -/
  | readOut (o : Word)
  /-- The hardware reset (log 13). -/
  | hardReset
  deriving DecidableEq, Repr

/-- What the last access gave back to the host (log 8). -/
inductive HostReturn where
  /-- No access has been made, or the last one has not completed. -/
  | nothing
  /-- A write or a reset completed; it returns no value. -/
  | done
  /-- The value of a register read. -/
  | word (v : Word)
  /-- The value of an output buffer read. -/
  | byte (b : Byte)
  deriving DecidableEq, Repr

/-- The cipher context `CTX` (spec/10_state.md R26): key, next counter block, buffered keystream block, and how many of
its bytes are used, 16 meaning none are left. -/
structure Ctx where
  key : Block
  cb : Block
  ks : Block
  pos : Fin 17
  deriving DecidableEq, Repr

/-- The complete state: the elements of spec/10_state.md R20 under their names, then the model's own fields. -/
structure State where
  /-- `TBL[0..127]`; holds a value only while `tblv`. -/
  tbl : Table
  tblv : Bool
  /-- `G`, the generator instance; holds a value only while `gv`. -/
  g : GenState
  gv : Bool
  /-- `GOUT`, the last draw made by a generator command. -/
  gout : DWord
  /-- `KEY[0..15]`; bytes `4n..4n+3` hold a value only while bit `n` of `keyv` is set. -/
  key : Block
  keyv : BitVec 4
  /-- `ICTR[0..15]`; bytes `4n..4n+3` hold a value only while bit `n` of `ictrv` is set. -/
  ictr : Block
  ictrv : BitVec 4
  /-- `CTX`; holds a value only while `ctxv`. -/
  ctx : Ctx
  ctxv : Bool
  /-- Operand `HOFF`: byte offset into `HDR`. -/
  hoff : Word
  /-- Operand `SEED` of `GSEED`. -/
  seed : Word
  /-- Operand `LEN`: total length. -/
  len : Word
  /-- Operand `CHUNK`: preferred chunk size. -/
  chunk : Word
  /-- Operand `REQ`: request size of `SCHUNK`. -/
  req : Word
  /-- Result `TGOT`: bytes the last table load obtained. -/
  tgot : Word
  /-- `SOFF`, the stream offset. -/
  soff : Word
  /-- `OLEN`, the length of the output buffer. -/
  olen : Word
  /-- `OBUF`: the bytes that differ from 0x00, by rising address (log 5); bytes at index `>= olen` hold no value. -/
  obuf : List Host.Cell
  /-- ShortRead at the loader stage. -/
  tshort : Bool
  /-- ShortRead at the decryptor stage. -/
  sshort : Bool
  /-- An interface fault has been recorded. -/
  err : Bool
  /-- `ECODE`, the code of the first interface fault recorded. -/
  ecode : BitVec 8
  /-- MODEL'S OWN: the environment behind `HDR` (log 9). -/
  hdr : Source
  /-- MODEL'S OWN: the environment behind `SRC` (log 9). -/
  src : Source
  /-- MODEL'S OWN: the requests made, oldest first (log 12). -/
  trace : List Request
  /-- MODEL'S OWN: the command in progress waits for an answer that never comes (spec/70_reset_and_hazards.md R249;
  log 11). -/
  waiting : Bool
  /-- MODEL'S OWN: what the host will do next, in order (log 7). -/
  host : List HostAccess
  /-- MODEL'S OWN: what the last host access returned (log 8). -/
  ret : HostReturn
  deriving DecidableEq, Repr

/-- Sixteen zero bytes, `zeros(16)`. -/
def zeroBlock : Block := Vector.replicate 16 0#8

/-- `ZeroTable`: every word zero (spec/41_table_loader.md R120). -/
def zeroTable : Table := Vector.replicate 128 0#32

/-- The machine after reset (spec/10_state.md R40). Elements R40 gives no value are zero (DESIGN CHOICE, log 4); no host
access is waiting and the byte sources are empty (log 7, log 9). -/
def State.reset : State where
  tbl := zeroTable
  tblv := false
  g := 0
  gv := false
  gout := 0#64
  key := zeroBlock
  keyv := 0#4
  ictr := zeroBlock
  ictrv := 0#4
  ctx := { key := zeroBlock, cb := zeroBlock, ks := zeroBlock, pos := 0 }
  ctxv := false
  hoff := 0#32
  seed := 0#32
  len := 0#32
  chunk := 0#32
  req := 0#32
  tgot := 0#32
  soff := 0#32
  olen := 0#32
  obuf := []
  tshort := false
  sshort := false
  err := false
  ecode := 0#8
  hdr := { replies := [], data := [] }
  src := { replies := [], data := [] }
  trace := []
  waiting := false
  host := []
  ret := .nothing

end Sys2Proof.Machine
end

