-- ==== Sys2Proof/Machine/Memory.lean ====
section
/-! DEFINITION. The output buffer as memory: the bytes that differ from 0x00, as (address, byte) pairs by strictly rising
address (log 5). One canonical list stands for one content, so equal contents are equal data. -/

namespace Sys2Proof.Machine

/-- What an address that is not listed reads as: the zero a fresh buffer is filled with (spec/45_ctr_stream.md R186; log 5). -/
def Memory.unlisted : Byte := 0x00#8

/-- The byte at an address. -/
def Memory.read : List Host.Cell → Nat → Byte
  | [], _ => Memory.unlisted
  | c :: rest, a => if c.1 = a then c.2 else Memory.read rest a

/-- The list with a cell for address `a` at its place, none if `b` is what an unlisted address reads as. -/
def Memory.write : List Host.Cell → Nat → Byte → List Host.Cell
  | [], a, b => if b = Memory.unlisted then [] else [(a, b)]
  | c :: rest, a, b =>
    if c.1 < a then c :: Memory.write rest a b
    else
      let after := if c.1 = a then rest else c :: rest
      if b = Memory.unlisted then after else (a, b) :: after

/-- `OBUF[a .. a + len D) <- D` (spec/20_memory.md R64). -/
def Memory.writeBytes : List Host.Cell → Nat → List Byte → List Host.Cell
  | m, _, [] => m
  | m, a, b :: rest => Memory.writeBytes (Memory.write m a b) (a + 1) rest

/-- `OBUF[0 .. n) <- zeros(n)` (spec/45_ctr_stream.md R186): no cell below `n` stays listed. -/
def Memory.zeroFill (n : Nat) (m : List Host.Cell) : List Host.Cell := m.filter fun c => decide (n ≤ c.1)

/-- Every cell lies at `lo` or above, the addresses rise strictly, and no cell holds what an unlisted address reads as. -/
def Memory.wfFrom : Nat → List Host.Cell → Bool
  | _, [] => true
  | lo, c :: rest => decide (lo ≤ c.1) && decide (c.2 ≠ Memory.unlisted) && Memory.wfFrom (c.1 + 1) rest

/-- The canonical form. -/
def Memory.wf (m : List Host.Cell) : Bool := Memory.wfFrom 0 m

end Sys2Proof.Machine
end

