-- ==== Sys2Proof/Machine/Ops.lean ====
section
/-! DEFINITION. The operations every command shares: recording an interface fault (the engine's whole trap entry) and the
reset that alone clears the record, precondition checks, and the read request to a byte source, which the command waits on
for ever where no answer comes. -/

namespace Sys2Proof.Machine

/-- What a command, or a part of one, answers. -/
abbrev Result (α : Type) := Host.Outcome α Fault Refusal

/-- The code number of an interface fault (spec/60_exceptions.md R212). -/
def faultCode : FaultCode → BitVec 8
  | .illCmd => 0x01#8
  | .addr => 0x02#8
  | .noTbl => 0x03#8
  | .noGen => 0x04#8
  | .noKey => 0x05#8
  | .noCtx => 0x06#8
  | .ctxLive => 0x07#8
  | .range => 0x08#8
  | .uninit => 0x09#8
  | .own => 0x0A#8

/-- `raise Fault(code)`: the first code is kept, `ERR` is sticky, and nothing else changes (spec/60_exceptions.md R213,
R214). This is the engine's whole exception entry. -/
def recordFault (c : FaultCode) (s : State) : State :=
  { s with ecode := if s.err then s.ecode else faultCode c, err := true }

/-- Reset of the engine, by `SRST` or by hardware (spec/70_reset_and_hazards.md R240): every element of R20 takes its
value of R40. It is also the only return from a recorded fault (spec/60_exceptions.md R216). The host, the byte sources
and their trace are not the engine's and are left alone (log 23). -/
def resetEngine (s : State) : State :=
  { State.reset with hdr := s.hdr, src := s.src, trace := s.trace, host := s.host, ret := s.ret }

/-- A precondition of a command: where it fails, its fault is recorded and nothing else happens
(spec/00_scope.md R8, spec/60_exceptions.md R214). -/
def check (holds : Bool) (c : FaultCode) (s : State) (go : Result State) : Result State :=
  if holds then go else .next (recordFault c s)

/-- What comes back from one request. -/
inductive SourceAnswer where
  | bytes (d : List Byte)
  | never
  | tooLong
  deriving DecidableEq, Repr

/-- The reference environment `FileSource(data)` (spec/20_memory.md R62): the bytes from `off` on, at most `max`. -/
def fileAnswer (data : List Byte) (off max : Nat) : List Byte := (data.drop off).take max

/-- The answer to a request for up to `max` bytes at `off` (spec/20_memory.md R61, R62; log 9, log 10). -/
def sourceAnswer (src : Source) (off max : Nat) : SourceAnswer :=
  match src.replies with
  | [] => .bytes (fileAnswer src.data off max)
  | .never :: _ => .never
  | .bytes d :: _ => if d.length ≤ max then .bytes d else .tooLong

/-- A source once a request has been answered: the reply is used up, the bytes of the file stay. -/
def afterAnswer (src : Source) : Source := { src with replies := src.replies.tail }

/-- The source behind a space. -/
def sourceOf (space : Space) (s : State) : Source :=
  match space with
  | .hdr => s.hdr
  | .src => s.src

/-- The state after a request `(space, off, max)` whose answer has the count `n`: the request is recorded as an event
(spec/20_memory.md R73) and its reply used up. The engine's own state is as before. -/
def noteRequest (space : Space) (off : Word) (max : Nat) (n : Option Nat) (s : State) : State :=
  let event : Request := { space := space, off := off, max := max, n := n }
  match space with
  | .hdr => { s with hdr := afterAnswer s.hdr, trace := s.trace ++ [event] }
  | .src => { s with src := afterAnswer s.src, trace := s.trace ++ [event] }

/-- The engine waits for ever for the answer to a request, and the `CMD` write of its command never completes
(spec/70_reset_and_hazards.md R249; log 11). -/
def awaitAnswer (space : Space) (off : Word) (max : Nat) (s : State) : State :=
  { noteRequest space off max none s with waiting := true, ret := .nothing }

/-- `SrcRead(space, off, max)` (spec/20_memory.md R61): the command goes on with the bytes of the answer. -/
def srcRead (space : Space) (off : Word) (max : Nat) (s : State) (go : List Byte → State → Result State) :
    Result State :=
  match sourceAnswer (sourceOf space s) off.toNat max with
  | .bytes d => go d (noteRequest space off max (some d.length) s)
  | .never => .next (awaitAnswer space off max s)
  | .tooLong => .refused (.answerTooLong space)

end Sys2Proof.Machine
end

