-- ==== Sys2Proof/Machine/Control.lean ====
section
/-! DEFINITION. The control commands `NOP` and `SRST` (spec/40_control.md R111, R112). -/

namespace Sys2Proof.Machine

/-- `NOP`: nothing (spec/40_control.md R111). -/
def execNop (s : State) : Result State := .next s

/-- `SRST`, soft reset: every element takes its reset value, in every state (spec/40_control.md R112). -/
def execSrst (s : State) : Result State := .next (resetEngine s)

end Sys2Proof.Machine
end

