-- ==== Sys2Proof/Machine/Generator.lean ====
section
/-! DEFINITION. The generator commands `GSEED`, `GNEXT32`, `GNEXT64` (spec/42_generator.md). The strategy is an argument of
the operations; the engine's is `Config.prng`. -/

namespace Sys2Proof.Machine

/-- Seed the generator from `SEED` (spec/42_generator.md R131). -/
def seedGenerator (p : Prng) (s : State) : State := { s with g := p.seed s.seed, gv := true }

/-- One 32-bit draw, zero-extended into `GOUT` (spec/42_generator.md R132). -/
def draw32 (p : Prng) (s : State) : State :=
  { s with g := (p.next32 s.g).2, gout := (p.next32 s.g).1.setWidth 64 }

/-- One 64-bit draw into `GOUT` (spec/42_generator.md R133). -/
def draw64 (p : Prng) (s : State) : State :=
  { s with g := (p.next64 s.g).2, gout := (p.next64 s.g).1 }

/-- `GSEED` (spec/42_generator.md R131). -/
def execGseed (s : State) : Result State := .next (seedGenerator Config.prng s)

/-- `GNEXT32` (spec/42_generator.md R132). -/
def execGnext32 (s : State) : Result State := check s.gv .noGen s (.next (draw32 Config.prng s))

/-- `GNEXT64` (spec/42_generator.md R133). -/
def execGnext64 (s : State) : Result State := check s.gv .noGen s (.next (draw64 Config.prng s))

end Sys2Proof.Machine
end

