-- ==== Sys2Proof/Machine/Bytes.lean ====
section
/-! DEFINITION. Byte orders (spec/00_scope.md R7, spec/20_memory.md R66, R67): little-endian words, the packing of a
16-byte register into four words, and the big-endian 128-bit reading of a counter block. -/

namespace Sys2Proof.Machine

/-- `LE32`: a word from four bytes, `b0` least significant (spec/00_scope.md R7). -/
def le32 (b0 b1 b2 b3 : Byte) : Word := b3 ++ b2 ++ b1 ++ b0

/-- Bits `8k+7 : 8k` of a word. -/
def wordByte (v : Word) (k : Nat) : Byte := v.extractLsb' (8 * k) 8

/-- Word `n` of a 16-byte register: `LE32` of its bytes `4n .. 4n+3` (spec/10_state.md R37, R38). -/
def blockWord (b : Block) (n : Fin 4) : Word :=
  le32 b[4 * n.val] b[4 * n.val + 1] b[4 * n.val + 2] b[4 * n.val + 3]

/-- A host write of word `n` of a 16-byte register: byte `4n+k` takes bits `8k+7 : 8k` of `v` (spec/10_state.md R37). -/
def setBlockWord (b : Block) (n : Fin 4) (v : Word) : Block :=
  Vector.ofFn fun j => if j.val / 4 = n.val then wordByte v (j.val % 4) else b[j]

/-- The valid bits of a 16-byte register with bit `n` set (spec/10_state.md R37). -/
def setValid (v : BitVec 4) (n : Fin 4) : BitVec 4 := v ||| (1#4 <<< n.val)

/-- A byte put below the bytes of a big-endian value. -/
def shiftIn (v : BitVec 128) (x : Byte) : BitVec 128 := (v <<< 8) ||| x.setWidth 128

/-- `BE128`: the 128-bit value whose most significant byte is byte 0 (spec/00_scope.md R7). -/
def be128 (b : Block) : BitVec 128 := b.toList.foldl shiftIn 0#128

/-- `BYTES128`, the inverse of `BE128` (spec/00_scope.md R7). -/
def bytes128 (v : BitVec 128) : Block := Vector.ofFn fun j => v.extractLsb' (8 * (15 - j.val)) 8

/-- Byte-by-byte exclusive or of two blocks. -/
def xorBlock (a b : Block) : Block := Vector.ofFn fun j => a[j] ^^^ b[j]

end Sys2Proof.Machine
end

