-- ==== Sys2Proof/Machine/Operands.lean ====
section
/-! DEFINITION. Where operands live: the register map of `REG` (spec/10_state.md R34), and the destination field of
`KMDER` (spec/30_encoding.md R92). Every other operand is one fixed-role register (spec/10_state.md R28, R29, R32). -/

namespace Sys2Proof.Machine

/-- The host-visible registers (spec/10_state.md R34). -/
inductive Reg where
  | cmd
  | status
  | hoff
  | tgot
  | seed
  | goutLo
  | goutHi
  | len
  | chunk
  | req
  | soff
  | olen
  | key (n : Fin 4)
  | ictr (n : Fin 4)
  | cb (n : Fin 4)
  | cpos
  | tblw (i : Fin 128)
  deriving DecidableEq, Repr

/-- The byte offset of a register (spec/10_state.md R34). -/
def regOffset : Reg → Nat
  | .cmd => 0x000
  | .status => 0x004
  | .hoff => 0x008
  | .tgot => 0x00C
  | .seed => 0x010
  | .goutLo => 0x014
  | .goutHi => 0x018
  | .len => 0x01C
  | .chunk => 0x020
  | .req => 0x024
  | .soff => 0x028
  | .olen => 0x02C
  | .key n => 0x030 + 4 * n.val
  | .ictr n => 0x040 + 4 * n.val
  | .cb n => 0x050 + 4 * n.val
  | .cpos => 0x060
  | .tblw i => 0x200 + 4 * i.val

/-- The fixed registers below 0x030 by word number. -/
def lowReg : Nat → Option Reg
  | 0 => some .cmd
  | 1 => some .status
  | 2 => some .hoff
  | 3 => some .tgot
  | 4 => some .seed
  | 5 => some .goutLo
  | 6 => some .goutHi
  | 7 => some .len
  | 8 => some .chunk
  | 9 => some .req
  | 10 => some .soff
  | 11 => some .olen
  | _ => none

/-- The register an access of `width` bits at byte offset `off` reaches; none where the width is not 32, the offset is
misaligned, out of range or unmapped (spec/20_memory.md R68). -/
def regAt (width off : Nat) : Option Reg :=
  if width ≠ 32 ∨ off % 4 ≠ 0 ∨ 0x400 ≤ off then none
  else if off < 0x030 then lowReg (off / 4)
  else if off < 0x040 then some (.key (Fin.ofNat 4 ((off - 0x030) / 4)))
  else if off < 0x050 then some (.ictr (Fin.ofNat 4 ((off - 0x040) / 4)))
  else if off < 0x060 then some (.cb (Fin.ofNat 4 ((off - 0x050) / 4)))
  else if off = 0x060 then some .cpos
  else if off < 0x200 then none
  else some (.tblw (Fin.ofNat 128 ((off - 0x200) / 4)))

/-- Key material into the destination `DST` names: all sixteen bytes, and its four valid bits
(spec/43_key_scheduler.md R146). -/
def writeMaterial (dst : Dst) (out : Block) (s : State) : State :=
  match dst with
  | .key => { s with key := out, keyv := 0b1111#4 }
  | .ictr => { s with ictr := out, ictrv := 0b1111#4 }

end Sys2Proof.Machine
end

