-- ==== Sys2Proof/Machine/Flags.lean ====
section
/-! DEFINITION. The flags and valid bits: the word `STATUS` shows (spec/10_state.md R35), the short-read flags
(R30, spec/60_exceptions.md R211), and the precondition on the two 16-byte registers. -/

namespace Sys2Proof.Machine

/-- The `STATUS` word (spec/10_state.md R35). -/
def statusWord (s : State) : Word :=
  0#8 ++ s.ecode ++ s.ictrv ++ s.keyv ++ 0#2 ++ BitVec.ofBool s.err ++ BitVec.ofBool s.sshort ++
    BitVec.ofBool s.tshort ++ BitVec.ofBool s.ctxv ++ BitVec.ofBool s.gv ++ BitVec.ofBool s.tblv

/-- `KEYV = 0b1111` and `ICTRV = 0b1111` (spec/45_ctr_stream.md R186). -/
def keysLoaded (s : State) : Bool := decide (s.keyv = 0b1111#4) && decide (s.ictrv = 0b1111#4)

/-- `TSHORT` after a load that asked for `max` bytes and obtained `n` (spec/41_table_loader.md R122). -/
def loadShort (n max : Nat) : Bool := decide (n < max)

/-- `SSHORT` after a stream request for `req` bytes that obtained `n`: set on a short read, never cleared
(spec/45_ctr_stream.md R184). -/
def streamShort (before : Bool) (n req : Nat) : Bool := before || decide (n < req)

end Sys2Proof.Machine
end

