-- ==== Sys2Proof/Machine/TableLoad.lean ====
section
/-! DEFINITION. The parameter table loader, `TINIT` and `TLOAD` (spec/41_table_loader.md). The number of bytes the loader
requests is an argument of `tload`; the engine's is `Config.tblLoadBytes`. -/

namespace Sys2Proof.Machine

/-- The table a load of the bytes `d` makes: word `w` is `LE32` of bytes `4w .. 4w+3`, a byte not obtained being zero
(spec/20_memory.md R66, spec/41_table_loader.md R122, R123). -/
def tableOf (d : List Byte) : Table :=
  Vector.ofFn fun w =>
    le32 (d.getD (4 * w.val) 0#8) (d.getD (4 * w.val + 1) 0#8) (d.getD (4 * w.val + 2) 0#8) (d.getD (4 * w.val + 3) 0#8)

/-- The state after a load that asked for `max` bytes obtained `d` (spec/41_table_loader.md R122, R124). -/
def installTable (max : Nat) (d : List Byte) (s : State) : State :=
  { s with
    tbl := tableOf d
    tgot := BitVec.ofNat 32 d.length
    tshort := loadShort d.length max
    tblv := true }

/-- The load of R122 with `max` bytes requested, exactly one request, at `HOFF`; then the command goes on. The request
precedes every table write (spec/20_memory.md R72). -/
def loadTable (max : Nat) (s : State) (go : State → Result State) : Result State :=
  srcRead .hdr s.hoff max s fun d t => go (installTable max d t)

/-- `TLOAD` with `max` bytes requested (spec/41_table_loader.md R122). -/
def tload (max : Nat) (s : State) : Result State := loadTable max s .next

/-- `TINIT`: the zero table (spec/41_table_loader.md R121). -/
def execTinit (s : State) : Result State :=
  .next { s with tbl := zeroTable, tblv := true, tgot := 0#32, tshort := false }

/-- `TLOAD` (spec/41_table_loader.md R122). -/
def execTload (s : State) : Result State := tload Config.tblLoadBytes s

end Sys2Proof.Machine
end

