-- ==== Sys2Proof/Machine/KeySchedule.lean ====
section
/-! DEFINITION. KSCHED, the PRNG-driven key scheduler, `KMDER` and `KCDER` (spec/43_key_scheduler.md). -/

namespace Sys2Proof.Machine

/-- Ring lookup `T(x) = TBL[x mod 128]` (spec/43_key_scheduler.md R140). -/
def ring (t : Table) (x : Nat) : Word := t[x % 128]'(Nat.mod_lt _ (by decide))

/-- `T(T(i))`: the word selected by the low 7 bits of word `i`. -/
def chained (t : Table) (i : Nat) : Word := ring t (ring t i).toNat

/-- `seedValue` (spec/43_key_scheduler.md R141). -/
def seedValue (t : Table) (i : Nat) : Word := chained t i

/-- `rollCount`, 1 to 16 (spec/43_key_scheduler.md R142). -/
def rollCount (t : Table) (i : Nat) : Nat := (chained t (i + 1)).toNat % 16 + 1

/-- The generator after `n` discarded 64-bit draws (spec/43_key_scheduler.md R143). -/
def burnIn (p : Prng) : Nat → GenState → GenState
  | 0, g => g
  | n + 1, g => burnIn p n (p.next64 g).2

/-- The top bytes of `n` 32-bit draws in order, and the generator after them (spec/43_key_scheduler.md R144). -/
def extract (p : Prng) (g : GenState) : (n : Nat) → Vector Byte n × GenState
  | 0 => (#v[], g)
  | n + 1 =>
    let r := extract p g n
    let d := p.next32 r.2
    (r.1.push (d.1.extractLsb' 24 8), d.2)

/-- The function `KM` (spec/43_key_scheduler.md R145): sixteen bytes of key material for the index `i`, and the state of
the generator it seeded. -/
def km (p : Prng) (t : Table) (i : Nat) : Block × GenState :=
  extract p (burnIn p (rollCount t i) (p.seed (seedValue t i))) 16

/-- The generator instance of a derivation is left in `G` and discarded (spec/43_key_scheduler.md R146, R147). -/
def discardGenerator (g : GenState) (s : State) : State := { s with g := g, gv := false }

/-- One derivation into `dst` (spec/43_key_scheduler.md R146). -/
def deriveMaterial (p : Prng) (i : Nat) (dst : Dst) (s : State) : State :=
  discardGenerator (km p s.tbl i).2 (writeMaterial dst (km p s.tbl i).1 s)

/-- Key and counter from the table, which is discarded with the generator (spec/43_key_scheduler.md R147). -/
def derivePair (p : Prng) (s : State) : State :=
  { s with
    key := (km p s.tbl Config.keyIndex).1
    keyv := 0b1111#4
    ictr := (km p s.tbl Config.ctrIndex).1
    ictrv := 0b1111#4
    g := (km p s.tbl Config.ctrIndex).2
    gv := false
    tblv := false }

/-- The pair derivation of R147 with a strategy and a number of header bytes. -/
def kcder (p : Prng) (max : Nat) (s : State) : Result State :=
  loadTable max s fun t => .next (derivePair p t)

/-- `KMDER idx, dst` (spec/43_key_scheduler.md R146). -/
def execKmder (idx : Nat) (dst : Dst) (s : State) : Result State :=
  check s.tblv .noTbl s (.next (deriveMaterial Config.prng idx dst s))

/-- `KCDER` (spec/43_key_scheduler.md R147). -/
def execKcder (s : State) : Result State := kcder Config.prng Config.tblLoadBytes s

end Sys2Proof.Machine
end

