-- ==== Sys2Proof/Machine/Aes.lean ====
section
/-! DEFINITION. AESENC: the AES-128 forward cipher (spec/44_aes128_encryptor.md R160 to R168), in block terms: byte
`r + 4c` of a block is row `r`, column `c` of the state array (R161). -/

namespace Sys2Proof.Machine

/-- Multiplication by 2 in GF(2^8) with the polynomial 0x11B (R162). -/
def xtime (b : Byte) : Byte := if b.getLsbD 7 then (b <<< 1) ^^^ 0x1B#8 else b <<< 1

/-- Multiplication by 3 (R162). -/
def mul3 (b : Byte) : Byte := xtime b ^^^ b

/-- The sum over the set bits `j < n` of `b` of `xtime` applied `j` times to `a`. -/
def gfMulBits (a b : Byte) : Nat → Byte
  | 0 => 0#8
  | n + 1 => gfMulBits a b n ^^^ (if b.getLsbD n then xtime^[n] a else 0#8)

/-- General multiplication in GF(2^8) (R162). -/
def gfMul (a b : Byte) : Byte := gfMulBits a b 8

/-- The square. -/
def gfSq (a : Byte) : Byte := gfMul a a

/-- The inverse, 0 for 0 (R162), computed as the 254th power, 254 = 2 + 4 + 8 + 16 + 32 + 64 + 128. -/
def gfInv (a : Byte) : Byte :=
  let p2 := gfSq a
  let p4 := gfSq p2
  let p8 := gfSq p4
  let p16 := gfSq p8
  let p32 := gfSq p16
  let p64 := gfSq p32
  let p128 := gfSq p64
  gfMul p2 (gfMul p4 (gfMul p8 (gfMul p16 (gfMul p32 (gfMul p64 p128)))))

/-- The algebraic definition of the S-box (R163); the table below is the same function (log 17). -/
def sboxAlgebraic (a : Byte) : Byte :=
  let v := gfInv a
  v ^^^ v.rotateLeft 1 ^^^ v.rotateLeft 2 ^^^ v.rotateLeft 3 ^^^ v.rotateLeft 4 ^^^ 0x63#8

/-- One row of the S-box table of R163, the entry of column 0 most significant. -/
def sboxRow : Nat → BitVec 128
  | 0x0 => 0x637c777bf26b6fc53001672bfed7ab76#128
  | 0x1 => 0xca82c97dfa5947f0add4a2af9ca472c0#128
  | 0x2 => 0xb7fd9326363ff7cc34a5e5f171d83115#128
  | 0x3 => 0x04c723c31896059a071280e2eb27b275#128
  | 0x4 => 0x09832c1a1b6e5aa0523bd6b329e32f84#128
  | 0x5 => 0x53d100ed20fcb15b6acbbe394a4c58cf#128
  | 0x6 => 0xd0efaafb434d338545f9027f503c9fa8#128
  | 0x7 => 0x51a3408f929d38f5bcb6da2110fff3d2#128
  | 0x8 => 0xcd0c13ec5f974417c4a77e3d645d1973#128
  | 0x9 => 0x60814fdc222a908846eeb814de5e0bdb#128
  | 0xa => 0xe0323a0a4906245cc2d3ac629195e479#128
  | 0xb => 0xe7c8376d8dd54ea96c56f4ea657aae08#128
  | 0xc => 0xba78252e1ca6b4c6e8dd741f4bbd8b8a#128
  | 0xd => 0x703eb5664803f60e613557b986c11d9e#128
  | 0xe => 0xe1f8981169d98e949b1e87e9ce5528df#128
  | _ => 0x8ca1890dbfe6426841992d0fb054bb16#128

/-- `SBOX[a]`: row the high hexadecimal digit of `a`, column the low one (R163). -/
def sbox (a : Byte) : Byte := (sboxRow (a.toNat / 16)).extractLsb' (8 * (15 - a.toNat % 16)) 8

/-- SubBytes (R163). -/
def subBytes (s : Block) : Block := Vector.ofFn fun j => sbox s[j]

/-- ShiftRows: `Out[r + 4c] = In[r + 4*((c + r) mod 4)]` (R164). -/
def shiftRows (s : Block) : Block :=
  Vector.ofFn fun j => s[j.val % 4 + 4 * ((j.val / 4 + j.val % 4) % 4)]

/-- Row `r` of a mixed column (R165). -/
def mixByte (r : Nat) (a0 a1 a2 a3 : Byte) : Byte :=
  match r with
  | 0 => xtime a0 ^^^ mul3 a1 ^^^ a2 ^^^ a3
  | 1 => a0 ^^^ xtime a1 ^^^ mul3 a2 ^^^ a3
  | 2 => a0 ^^^ a1 ^^^ xtime a2 ^^^ mul3 a3
  | _ => mul3 a0 ^^^ a1 ^^^ a2 ^^^ xtime a3

/-- MixColumns (R165). -/
def mixColumns (s : Block) : Block :=
  Vector.ofFn fun j =>
    mixByte (j.val % 4) s[4 * (j.val / 4)] s[4 * (j.val / 4) + 1] s[4 * (j.val / 4) + 2] s[4 * (j.val / 4) + 3]

/-- A word of the key expansion: a sequence of four bytes, never a number (R161). -/
abbrev Quad := Vector Byte 4

/-- Four zero bytes, what a word number past the end of a list reads as; no rule reads one. -/
def zeroQuad : Quad := Vector.replicate 4 0#8

/-- `RCON[n + 1]`: 01, then `xtime` of the one before (R167). -/
def rconAfter : Nat → Byte
  | 0 => 0x01#8
  | n + 1 => xtime (rconAfter n)

/-- `RotWord`, `SubWord` and the round constant, for a word number `j` that is a multiple of 4 (R167). -/
def scheduleCore (j : Nat) (t : Quad) : Quad :=
  #v[sbox t[1] ^^^ rconAfter (j / 4 - 1), sbox t[2], sbox t[3], sbox t[0]]

/-- Word `j >= 4` of the key expansion put before the words made so far, newest first (R167). -/
def expandStep (ws : List Quad) (j : Nat) : List Quad :=
  let last := ws.getD 0 zeroQuad
  let t := if j % 4 = 0 then scheduleCore j last else last
  let w4 := ws.getD 3 zeroQuad
  #v[w4[0] ^^^ t[0], w4[1] ^^^ t[1], w4[2] ^^^ t[2], w4[3] ^^^ t[3]] :: ws

/-- Words 0 to 3 of the key expansion, newest first (R167). -/
def keyWords (k : Block) : List Quad :=
  [#v[k[12], k[13], k[14], k[15]], #v[k[8], k[9], k[10], k[11]], #v[k[4], k[5], k[6], k[7]], #v[k[0], k[1], k[2], k[3]]]

/-- The 44 words `w[0..43]` of the key expansion (R167). -/
def expandKey (k : Block) : List Quad := ((List.range' 4 40).foldl expandStep (keyWords k)).reverse

/-- Round key `RK_r`: the bytes of `w[4r] .. w[4r+3]` (R167). -/
def roundKey (ws : List Quad) (r : Nat) : Block :=
  Vector.ofFn fun j => (ws.getD (4 * r + j.val / 4) zeroQuad)[j.val % 4]

/-- One of the rounds 1 to 9 (R168). -/
def aesRound (rk s : Block) : Block := xorBlock (mixColumns (shiftRows (subBytes s))) rk

/-- `AesEnc(K, B)` (R168): ten rounds, the last without MixColumns. -/
@[irreducible] def aesEnc (k b : Block) : Block :=
  let ws := expandKey k
  let s := (List.range' 1 9).foldl (fun s r => aesRound (roundKey ws r) s) (xorBlock b (roundKey ws 0))
  xorBlock (shiftRows (subBytes s)) (roundKey ws 10)

end Sys2Proof.Machine
end

