-- ==== Sys2Proof/Machine/Stream.lean ====
section
/-! DEFINITION. CTRMUX, the counter-mode stream: `SOPEN`, `SCHUNK`, `SCLOSE`, `DSTREAM` (spec/45_ctr_stream.md). The buffer
capacity and the chunk bounds are arguments of the operations; the engine's are those of `Config`. -/

namespace Sys2Proof.Machine

/-- Counter increment: plus one as a big-endian 128-bit integer, wrapping (spec/45_ctr_stream.md R180). -/
def inc128 (b : Block) : Block := bytes128 (be128 b + 1#128)

/-- A fresh context: no keystream buffered, the counter block unincremented (spec/45_ctr_stream.md R181). -/
def ctxInit (k c : Block) : Ctx := { key := k, cb := c, ks := zeroBlock, pos := 16 }

/-- The next keystream block into the buffer, and the counter block one on (spec/45_ctr_stream.md R182). -/
def nextKeystream (c : Ctx) : Ctx := { c with ks := aesEnc c.key c.cb, cb := inc128 c.cb, pos := 0 }

/-- One byte meets one keystream byte; a keystream block is made only when a byte needs it (spec/45_ctr_stream.md R182). -/
def ctrByte (c : Ctx) (d : Byte) : Byte × Ctx :=
  if h : c.pos.val < 16 then
    (d ^^^ c.ks[c.pos.val], { c with pos := ⟨c.pos.val + 1, by omega⟩ })
  else
    (d ^^^ (nextKeystream c).ks[0], { nextKeystream c with pos := 1 })

/-- The counter-mode transform `CtrCrypt(ctx, D)` (spec/45_ctr_stream.md R182). -/
def ctrCrypt : Ctx → List Byte → List Byte × Ctx
  | c, [] => ([], c)
  | c, d :: rest =>
    ((ctrByte c d).1 :: (ctrCrypt (ctrByte c d).2 rest).1, (ctrCrypt (ctrByte c d).2 rest).2)

/-- The bytes of the output buffer not yet processed, `OLEN - SOFF` (spec/40_control.md R115; log 15). -/
def remaining (s : State) : Nat := s.olen.toNat - s.soff.toNat

/-- The state after a request for `req` bytes obtained `d`: they are transformed and stored at the stream offset, which
moves on by their number (spec/45_ctr_stream.md R184, spec/20_memory.md R64). -/
def storeChunk (req : Nat) (d : List Byte) (s : State) : State :=
  { s with
    ctx := (ctrCrypt s.ctx d).2
    obuf := Memory.writeBytes s.obuf s.soff.toNat (ctrCrypt s.ctx d).1
    soff := s.soff + BitVec.ofNat 32 d.length
    sshort := streamShort s.sshort d.length req }

/-- `ChunkStep(req)` (spec/45_ctr_stream.md R184), no request where `req = 0`; then the command goes on. -/
def chunkStep (req : Nat) (s : State) (go : State → Result State) : Result State :=
  if req = 0 then go s
  else srcRead .src s.soff req s fun d t => go (storeChunk req d t)

/-- `clamp(v, lo, hi)` (spec/00_scope.md R7). -/
def clamp (v lo hi : Nat) : Nat := if v < lo then lo else if hi < v then hi else v

/-- `ChunkSize(L, c)` with its two bounds (spec/45_ctr_stream.md R185). -/
def chunkSize (lo hi L c : Nat) : Nat := min L (clamp c lo hi)

/-- What `SOPEN` does once its preconditions hold (spec/45_ctr_stream.md R186). -/
def openContext (s : State) : State :=
  { s with
    olen := s.len
    obuf := Memory.zeroFill s.len.toNat s.obuf
    soff := 0#32
    sshort := false
    ctx := ctxInit s.key s.ictr
    ctxv := true }

/-- The context is discarded; buffer, offset, length and short-read flag stay as the stream's result
(spec/45_ctr_stream.md R188). -/
def closeContext (s : State) : State := { s with ctxv := false }

/-- The preconditions `SOPEN` and `DSTREAM` share, in their order (spec/45_ctr_stream.md R186, R189,
spec/60_exceptions.md R215). -/
def checkOpen (cap : Word) (s : State) (go : Result State) : Result State :=
  check (!s.ctxv) .ctxLive s <|
    check (keysLoaded s) .noKey s <|
      check (decide (s.len ≤ cap)) .range s go

/-- `SOPEN` with a buffer of capacity `cap` (spec/45_ctr_stream.md R186). -/
def sopen (cap : Word) (s : State) : Result State := checkOpen cap s (.next (openContext s))

/-- The loop of `DSTREAM` (spec/45_ctr_stream.md R189), at most `n` times round; then the command goes on. `n = OLEN` is
always enough (log 19). -/
def streamLoop (chunk : Nat) (go : State → Result State) : Nat → State → Result State
  | 0, s => go s
  | n + 1, s =>
    if s.soff.toNat < s.olen.toNat ∧ s.sshort = false then
      chunkStep (min chunk (remaining s)) s (streamLoop chunk go n)
    else go s

/-- What `DSTREAM` does once its preconditions hold, the chunk bounds being `lo` and `hi` (spec/45_ctr_stream.md R189). -/
def runStream (lo hi : Nat) (s : State) : Result State :=
  streamLoop (chunkSize lo hi s.len.toNat s.chunk.toNat) (fun t => .next (closeContext t)) s.len.toNat (openContext s)

/-- `DSTREAM` with a buffer of capacity `cap` and chunk bounds `lo`, `hi` (spec/45_ctr_stream.md R189). -/
def dstream (cap : Word) (lo hi : Nat) (s : State) : Result State := checkOpen cap s (runStream lo hi s)

/-- `SOPEN` (spec/45_ctr_stream.md R186). -/
def execSopen (s : State) : Result State := sopen Config.obufCap s

/-- `SCHUNK`: a request is cut to what is left of the buffer (spec/45_ctr_stream.md R187). -/
def execSchunk (s : State) : Result State :=
  check s.ctxv .noCtx s (chunkStep (min s.req.toNat (remaining s)) s .next)

/-- `SCLOSE` (spec/45_ctr_stream.md R188). -/
def execSclose (s : State) : Result State := check s.ctxv .noCtx s (.next (closeContext s))

/-- `DSTREAM` (spec/45_ctr_stream.md R189). -/
def execDstream (s : State) : Result State := dstream Config.obufCap Config.chunkMin Config.chunkMax s

end Sys2Proof.Machine
end

