-- ==== Sys2Proof/Machine/Dispatch.lean ====
section
/-! DEFINITION. The one dispatch: each command calls its meaning. -/

namespace Sys2Proof.Machine

def exec (i : Instr) (s : State) : Host.Outcome State Fault Refusal :=
  match i with
  | .nop => Sys2Proof.Machine.execNop s
  | .srst => Sys2Proof.Machine.execSrst s
  | .tinit => Sys2Proof.Machine.execTinit s
  | .tload => Sys2Proof.Machine.execTload s
  | .gseed => Sys2Proof.Machine.execGseed s
  | .gnext32 => Sys2Proof.Machine.execGnext32 s
  | .gnext64 => Sys2Proof.Machine.execGnext64 s
  | .kmder idx dst => Sys2Proof.Machine.execKmder idx dst s
  | .kcder => Sys2Proof.Machine.execKcder s
  | .sopen => Sys2Proof.Machine.execSopen s
  | .schunk => Sys2Proof.Machine.execSchunk s
  | .sclose => Sys2Proof.Machine.execSclose s
  | .dstream => Sys2Proof.Machine.execDstream s

end Sys2Proof.Machine
end

