-- ==== Sys2Proof/Machine/HostPort.lean ====
section
/-! DEFINITION. Host accesses (spec/40_control.md R113, R114, spec/20_memory.md R65): register writes and reads, output
buffer reads, the hardware reset, how an access is taken from the host, and what reaches an engine that waits for an
answer. -/

namespace Sys2Proof.Machine

/-- What a host access comes to: a command for the engine to run, or a finished access. -/
inductive PortResult where
  | command (w : Word) (s : State)
  | finished (s : State)

/-- A write to a register (spec/40_control.md R113). -/
def writeReg (r : Reg) (v : Word) (s : State) : PortResult :=
  match r with
  | .cmd => .command v s
  | .hoff => .finished { s with hoff := v }
  | .seed => .finished { s with seed := v }
  | .len => .finished { s with len := v }
  | .chunk => .finished { s with chunk := v }
  | .req => .finished { s with req := v }
  | .key n => .finished { s with key := setBlockWord s.key n v, keyv := setValid s.keyv n }
  | .ictr n => .finished { s with ictr := setBlockWord s.ictr n v, ictrv := setValid s.ictrv n }
  | .tblw i => .finished (if s.tblv then { s with tbl := s.tbl.set i v } else recordFault .noTbl s)
  | .status => .finished (recordFault .addr s)
  | .tgot => .finished (recordFault .addr s)
  | .goutLo => .finished (recordFault .addr s)
  | .goutHi => .finished (recordFault .addr s)
  | .soff => .finished (recordFault .addr s)
  | .olen => .finished (recordFault .addr s)
  | .cb _ => .finished (recordFault .addr s)
  | .cpos => .finished (recordFault .addr s)

/-- The value a read of a register returns, or the fault it records (spec/40_control.md R114). -/
def readReg (r : Reg) (s : State) : Except FaultCode Word :=
  match r with
  | .cmd => .error .addr
  | .status => .ok (statusWord s)
  | .hoff => .ok s.hoff
  | .tgot => .ok s.tgot
  | .seed => .ok s.seed
  | .goutLo => .ok (s.gout.extractLsb' 0 32)
  | .goutHi => .ok (s.gout.extractLsb' 32 32)
  | .len => .ok s.len
  | .chunk => .ok s.chunk
  | .req => .ok s.req
  | .soff => .ok s.soff
  | .olen => .ok s.olen
  | .key n => if s.keyv.getLsbD n.val then .ok (blockWord s.key n) else .error .uninit
  | .ictr n => if s.ictrv.getLsbD n.val then .ok (blockWord s.ictr n) else .error .uninit
  | .cb n => if s.ctxv then .ok (blockWord s.ctx.cb n) else .error .noCtx
  | .cpos => if s.ctxv then .ok (BitVec.ofNat 32 s.ctx.pos.val) else .error .noCtx
  | .tblw i => if s.tblv then .ok s.tbl[i] else .error .noTbl

/-- `WR off, v` by an access of `width` bits (spec/40_control.md R113, spec/20_memory.md R68). -/
def hostWrite (width off : Nat) (v : Word) (s : State) : PortResult :=
  match regAt width off with
  | some r => writeReg r v s
  | none => .finished (recordFault .addr s)

/-- A read that returned `v`. -/
def returnWord (v : Word) (s : State) : State := { s with ret := .word v }

/-- An output buffer read that returned `b`. -/
def returnByte (b : Byte) (s : State) : State := { s with ret := .byte b }

/-- `RD off` by an access of `width` bits: a faulting read returns 0 (spec/40_control.md R114, spec/20_memory.md R68). -/
def hostRead (width off : Nat) (s : State) : State :=
  match regAt width off with
  | none => returnWord 0#32 (recordFault .addr s)
  | some r =>
    match readReg r s with
    | .ok v => returnWord v s
    | .error c => returnWord 0#32 (recordFault c s)

/-- `OBufRead(o)`: `E_OWN` while a stream is open, `E_ADDR` at or past `OLEN`, else the byte (spec/20_memory.md R65). -/
def readOut (o : Word) (s : State) : State :=
  if s.ctxv then returnByte 0#8 (recordFault .own s)
  else if s.olen ≤ o then returnByte 0#8 (recordFault .addr s)
  else returnByte (Memory.read s.obuf o.toNat) s

/-- What one host access comes to. -/
def hostPort (a : HostAccess) (s : State) : PortResult :=
  match a with
  | .write width off v => hostWrite width off v s
  | .read width off => .finished (hostRead width off s)
  | .readOut o => .finished (readOut o s)
  | .hardReset => .finished (resetEngine s)

/-- The state with the host's next access taken from its queue, `rest` still to come (log 7, log 8). -/
def takeAccess (rest : List HostAccess) (s : State) : State := { s with host := rest, ret := .done }

/-- A step of an engine that waits for an answer: it goes on waiting, and only a hardware reset ends that
(spec/70_reset_and_hazards.md R249). The accesses queued before the next hardware reset are never issued, since the
`CMD` write before them never completes (log 11). -/
def waitForReset (s : State) : State :=
  match s.host.dropWhile fun a => decide (a ≠ .hardReset) with
  | [] => s
  | _ :: rest => resetEngine (takeAccess rest s)

/-- The access by which the host delivers a command word: a 32-bit write to `CMD` (spec/30_encoding.md R90). -/
def commandWrite (w : Word) : HostAccess := .write 32 (regOffset .cmd) w

end Sys2Proof.Machine
end

