-- ==== Sys2Proof/Machine/Step.lean ====
section
/-! DEFINITION. One step of the machine: the engine serves the host's next access, waits, or idles (spec/40_control.md R110;
log 7). -/

namespace Sys2Proof.Machine

/-- A word written to `CMD`: decoded and executed to its end; an illegal word records `E_ILLCMD` and does nothing else
(spec/40_control.md R110, spec/30_encoding.md R95). -/
def runCommand (w : Word) (s : State) : Host.Outcome State Fault Refusal :=
  match decode w with
  | .ok i => exec i s
  | .error _ => .next (recordFault .illCmd s)

/-- One step: an engine that waits for an answer goes on waiting (spec/70_reset_and_hazards.md R249), and with no access
to serve the engine holds its state (spec/60_exceptions.md R224). -/
def step (s : State) : Host.Outcome State Fault Refusal :=
  if s.waiting then .next (waitForReset s)
  else
    match s.host with
    | [] => .next s
    | a :: rest =>
      match hostPort a (takeAccess rest s) with
      | .command w t => runCommand w t
      | .finished t => .next t

/-- The state whose next step runs the command word `w`: the host's next access writes it to `CMD`, and no earlier command
waits for an answer (log 7). A command has one 32-bit word, so the table's bit count adds nothing. -/
def State.withFetchWord (s : State) (_nbits w : Nat) : State :=
  { s with host := commandWrite (BitVec.ofNat 32 w) :: s.host, waiting := false }

end Sys2Proof.Machine
end

