-- ==== Sys2Proof/Machine/Script.lean ====
section
/-! DEFINITION. Host scripts (spec/30_encoding.md R97, R98): the statements of the script notation and the host accesses
each one assembles to. -/

namespace Sys2Proof.Machine

/-- A statement of a host script (R97) or a pseudo-statement (R98). -/
inductive Statement where
  | wr (r : Reg) (v : Word)
  | rd (r : Reg)
  | rdo (o : Word)
  | command (i : Instr)
  | deriveKey
  | deriveCtr
  | ldKey (b : Block)
  | ldIctr (b : Block)
  | ldTbl (t : Table)
  deriving DecidableEq, Repr

/-- The 32-bit write of `v` to a register. -/
def wrAccess (r : Reg) (v : Word) : HostAccess := .write 32 (regOffset r) v

/-- The accesses a statement stands for, in order (R97, R98). -/
def assemble : Statement → List HostAccess
  | .wr r v => [wrAccess r v]
  | .rd r => [.read 32 (regOffset r)]
  | .rdo o => [.readOut o]
  | .command i => [commandWrite (encode i)]
  | .deriveKey => [commandWrite (encode (.kmder Config.keyIndex .key))]
  | .deriveCtr => [commandWrite (encode (.kmder Config.ctrIndex .ictr))]
  | .ldKey b => (List.finRange 4).map fun n => wrAccess (.key n) (blockWord b n)
  | .ldIctr b => (List.finRange 4).map fun n => wrAccess (.ictr n) (blockWord b n)
  | .ldTbl t => commandWrite (encode .tinit) :: (List.finRange 128).map fun i => wrAccess (.tblw i) t[i]

end Sys2Proof.Machine
end

