-- ==== Sys2Proof/Safety.lean ====
section
/-! DEFINITION. The terms the statements use: which fault a command's preconditions raise, the spec's pseudocode and
closed forms, the invariants of the engine, and when two states cannot be told apart. -/

namespace Sys2Proof.Machine

/-! ### Faults of commands -/

/-- The first failing precondition of `SOPEN` and `DSTREAM` over a buffer of capacity `cap` (spec/60_exceptions.md R215). -/
def openFault (cap : Word) (s : State) : Option FaultCode :=
  if s.ctxv = true then some .ctxLive
  else if ¬(s.keyv = 0b1111#4 ∧ s.ictrv = 0b1111#4) then some .noKey
  else if cap < s.len then some .range
  else none

/-- The fault a command raises in a state, by the table of spec/60_exceptions.md R212. -/
def commandFault (cap : Word) (s : State) : Instr → Option FaultCode
  | .nop => none
  | .srst => none
  | .tinit => none
  | .tload => none
  | .gseed => none
  | .gnext32 => if s.gv = true then none else some .noGen
  | .gnext64 => if s.gv = true then none else some .noGen
  | .kmder _ _ => if s.tblv = true then none else some .noTbl
  | .kcder => none
  | .sopen => openFault cap s
  | .schunk => if s.ctxv = true then none else some .noCtx
  | .sclose => if s.ctxv = true then none else some .noCtx
  | .dstream => openFault cap s

/-- The state a fault leaves: the fault record of spec/60_exceptions.md R213 and no other change (R214). -/
def faulted (c : FaultCode) (s : State) : State :=
  { s with err := true, ecode := if s.err = true then s.ecode else faultCode c }

/-! ### What the environment does -/

/-- The source answers a request for up to `max` bytes at `off` with the bytes `d`. -/
abbrev Answers (src : Source) (off : Word) (max : Nat) (d : List Byte) : Prop :=
  sourceAnswer src off.toNat max = .bytes d

/-- The engine takes the access `a` next, with `rest` still to come: it waits for no answer (log 7, log 11). -/
abbrev Serves (s : State) (a : HostAccess) (rest : List HostAccess) : Prop := s.waiting = false ∧ s.host = a :: rest

/-- The state of an engine whose request `(space, off, max)` is not answered: the request is an event without a count, the
command has not completed, and nothing else has changed since `s` (spec/20_memory.md R73, spec/70_reset_and_hazards.md
R249; log 11). -/
def unanswered (space : Space) (off : Word) (max : Nat) (s : State) : State :=
  let used (src : Source) : Source := { src with replies := src.replies.tail }
  { s with
    hdr := if space = .hdr then used s.hdr else s.hdr
    src := if space = .src then used s.src else s.src
    trace := s.trace ++ [{ space := space, off := off, max := max, n := none }]
    waiting := true
    ret := .nothing }

/-- A stream of which `left` bytes are wanted, in requests of `min chunk left`, gets an answer within the contract of
spec/20_memory.md R61 to every request it makes. -/
def streamAnswered (chunk : Nat) : Nat → List Reply → Bool
  | _, [] => true
  | left, .never :: _ => decide (left = 0)
  | left, .bytes d :: rest =>
    decide (left = 0) ||
      (decide (d.length ≤ min chunk left) &&
        (decide (d.length < min chunk left) || streamAnswered chunk (left - d.length) rest))

/-- The bytes such a stream obtains from offset `off` on, up to its end or its first short read. -/
def streamBytes (chunk : Nat) (data : List Byte) : Nat → Nat → List Reply → List Byte
  | left, off, [] => fileAnswer data off left
  | _, _, .never :: _ => []
  | left, off, .bytes d :: rest =>
    if left = 0 then []
    else if d.length < min chunk left then d
    else d ++ streamBytes chunk data (left - d.length) (off + d.length) rest

/-- A source answers a request within the contract of spec/20_memory.md R61. -/
abbrev AnswersWithin (src : Source) (off : Word) (max : Nat) : Prop := ∃ d, Answers src off max d

/-- The environment answers, within the contract, every request a command makes (spec/70_reset_and_hazards.md R249). -/
def Answered (cap : Word) (s : State) : Instr → Prop
  | .nop => True
  | .srst => True
  | .tinit => True
  | .tload => AnswersWithin s.hdr s.hoff Config.tblLoadBytes
  | .gseed => True
  | .gnext32 => True
  | .gnext64 => True
  | .kmder _ _ => True
  | .kcder => AnswersWithin s.hdr s.hoff Config.tblLoadBytes
  | .sopen => True
  | .schunk => s.ctxv = true → min s.req.toNat (s.olen.toNat - s.soff.toNat) ≠ 0 →
    AnswersWithin s.src s.soff (min s.req.toNat (s.olen.toNat - s.soff.toNat))
  | .sclose => True
  | .dstream => openFault cap s = none →
    streamAnswered (chunkSize Config.chunkMin Config.chunkMax s.len.toNat s.chunk.toNat) s.len.toNat s.src.replies = true

/-! ### Pseudocode and closed forms -/

/-- The placement loop of spec/41_table_loader.md R122 over the zero table, byte `k` first. -/
def placeBytes (t : Table) : Nat → List Byte → Table
  | _, [] => t
  | k, b :: rest =>
    placeBytes
      (if h : k / 4 < 128 then t.set (k / 4) (t[k / 4] + b.setWidth 32 * BitVec.ofNat 32 (2 ^ (8 * (k % 4)))) else t)
      (k + 1) rest

/-- The keystream byte that meets stream byte `m`, in closed form (spec/45_ctr_stream.md R183). -/
def keystreamByte (k c : Block) (m : Nat) : Byte :=
  (aesEnc k (bytes128 (be128 c + BitVec.ofNat 128 (m / 16))))[m % 16]

/-- What the host issues after a command: more, once the command has completed; nothing while the engine waits for an
answer (spec/70_reset_and_hazards.md R249). -/
def andThen (x : Result State) (more : State → Result State) : Result State :=
  match x with
  | .next s => if s.waiting then .next s else more s
  | .fault r => .fault r
  | .refused r => .refused r

/-- The loop of a host script of `WR REQ, q` and `SCHUNK` while `SOFF < OLEN` and `SSHORT = 0`, at most `n` times round
(spec/45_ctr_stream.md R194). -/
def chunkScript (q : Word) : Nat → State → Result State
  | 0, s => .next s
  | n + 1, s =>
    if s.soff.toNat < s.olen.toNat ∧ s.sshort = false then
      andThen (exec .schunk { s with req := q }) (chunkScript q n)
    else .next s

/-- The host script of `DSTREAM`: `SOPEN`, the loop, `SCLOSE` (spec/45_ctr_stream.md R194). -/
def streamScript (cap q : Word) (n : Nat) (s : State) : Result State :=
  andThen (sopen cap s) fun a => andThen (chunkScript q n a) (exec .sclose)

/-- An outcome with the register `REQ` of its state set to `q`. -/
def withReq (q : Word) (x : Result State) : Result State :=
  match x with
  | .next s => .next { s with req := q }
  | .fault r => .fault r
  | .refused r => .refused r

/-- `WR REQ, q`; `SCHUNK` for each `q` of a list. -/
def chunksOf : List Word → State → Result State
  | [], s => .next s
  | q :: rest, s => andThen (exec .schunk { s with req := q }) (chunksOf rest)

/-- The `GOUT` values a sequence of generator draws gives, `true` a 32-bit draw and `false` a 64-bit one. -/
def drawValues : List Bool → State → List DWord
  | [], _ => []
  | b :: rest, s =>
    match exec (if b then .gnext32 else .gnext64) s with
    | .next t => t.gout :: drawValues rest t
    | .fault _ => []
    | .refused _ => []

/-! ### Invariants -/

/-- The fault record is consistent: no code without a fault, and only the ten codes (spec/60_exceptions.md R212). -/
def FaultRecordOk (s : State) : Prop :=
  (s.err = false → s.ecode = 0x00#8) ∧ (s.err = true → 0x01#8 ≤ s.ecode ∧ s.ecode ≤ 0x0A#8)

/-- The output buffer: canonical, the processed part within the buffer within the capacity, no byte beyond the capacity,
and the unfilled part zero (spec/10_state.md R27(e), spec/20_memory.md R64, spec/45_ctr_stream.md R192). -/
structure BufferOk (s : State) : Prop where
  canonical : Memory.wf s.obuf = true
  offset : s.soff ≤ s.olen
  length : s.olen ≤ Config.obufCap
  inside : ∀ a : Nat, Config.obufCap.toNat ≤ a → Memory.read s.obuf a = 0x00#8
  unfilled : ∀ a : Nat, s.soff.toNat ≤ a → a < s.olen.toNat → Memory.read s.obuf a = 0x00#8

/-- The open context runs the stream of key `k0` and initial counter `c0`, and `SOFF` keystream bytes of it are used
(spec/10_state.md R27(a) to (e)). -/
structure ContextRuns (k0 c0 : Block) (s : State) : Prop where
  isOpen : s.ctxv = true
  key : s.ctx.key = k0
  counter : be128 s.ctx.cb = be128 c0 + BitVec.ofNat 128 ((s.soff.toNat + 15) / 16)
  cursor : s.ctx.pos.val = if s.soff.toNat % 16 = 0 then 16 else s.soff.toNat % 16
  keystream : s.soff.toNat % 16 ≠ 0 →
    s.ctx.ks = aesEnc k0 (bytes128 (be128 c0 + BitVec.ofNat 128 (s.soff.toNat / 16)))
  extent : s.soff ≤ s.olen

/-- Every recorded request asked for at least one byte and at most 2^32 - 1, and got no more than it asked for
(spec/20_memory.md R61); while the engine waits, the last request is one that was not answered
(spec/70_reset_and_hazards.md R249). -/
def TraceOk (s : State) : Prop :=
  (∀ r ∈ s.trace, 1 ≤ r.max ∧ r.max < 2 ^ 32 ∧ ∀ n, r.n = some n → n ≤ r.max) ∧
  (s.waiting = true → ∃ before last, s.trace = before ++ [last] ∧ last.n = none)

/-! ### Observation -/

/-- Two states that agree on everything but contents the spec calls unobservable: state whose valid bit is 0, the
keystream buffer while none of it is left, and the output buffer at or past `OLEN` (spec/93_implementation_defined.md
U7, U8, U12). -/
structure Indistinct (s t : State) : Prop where
  tblv : s.tblv = t.tblv
  tbl : s.tblv = true → s.tbl = t.tbl
  gv : s.gv = t.gv
  g : s.gv = true → s.g = t.g
  gout : s.gout = t.gout
  keyv : s.keyv = t.keyv
  key : ∀ n : Fin 4, s.keyv.getLsbD n.val = true → blockWord s.key n = blockWord t.key n
  ictrv : s.ictrv = t.ictrv
  ictr : ∀ n : Fin 4, s.ictrv.getLsbD n.val = true → blockWord s.ictr n = blockWord t.ictr n
  ctxv : s.ctxv = t.ctxv
  ctx : s.ctxv = true → s.ctx.key = t.ctx.key ∧ s.ctx.cb = t.ctx.cb ∧ s.ctx.pos = t.ctx.pos
  ks : s.ctxv = true → s.ctx.pos.val < 16 → s.ctx.ks = t.ctx.ks
  hoff : s.hoff = t.hoff
  seed : s.seed = t.seed
  len : s.len = t.len
  chunk : s.chunk = t.chunk
  req : s.req = t.req
  tgot : s.tgot = t.tgot
  soff : s.soff = t.soff
  olen : s.olen = t.olen
  obuf : ∀ a : Nat, a < s.olen.toNat → Memory.read s.obuf a = Memory.read t.obuf a
  canonical : Memory.wf s.obuf = true ∧ Memory.wf t.obuf = true
  tshort : s.tshort = t.tshort
  sshort : s.sshort = t.sshort
  err : s.err = t.err
  ecode : s.ecode = t.ecode
  hdr : s.hdr = t.hdr
  src : s.src = t.src
  trace : s.trace = t.trace
  waiting : s.waiting = t.waiting
  host : s.host = t.host
  ret : s.ret = t.ret

/-- Two outcomes a host and an environment cannot tell apart. -/
def IndistinctOutcomes (x y : Result State) : Prop :=
  match x, y with
  | .next s, .next t => Indistinct s t
  | .fault a, .fault b => a = b
  | .refused a, .refused b => a = b
  | _, _ => False

end Sys2Proof.Machine
end

