-- ==== Sys2Proof/Certificates/Slice0/Obligations.lean ====
section
/-! DEFINITION. The statements for the provers. Each docstring cites the rule of spec/ it formalises. A statement over
`cap` holds for every capacity of the output buffer; the engine's is `Config.obufCap`. -/

open Sys2Proof Sys2Proof.Machine

/-! ### Encoding and steps -/

/-- R91 to R94 of spec/30_encoding.md: the decoder reads back every well-formed command from its word. -/
def Obligations.DecodeOfEncodeIsTheCommand : Prop :=
  ∀ i : Instr, i.wellFormed = true → decode (encode i) = .ok i

/-- R94 of spec/30_encoding.md: no two words decode to one command, and what decodes is well-formed. -/
def Obligations.DecodedWordIsTheOnlyEncoding : Prop :=
  ∀ (w : Word) (i : Instr), decode w = .ok i → i.wellFormed = true ∧ encode i = w

/-- R93 of spec/30_encoding.md: `w and mask = match` for each row, and no other word is a command. -/
def Obligations.OnlyTheThirteenRowsDecode : Prop :=
  ∀ w : Word,
    (decode w = .ok .nop ↔ w &&& 0xFFFFFFFF#32 = 0x00000000#32) ∧
    (decode w = .ok .srst ↔ w &&& 0xFFFFFFFF#32 = 0x01000000#32) ∧
    (decode w = .ok .tinit ↔ w &&& 0xFFFFFFFF#32 = 0x10000000#32) ∧
    (decode w = .ok .tload ↔ w &&& 0xFFFFFFFF#32 = 0x11000000#32) ∧
    (decode w = .ok .gseed ↔ w &&& 0xFFFFFFFF#32 = 0x20000000#32) ∧
    (decode w = .ok .gnext32 ↔ w &&& 0xFFFFFFFF#32 = 0x21000000#32) ∧
    (decode w = .ok .gnext64 ↔ w &&& 0xFFFFFFFF#32 = 0x22000000#32) ∧
    ((∃ idx dst, decode w = .ok (.kmder idx dst)) ↔ w &&& 0xFFFFFE80#32 = 0x30000000#32) ∧
    (decode w = .ok .kcder ↔ w &&& 0xFFFFFFFF#32 = 0x31000000#32) ∧
    (decode w = .ok .sopen ↔ w &&& 0xFFFFFFFF#32 = 0x40000000#32) ∧
    (decode w = .ok .schunk ↔ w &&& 0xFFFFFFFF#32 = 0x41000000#32) ∧
    (decode w = .ok .sclose ↔ w &&& 0xFFFFFFFF#32 = 0x42000000#32) ∧
    (decode w = .ok .dstream ↔ w &&& 0xFFFFFFFF#32 = 0x43000000#32)

/-- V-ENC-1 to V-ENC-6 of spec/95_test_vectors.md: each of their words. -/
def Obligations.SpecCommandWordsDecode : Prop :=
  decode 0x00000000#32 = .ok .nop ∧ decode 0x01000000#32 = .ok .srst ∧ decode 0x10000000#32 = .ok .tinit ∧
  decode 0x11000000#32 = .ok .tload ∧ decode 0x20000000#32 = .ok .gseed ∧ decode 0x21000000#32 = .ok .gnext32 ∧
  decode 0x22000000#32 = .ok .gnext64 ∧ decode 0x30000000#32 = .ok (.kmder 0 .key) ∧ decode 0x31000000#32 = .ok .kcder ∧
  decode 0x40000000#32 = .ok .sopen ∧ decode 0x41000000#32 = .ok .schunk ∧ decode 0x42000000#32 = .ok .sclose ∧
  decode 0x43000000#32 = .ok .dstream ∧
  decode 0x30000102#32 = .ok (.kmder 2 .ictr) ∧ decode 0x3000007F#32 = .ok (.kmder 127 .key) ∧
  decode 0x3000017F#32 = .ok (.kmder 127 .ictr) ∧ decode 0x30000105#32 = .ok (.kmder 5 .ictr) ∧
  decode 0x30000080#32 = .error .zeroFieldSet ∧ decode 0x30000200#32 = .error .zeroFieldSet ∧
  decode 0x30800000#32 = .error .zeroFieldSet ∧ decode 0x10000001#32 = .error .zeroFieldSet ∧
  decode 0x43000100#32 = .error .zeroFieldSet ∧ decode 0x00000001#32 = .error .zeroFieldSet ∧
  decode 0x02000000#32 = .error .unassignedOpcode ∧ decode 0x12000000#32 = .error .unassignedOpcode ∧
  decode 0x23000000#32 = .error .unassignedOpcode ∧ decode 0x32000000#32 = .error .unassignedOpcode ∧
  decode 0x44000000#32 = .error .unassignedOpcode ∧ decode 0x50000000#32 = .error .unassignedOpcode ∧
  decode 0xFF000000#32 = .error .unassignedOpcode

/-- R110 of spec/40_control.md: a write of a command's word to `CMD` is one step, which runs exactly that command on the
state with the access taken from the host's queue; with no access to serve the engine holds its state (R224 of
spec/60_exceptions.md; the queue is the model's, log 7). SilentSourceWaitsForAHardwareReset says what a step of a waiting
engine is. -/
def Obligations.StepRunsTheDecodedCommand : Prop :=
  (∀ (s : State) (w : Word) (i : Instr) (rest : List HostAccess),
    Serves s (.write 32 0x000 w) rest → decode w = .ok i → step s = exec i { s with host := rest, ret := .done }) ∧
  ∀ s : State, s.waiting = false → s.host = [] → step s = .next s

/-- R95 of spec/30_encoding.md: an illegal word records `E_ILLCMD` and has no other effect. -/
def Obligations.IllegalWordRecordsIllCmd : Prop :=
  ∀ (s : State) (w : Word) (rest : List HostAccess),
    Serves s (.write 32 0x000 w) rest → (∀ i : Instr, i.wellFormed = true → encode i ≠ w) →
    step s = .next (faulted .illCmd { s with host := rest, ret := .done })

/-! ### Reset and control -/

/-- R40 of spec/10_state.md: the values after reset and after `SRST`; an element without a value has its valid bit 0. -/
def Obligations.ResetValues : Prop :=
  ∀ t : State, (t = State.reset ∨ ∃ s, exec .srst s = .next t) →
    t.tblv = false ∧ t.gv = false ∧ t.ctxv = false ∧ t.keyv = 0b0000#4 ∧ t.ictrv = 0b0000#4 ∧ t.gout = 0#64 ∧
    t.hoff = 0#32 ∧ t.seed = 0#32 ∧ t.len = 0#32 ∧ t.chunk = 0#32 ∧ t.req = 0#32 ∧
    t.tgot = 0#32 ∧ t.soff = 0#32 ∧ t.olen = 0#32 ∧
    t.tshort = false ∧ t.sshort = false ∧ t.err = false ∧ t.ecode = 0#8 ∧ statusWord t = 0x00000000#32

/-- R112 of spec/40_control.md and R240 of spec/70_reset_and_hazards.md: `SRST` completes in every state and gives every
element of the engine its reset value; the hardware reset gives the same state. The host, the byte sources and the trace
are not the engine's (log 23). -/
def Obligations.ResetByCommandAndByHardware : Prop :=
  (∀ s : State, exec .srst s =
    .next { State.reset with hdr := s.hdr, src := s.src, trace := s.trace, host := s.host, ret := s.ret }) ∧
  ∀ (s : State) (rest : List HostAccess), s.host = .hardReset :: rest →
    step s = exec .srst { s with host := rest, ret := .done }

/-- R111 of spec/40_control.md: from any state `s`, `NOP` gives `s`. -/
def Obligations.NopChangesNothing : Prop := ∀ s : State, exec .nop s = .next s

/-! ### Table loader -/

/-- R121 of spec/41_table_loader.md: every word 0, `TBLV` 1, `TGOT` 0, `TSHORT` 0, and nothing else changes. -/
def Obligations.TinitMakesTheZeroTable : Prop :=
  ∀ s : State, ∃ t, exec .tinit s = .next t ∧ (∀ i : Fin 128, t.tbl[i] = 0#32) ∧
    t = { s with tbl := t.tbl, tblv := true, tgot := 0#32, tshort := false }

/-- R122 and R123 of spec/41_table_loader.md: one request at `HOFF` for `TBL_LOAD_BYTES` bytes; byte `k` of the answer goes
to bits `8*(k mod 4)+7 : 8*(k mod 4)` of word `k div 4`, every other byte of the table is zero; `TGOT`, `TSHORT`, `TBLV`
as the rule says; nothing else changes. -/
def Obligations.TloadInstallsTheAnsweredBytes : Prop :=
  ∀ (s : State) (d : List Byte), Answers s.hdr s.hoff Config.tblLoadBytes d →
    ∃ t, exec .tload s = .next t ∧
      (∀ k : Fin 512, wordByte t.tbl[k.val / 4] (k.val % 4) = d.getD k.val 0x00#8) ∧
      t.tgot.toNat = d.length ∧
      t = { s with
        tbl := t.tbl, tblv := true, tgot := t.tgot, tshort := decide (d.length < Config.tblLoadBytes),
        hdr := { s.hdr with replies := s.hdr.replies.tail },
        trace := s.trace ++ [{ space := .hdr, off := s.hoff, max := Config.tblLoadBytes, n := some d.length }] }

/-- R122 of spec/41_table_loader.md: the placement loop of its pseudocode, over the zero table, makes the table a load
installs. -/
def Obligations.PlacementLoopMakesTheTable : Prop :=
  ∀ d : List Byte, d.length ≤ 512 → placeBytes zeroTable 0 d = tableOf d

/-- R125 of spec/41_table_loader.md: the byte count is 128 or 512, and with 128 any table index of 32 or more reads 0
after a `TLOAD`. -/
def Obligations.DefaultLoadLeavesUpperWordsZero : Prop :=
  (Config.tblLoadBytes = 128 ∨ Config.tblLoadBytes = 512) ∧
  (Config.tblLoadBytes = 128 → ∀ s : State, exec .tload s = tload 128 s) ∧
  ∀ (s : State) (d : List Byte), Answers s.hdr s.hoff 128 d →
    ∃ t, tload 128 s = .next t ∧ ∀ i : Fin 128, 32 ≤ i.val → t.tbl[i] = 0#32

/-- R249 and R240 of spec/70_reset_and_hazards.md, R73 of spec/20_memory.md, U9 and U11 of
spec/93_implementation_defined.md: where a request is never answered the request is recorded as an event and the engine
waits; while it waits no access is served, until a hardware reset, which gives the reset state; an answer longer than asked
is refused. What becomes of the accesses queued before that reset is the model's (log 11). -/
def Obligations.SilentSourceWaitsForAHardwareReset : Prop :=
  (∀ s : State,
    (sourceAnswer s.hdr s.hoff.toNat Config.tblLoadBytes = .never →
      exec .tload s = .next (unanswered .hdr s.hoff Config.tblLoadBytes s) ∧
      exec .kcder s = .next (unanswered .hdr s.hoff Config.tblLoadBytes s)) ∧
    (sourceAnswer s.hdr s.hoff.toNat Config.tblLoadBytes = .tooLong →
      exec .tload s = .refused (.answerTooLong .hdr) ∧ exec .kcder s = .refused (.answerTooLong .hdr)) ∧
    (s.ctxv = true → min s.req.toNat (s.olen.toNat - s.soff.toNat) ≠ 0 →
      (sourceAnswer s.src s.soff.toNat (min s.req.toNat (s.olen.toNat - s.soff.toNat)) = .never →
        exec .schunk s = .next (unanswered .src s.soff (min s.req.toNat (s.olen.toNat - s.soff.toNat)) s)) ∧
      (sourceAnswer s.src s.soff.toNat (min s.req.toNat (s.olen.toNat - s.soff.toNat)) = .tooLong →
        exec .schunk s = .refused (.answerTooLong .src)))) ∧
  (∀ (cap : Word) (s : State) (later : List Reply), openFault cap s = none → s.len ≠ 0#32 →
    s.src.replies = .never :: later →
    ∃ a, sopen cap s = .next a ∧ dstream cap Config.chunkMin Config.chunkMax s =
      .next (unanswered .src 0#32 (chunkSize Config.chunkMin Config.chunkMax s.len.toNat s.chunk.toNat) a)) ∧
  ∀ s : State, s.waiting = true →
    (.hardReset ∉ s.host → step s = .next s) ∧
    ∀ lost rest : List HostAccess, s.host = lost ++ .hardReset :: rest → .hardReset ∉ lost →
      step s = .next { State.reset with hdr := s.hdr, src := s.src, trace := s.trace, host := rest, ret := .done }

/-! ### Generator -/

/-- R131 of spec/42_generator.md. -/
def Obligations.GseedSeedsTheGenerator : Prop :=
  ∀ s : State, exec .gseed s = .next { s with g := Config.prng.seed s.seed, gv := true }

/-- R132 and R133 of spec/42_generator.md: with a seeded generator one draw, a 32-bit one zero-extended; without one the
fault `E_NOGEN` and nothing else. -/
def Obligations.GeneratorCommandsDraw : Prop :=
  ∀ s : State,
    (s.gv = true →
      exec .gnext32 s = .next { s with g := (Config.prng.next32 s.g).2, gout := 0#32 ++ (Config.prng.next32 s.g).1 } ∧
      exec .gnext64 s = .next { s with g := (Config.prng.next64 s.g).2, gout := (Config.prng.next64 s.g).1 }) ∧
    (s.gv = false → exec .gnext32 s = .next (faulted .noGen s) ∧ exec .gnext64 s = .next (faulted .noGen s))

/-- R130 of spec/42_generator.md: two generators seeded identically and driven by the same call sequence produce identical
outputs, and no draw of the sequence fails. -/
def Obligations.DrawsDependOnTheSeedOnly : Prop :=
  ∀ (calls : List Bool) (s u s' u' : State), s.seed = u.seed → exec .gseed s = .next s' → exec .gseed u = .next u' →
    drawValues calls s' = drawValues calls u' ∧ (drawValues calls s').length = calls.length

/-! ### Key scheduler -/

/-- R140, R141 and R142 of spec/43_key_scheduler.md: seed value and roll count by chained ring lookups, the roll count in
[1,16]. -/
def Obligations.SeedValueAndRollCount : Prop :=
  ∀ (t : Table) (i : Fin 128),
    seedValue t i.val = t[t[i].toNat % 128] ∧
    rollCount t i.val = t[t[(i.val + 1) % 128].toNat % 128].toNat % 16 + 1 ∧
    1 ≤ rollCount t i.val ∧ rollCount t i.val ≤ 16

/-- R143, R144 and R145 of spec/43_key_scheduler.md: after exactly `rollCount` discarded 64-bit draws, byte `k` of the key
material is bits 31:24 of the `(k+1)`-th 32-bit draw, and the generator is the one after sixteen of them. -/
def Obligations.KeyMaterialIsTopBytesOfDraws : Prop :=
  ∀ (p : Prng) (t : Table) (i : Fin 128),
    let burned := (fun g => (p.next64 g).2)^[rollCount t i.val] (p.seed (seedValue t i.val))
    (∀ k : Fin 16, (km p t i.val).1[k] = ((p.next32 ((fun g => (p.next32 g).2)^[k.val] burned)).1 >>> 24).setWidth 8) ∧
    (km p t i.val).2 = (fun g => (p.next32 g).2)^[16] burned

/-- R145 of spec/43_key_scheduler.md: `KM` reads only the table words `i`, `i + 1` and the two they select. -/
def Obligations.KeyMaterialReadsFourWords : Prop :=
  ∀ (p : Prng) (t u : Table) (i : Fin 128),
    t[i] = u[i] → t[(i.val + 1) % 128] = u[(i.val + 1) % 128] →
    t[t[i].toNat % 128] = u[t[i].toNat % 128] →
    t[t[(i.val + 1) % 128].toNat % 128] = u[t[(i.val + 1) % 128].toNat % 128] →
    km p t i.val = km p u i.val

/-- R146 of spec/43_key_scheduler.md: all sixteen bytes and the four valid bits of the destination, the generator
discarded, nothing else; without a table the fault `E_NOTBL` and nothing else. -/
def Obligations.KmderDerivesKeyMaterial : Prop :=
  ∀ (s : State) (idx : Nat), idx < 128 →
    (s.tblv = true →
      exec (.kmder idx .key) s = .next { s with
        key := (km Config.prng s.tbl idx).1, keyv := 0b1111#4, g := (km Config.prng s.tbl idx).2, gv := false } ∧
      exec (.kmder idx .ictr) s = .next { s with
        ictr := (km Config.prng s.tbl idx).1, ictrv := 0b1111#4, g := (km Config.prng s.tbl idx).2, gv := false }) ∧
    (s.tblv = false → ∀ dst, exec (.kmder idx dst) s = .next (faulted .noTbl s))

/-- R148 of spec/43_key_scheduler.md: key material depends on the table and the index only, and key and counter of `KCDER`
on the answer of the header source only. -/
def Obligations.KeyMaterialIsPure : Prop :=
  (∀ (s u s' u' : State) (idx : Nat) (dst : Dst), s.tblv = true → u.tblv = true → s.tbl = u.tbl →
    exec (.kmder idx dst) s = .next s' → exec (.kmder idx dst) u = .next u' →
    match dst with
    | .key => s'.key = u'.key
    | .ictr => s'.ictr = u'.ictr) ∧
  ∀ (s u s' u' : State) (d : List Byte),
    Answers s.hdr s.hoff Config.tblLoadBytes d → Answers u.hdr u.hoff Config.tblLoadBytes d →
    exec .kcder s = .next s' → exec .kcder u = .next u' → s'.key = u'.key ∧ s'.ictr = u'.ictr

/-- R147 of spec/43_key_scheduler.md: the load of R122, key from index 0, counter from index 2, table and generator
discarded, nothing else. -/
def Obligations.KcderDerivesThePair : Prop :=
  ∀ (s : State) (d : List Byte), Answers s.hdr s.hoff Config.tblLoadBytes d →
    ∃ t, exec .kcder s = .next t ∧
      (∀ k : Fin 512, wordByte t.tbl[k.val / 4] (k.val % 4) = d.getD k.val 0x00#8) ∧
      t.tgot.toNat = d.length ∧
      t = { s with
        tbl := t.tbl, tblv := false, tgot := t.tgot, tshort := decide (d.length < Config.tblLoadBytes),
        key := (km Config.prng t.tbl 0).1, keyv := 0b1111#4, ictr := (km Config.prng t.tbl 2).1, ictrv := 0b1111#4,
        g := (km Config.prng t.tbl 2).2, gv := false,
        hdr := { s.hdr with replies := s.hdr.replies.tail },
        trace := s.trace ++ [{ space := .hdr, off := s.hoff, max := Config.tblLoadBytes, n := some d.length }] }

/-- R98 of spec/30_encoding.md and R147 of spec/43_key_scheduler.md: `TLOAD`; `DERIVEKEY`; `DERIVECTR` ends as `KCDER` does,
but for the table, which it keeps. -/
def Obligations.KcderIsLoadThenDerivations : Prop :=
  ∀ (s : State) (d : List Byte), Answers s.hdr s.hoff Config.tblLoadBytes d →
    ∃ a b c, exec .tload s = .next a ∧ exec (.kmder 0 .key) a = .next b ∧ exec (.kmder 2 .ictr) b = .next c ∧
      c.tblv = true ∧ exec .kcder s = .next { c with tblv := false }

/-! ### AES-128 -/

/-- R162 and R163 of spec/44_aes128_encryptor.md: the inverse, the worked products, the S-box table against its algebraic
definition, and that it is a permutation. -/
def Obligations.FieldInverseAndSbox : Prop :=
  gfInv 0x00#8 = 0x00#8 ∧ (∀ a : Byte, a ≠ 0x00#8 → gfMul a (gfInv a) = 0x01#8) ∧
  xtime 0x57#8 = 0xAE#8 ∧ xtime 0xAE#8 = 0x47#8 ∧ gfMul 0x57#8 0x13#8 = 0xFE#8 ∧ gfInv 0x53#8 = 0xCA#8 ∧
  (∀ a : Byte, sbox a = sboxAlgebraic a) ∧ ∀ a b : Byte, sbox a = sbox b → a = b

/-- R164, R165 and R168 of spec/44_aes128_encryptor.md: the worked examples of the steps and of the cipher. -/
def Obligations.CipherMeetsItsExamples : Prop :=
  shiftRows (bytes128 0xd42711aee0bf98f1b8b45de51e415230#128) = bytes128 0xd4bf5d30e0b452aeb84111f11e2798e5#128 ∧
  mixColumns (bytes128 0xd4bf5d30e0b452aeb84111f11e2798e5#128) = bytes128 0x046681e5e0cb199a48f8d37a2806264c#128 ∧
  aesEnc (bytes128 0x2b7e151628aed2a6abf7158809cf4f3c#128) (bytes128 0x3243f6a8885a308d313198a2e0370734#128) =
    bytes128 0x3925841d02dc09fbdc118597196a0b32#128 ∧
  aesEnc (bytes128 0x000102030405060708090a0b0c0d0e0f#128) (bytes128 0x00112233445566778899aabbccddeeff#128) =
    bytes128 0x69c4e0d86a7b0430d8cdb78070b4c55a#128

/-- R167 of spec/44_aes128_encryptor.md: 44 words; the first four are the key; each later word is the one four back xor the
one before it, which for a multiple of four goes through RotWord, SubWord and the round constant; `RK_0 = K`. -/
def Obligations.KeyExpansionRecurrence : Prop :=
  ∀ k : Block,
    (expandKey k).length = 44 ∧
    (∀ j b : Fin 4, ((expandKey k).getD j.val zeroQuad)[b] = k[4 * j.val + b.val]) ∧
    (∀ (j : Nat) (b : Fin 4), 4 ≤ j → j < 44 →
      ((expandKey k).getD j zeroQuad)[b] = ((expandKey k).getD (j - 4) zeroQuad)[b] ^^^
        (if j % 4 = 0 then
          sbox (((expandKey k).getD (j - 1) zeroQuad)[(b.val + 1) % 4]) ^^^
            (if b.val = 0 then
              [0x01#8, 0x02#8, 0x04#8, 0x08#8, 0x10#8, 0x20#8, 0x40#8, 0x80#8, 0x1b#8, 0x36#8].getD (j / 4 - 1) 0x00#8
            else 0x00#8)
        else ((expandKey k).getD (j - 1) zeroQuad)[b])) ∧
    (∀ (r : Fin 11) (j : Fin 16), (roundKey (expandKey k) r.val)[j] =
      ((expandKey k).getD (4 * r.val + j.val / 4) zeroQuad)[j.val % 4]) ∧
    roundKey (expandKey k) 0 = k

/-! ### Counter mode -/

/-- R180 of spec/45_ctr_stream.md: plus one as a big-endian 128-bit integer, and byte by byte. -/
def Obligations.IncrementIsBigEndian : Prop :=
  ∀ b : Block,
    be128 (inc128 b) = be128 b + 1#128 ∧
    (∀ j : Fin 16, b[j] ≠ 0xff#8 → (∀ i : Fin 16, j < i → b[i] = 0xff#8) →
      (∀ i : Fin 16, i < j → (inc128 b)[i] = b[i]) ∧ (inc128 b)[j] = b[j] + 1#8 ∧
      ∀ i : Fin 16, j < i → (inc128 b)[i] = 0x00#8) ∧
    ((∀ i : Fin 16, b[i] = 0xff#8) → ∀ i : Fin 16, (inc128 b)[i] = 0x00#8)

/-- R183 of spec/45_ctr_stream.md: byte `m` of a stream meets keystream byte `m`, in closed form, however the bytes are
split into calls. -/
def Obligations.KeystreamClosedForm : Prop :=
  (∀ (k c : Block) (d : List Byte) (m : Nat), m < d.length →
    (ctrCrypt (ctxInit k c) d).1.getD m 0x00#8 = d.getD m 0x00#8 ^^^ keystreamByte k c m) ∧
  ∀ (x : Ctx) (d e : List Byte),
    ctrCrypt x (d ++ e) =
      ((ctrCrypt x d).1 ++ (ctrCrypt (ctrCrypt x d).2 e).1, (ctrCrypt (ctrCrypt x d).2 e).2)

/-- R193 of spec/45_ctr_stream.md: the transform under one key and initial counter is its own inverse. -/
def Obligations.TransformIsItsOwnInverse : Prop :=
  ∀ (k c : Block) (d : List Byte), (ctrCrypt (ctxInit k c) (ctrCrypt (ctxInit k c) d).1).1 = d

/-- R185 of spec/45_ctr_stream.md with the bounds of R6: the clamp, its value at least 1 for `L >= 1`, and the values the
rule lists. -/
def Obligations.ChunkSizeIsClamped : Prop :=
  (∀ L c : Nat, chunkSize Config.chunkMin Config.chunkMax L c = min L (max 4096 (min c 524288))) ∧
  (∀ L c : Nat, 1 ≤ L → 1 ≤ chunkSize Config.chunkMin Config.chunkMax L c) ∧
  chunkSize Config.chunkMin Config.chunkMax 10000 0 = 4096 ∧
  chunkSize Config.chunkMin Config.chunkMax 10000 5000 = 5000 ∧
  chunkSize Config.chunkMin Config.chunkMax 10000 0xFFFFFFFF = 10000 ∧
  chunkSize Config.chunkMin Config.chunkMax (2 ^ 20) 0xFFFFFFFF = 524288

/-! ### Stream commands -/

/-- R186 of spec/45_ctr_stream.md: where no precondition fails the stream is opened, the buffer's first `LEN` bytes are
zeroed and no other byte of it changes, and nothing else changes; else the first failing precondition's fault. -/
def Obligations.SopenOpensAStream : Prop :=
  ∀ (cap : Word) (s : State),
    (cap = Config.obufCap → exec .sopen s = sopen cap s) ∧
    (∀ c, openFault cap s = some c → sopen cap s = .next (faulted c s)) ∧
    (openFault cap s = none →
      ∃ t, sopen cap s = .next t ∧ (cap = Config.obufCap → exec .sopen s = .next t) ∧
        (∀ a : Nat, Memory.read t.obuf a = if a < s.len.toNat then 0x00#8 else Memory.read s.obuf a) ∧
        t = { s with
          olen := s.len, obuf := t.obuf, soff := 0#32, sshort := false, ctxv := true,
          ctx := { key := s.key, cb := s.ictr, ks := Vector.replicate 16 0x00#8, pos := 16 } })

/-- R187 and R184 of spec/45_ctr_stream.md: with a stream open and bytes left to ask for, one request; the bytes obtained
are transformed and stored at the stream offset, no other byte of the buffer changes, the offset moves on, `SSHORT` is
set on a short read; nothing asked or nothing left, nothing changes; without a stream the fault `E_NOCTX`. That nothing
changes with `SOFF` above `OLEN` too, which no run reaches, is the model's choice (log 15); the replies are the model's
(log 9). -/
def Obligations.SchunkRunsOneChunk : Prop :=
  ∀ s : State,
    (s.ctxv = false → exec .schunk s = .next (faulted .noCtx s)) ∧
    (s.ctxv = true → s.req = 0#32 ∨ s.olen ≤ s.soff → exec .schunk s = .next s) ∧
    ∀ d : List Byte, s.ctxv = true → Memory.wf s.obuf = true → s.req ≠ 0#32 → s.soff < s.olen →
      Answers s.src s.soff (min s.req.toNat (s.olen.toNat - s.soff.toNat)) d →
      ∃ t, exec .schunk s = .next t ∧
        (∀ a : Nat, Memory.read t.obuf a =
          if s.soff.toNat ≤ a ∧ a < s.soff.toNat + d.length then (ctrCrypt s.ctx d).1.getD (a - s.soff.toNat) 0x00#8
          else Memory.read s.obuf a) ∧
        t.soff.toNat = s.soff.toNat + d.length ∧
        t = { s with
          ctx := (ctrCrypt s.ctx d).2, obuf := t.obuf, soff := t.soff,
          sshort := s.sshort || decide (d.length < min s.req.toNat (s.olen.toNat - s.soff.toNat)),
          src := { s.src with replies := s.src.replies.tail },
          trace := s.trace ++
            [{ space := .src, off := s.soff, max := min s.req.toNat (s.olen.toNat - s.soff.toNat), n := some d.length }] }

/-- R247 of spec/70_reset_and_hazards.md and R183 of spec/45_ctr_stream.md: in a stream that runs under `k0` and `c0`,
`SCHUNK` stores at each offset the source byte of that offset xor the keystream byte of that offset. -/
def Obligations.SchunkDecryptsAtItsOffset : Prop :=
  ∀ (k0 c0 : Block) (s t : State) (d : List Byte), ContextRuns k0 c0 s → Memory.wf s.obuf = true →
    s.req ≠ 0#32 → s.soff < s.olen →
    Answers s.src s.soff (min s.req.toNat (s.olen.toNat - s.soff.toNat)) d → exec .schunk s = .next t →
    ∀ j : Nat, j < d.length →
      Memory.read t.obuf (s.soff.toNat + j) = d.getD j 0x00#8 ^^^ keystreamByte k0 c0 (s.soff.toNat + j)

/-- R188 of spec/45_ctr_stream.md: the context is discarded and nothing else changes; without one the fault `E_NOCTX`. -/
def Obligations.ScloseDiscardsTheContext : Prop :=
  ∀ s : State,
    (s.ctxv = true → exec .sclose s = .next { s with ctxv := false }) ∧
    (s.ctxv = false → exec .sclose s = .next (faulted .noCtx s))

/-- R189 and R192 of spec/45_ctr_stream.md: where no precondition fails and every request is answered within the contract,
`DSTREAM` ends with the bytes obtained decrypted at their offsets, the rest of the buffer's `LEN` bytes zero, no byte
beyond them changed, `SOFF` their number, `SSHORT` telling whether any is missing, no stream open, and the operands, key
and counter as they were. The bytes obtained are those of the scripted replies, then of the file (log 9). -/
def Obligations.DstreamDecryptsTheStream : Prop :=
  ∀ (cap : Word) (s : State),
    openFault cap s = none → Memory.wf s.obuf = true →
    streamAnswered (chunkSize Config.chunkMin Config.chunkMax s.len.toNat s.chunk.toNat) s.len.toNat s.src.replies = true →
    let got := streamBytes (chunkSize Config.chunkMin Config.chunkMax s.len.toNat s.chunk.toNat) s.src.data
      s.len.toNat 0 s.src.replies
    ∃ t, dstream cap Config.chunkMin Config.chunkMax s = .next t ∧ (cap = Config.obufCap → exec .dstream s = .next t) ∧
      got.length ≤ s.len.toNat ∧ t.soff.toNat = got.length ∧
      (∀ a : Nat, Memory.read t.obuf a =
        if a < got.length then got.getD a 0x00#8 ^^^ keystreamByte s.key s.ictr a
        else if a < s.len.toNat then 0x00#8 else Memory.read s.obuf a) ∧
      t.src.data = s.src.data ∧
      t = { s with
        olen := s.len, soff := t.soff, sshort := decide (got.length < s.len.toNat), ctxv := false,
        obuf := t.obuf, ctx := t.ctx, src := t.src, trace := t.trace }

/-- R194 of spec/45_ctr_stream.md: `DSTREAM` is the script `SOPEN`; then, while `SOFF < OLEN` and `SSHORT = 0`, `WR REQ` of
the chunk size and `SCHUNK`; then `SCLOSE`; on all state but `REQ`, the request trace included, also where a request is
never answered and the engine waits, and on every refusal. -/
def Obligations.DstreamEqualsItsScript : Prop :=
  (∀ s : State, exec .dstream s = dstream Config.obufCap Config.chunkMin Config.chunkMax s ∧
    exec .sopen s = sopen Config.obufCap s) ∧
  ∀ (cap : Word) (s : State) (n : Nat), openFault cap s = none → s.waiting = false → s.len.toNat ≤ n →
    dstream cap Config.chunkMin Config.chunkMax s =
      withReq s.req
        (streamScript cap (BitVec.ofNat 32 (chunkSize Config.chunkMin Config.chunkMax s.len.toNat s.chunk.toNat)) n s)

/-- R190 of spec/45_ctr_stream.md: under the reference environment the result of `DSTREAM` does not depend on `CHUNK`; only
the request trace differs. -/
def Obligations.DstreamIndependentOfChunk : Prop :=
  ∀ (cap : Word) (s : State) (c : Word), openFault cap s = none → Memory.wf s.obuf = true → s.src.replies = [] →
    ∃ t t', dstream cap Config.chunkMin Config.chunkMax s = .next t ∧
      dstream cap Config.chunkMin Config.chunkMax { s with chunk := c } = .next t' ∧
      t' = { t with chunk := c, trace := t'.trace }

/-- R190 of spec/45_ctr_stream.md: under the reference environment of R62 of spec/20_memory.md with at least `LEN` bytes,
which answers every request in full, `SOPEN`, any sequence of `SCHUNK`s that reaches the end, and `SCLOSE` give what
`DSTREAM` gives, but for `REQ` and the request trace. -/
def Obligations.HostChosenChunksGiveTheSameStream : Prop :=
  ∀ (cap : Word) (s a b : State) (qs : List Word), openFault cap s = none → Memory.wf s.obuf = true →
    s.src.replies = [] → s.len.toNat ≤ s.src.data.length →
    sopen cap s = .next a → chunksOf qs a = .next b → b.soff = b.olen →
    ∃ c t, exec .sclose b = .next c ∧ dstream cap Config.chunkMin Config.chunkMax s = .next t ∧
      t = { c with req := s.req, trace := t.trace }

/-- R191 of spec/45_ctr_stream.md: with `LEN = 0` no request is made, nothing is read or written, no stream stays open. -/
def Obligations.EmptyStreamReadsNothing : Prop :=
  ∀ (cap : Word) (s : State), openFault cap s = none → s.len = 0#32 →
    ∃ t, dstream cap Config.chunkMin Config.chunkMax s = .next t ∧ (cap = Config.obufCap → exec .dstream s = .next t) ∧
      (∀ a : Nat, Memory.read t.obuf a = Memory.read s.obuf a) ∧
      t = { s with olen := 0#32, soff := 0#32, sshort := false, ctxv := false, obuf := t.obuf, ctx := t.ctx }

/-- R189 of spec/45_ctr_stream.md and R249 of spec/70_reset_and_hazards.md: `DSTREAM` makes at most `ceil(LEN / chunk)`
requests, all to `SRC`, each for at most a chunk, one that is never answered among them. -/
def Obligations.DstreamRequestsAreBounded : Prop :=
  ∀ (cap : Word) (s t : State), openFault cap s = none →
    dstream cap Config.chunkMin Config.chunkMax s = .next t →
    let chunk := chunkSize Config.chunkMin Config.chunkMax s.len.toNat s.chunk.toNat
    ∃ made : List Request, t.trace = s.trace ++ made ∧ made.length ≤ (s.len.toNat + chunk - 1) / chunk ∧
      ∀ r ∈ made, r.space = .src ∧ 1 ≤ r.max ∧ r.max ≤ chunk

/-! ### Invariants -/

/-- R27(e) of spec/10_state.md, R64 of spec/20_memory.md, R192 of spec/45_ctr_stream.md: every step keeps the buffer's
canonical form, `SOFF <= OLEN <= OBUF_CAP`, no byte beyond the capacity, and zeros from `SOFF` to `OLEN`. -/
def Obligations.EveryStepKeepsTheBufferOk : Prop :=
  ∀ s t : State, BufferOk s → step s = .next t → BufferOk t

/-- R212 of spec/60_exceptions.md and R61 of spec/20_memory.md: every step keeps the fault record to the ten codes and the
trace to requests of at least one byte answered within their count; while the engine waits (R249 of
spec/70_reset_and_hazards.md) the last request is one without an answer. -/
def Obligations.EveryStepKeepsTheRecordsOk : Prop :=
  ∀ s t : State, step s = .next t → (FaultRecordOk s → FaultRecordOk t) ∧ (TraceOk s → TraceOk t)

/-- R27 of spec/10_state.md, R246 and R247 of spec/70_reset_and_hazards.md: while a stream stays open every step keeps its
key, its counter, its cursor and its keystream where the closed form puts them: never reset mid-stream. -/
def Obligations.EveryStepKeepsTheContextRunning : Prop :=
  ∀ (k0 c0 : Block) (s t : State), ContextRuns k0 c0 s → step s = .next t → t.ctxv = true →
    ContextRuns k0 c0 t ∧ s.soff ≤ t.soff ∧ t.olen = s.olen

/-- R27 of spec/10_state.md: the invariants of an open context hold after `SOPEN`, for the key and counter it copied. -/
def Obligations.OpenedContextRuns : Prop :=
  ∀ (cap : Word) (s t : State), openFault cap s = none → sopen cap s = .next t → ContextRuns s.key s.ictr t

/-- The invariants hold after reset (R40 of spec/10_state.md). The model's own choices, an empty trace and a buffer with
nothing listed (log 5, log 12), are part of it. -/
def Obligations.InvariantsHoldAtReset : Prop :=
  BufferOk State.reset ∧ FaultRecordOk State.reset ∧ TraceOk State.reset

/-! ### Faults and frames -/

/-- R212, R214 and R215 of spec/60_exceptions.md: the ten code numbers; a faulting command changes only the fault record,
by its first failing precondition; a command that faults nowhere leaves the record alone, `SRST` apart. -/
def Obligations.FaultingCommandChangesOnlyTheRecord : Prop :=
  [FaultCode.illCmd, .addr, .noTbl, .noGen, .noKey, .noCtx, .ctxLive, .range, .uninit, .own].map faultCode =
    [0x01#8, 0x02#8, 0x03#8, 0x04#8, 0x05#8, 0x06#8, 0x07#8, 0x08#8, 0x09#8, 0x0A#8] ∧
  (∀ (i : Instr) (s : State) (c : FaultCode), commandFault Config.obufCap s i = some c →
    exec i s = .next (faulted c s)) ∧
  (∀ (cap : Word) (s : State) (c : FaultCode), openFault cap s = some c →
    sopen cap s = .next (faulted c s) ∧ dstream cap Config.chunkMin Config.chunkMax s = .next (faulted c s)) ∧
  ∀ (i : Instr) (s t : State), i ≠ .srst → commandFault Config.obufCap s i = none → exec i s = .next t →
    t.err = s.err ∧ t.ecode = s.ecode

/-- R213 and R216 of spec/60_exceptions.md: once a fault is recorded every step that serves an access other than a reset
keeps `ERR` and the first code. -/
def Obligations.FaultRecordIsSticky : Prop :=
  ∀ (s t : State) (a : HostAccess) (rest : List HostAccess), s.err = true → Serves s a rest →
    a ≠ .hardReset → a ≠ .write 32 0x000 0x01000000#32 → step s = .next t → t.err = true ∧ t.ecode = s.ecode

/-- Who writes what (R21 to R31 of spec/10_state.md, R60 and R63 of spec/20_memory.md): a command other than `SRST` changes
only the elements of its own unit; in particular no command writes an operand register, and none writes what the host
will do or a source's bytes. -/
def Obligations.CommandsWriteOnlyTheirState : Prop :=
  ∀ (i : Instr) (s t : State), i ≠ .srst → exec i s = .next t →
    (t.hoff = s.hoff ∧ t.seed = s.seed ∧ t.len = s.len ∧ t.chunk = s.chunk ∧ t.req = s.req) ∧
    (t.host = s.host ∧ t.hdr.data = s.hdr.data ∧ t.src.data = s.src.data ∧ (t.ret = s.ret ∨ t.waiting = true)) ∧
    (i ∉ [.tinit, .tload, .kcder] →
      t.tbl = s.tbl ∧ t.tgot = s.tgot ∧ t.tshort = s.tshort ∧ t.tblv = s.tblv) ∧
    (i ∉ [.gnext32, .gnext64] → t.gout = s.gout) ∧
    ((∀ idx dst, i ≠ .kmder idx dst) → i ∉ [.gseed, .gnext32, .gnext64, .kcder] → t.g = s.g ∧ t.gv = s.gv) ∧
    ((∀ idx, i ≠ .kmder idx .key) → i ≠ .kcder → t.key = s.key ∧ t.keyv = s.keyv) ∧
    ((∀ idx, i ≠ .kmder idx .ictr) → i ≠ .kcder → t.ictr = s.ictr ∧ t.ictrv = s.ictrv) ∧
    (i ∉ [.sopen, .schunk, .dstream] →
      t.ctx = s.ctx ∧ t.obuf = s.obuf ∧ t.soff = s.soff ∧ t.olen = s.olen ∧ t.sshort = s.sshort) ∧
    (i ∉ [.sopen, .sclose, .dstream] → t.ctxv = s.ctxv) ∧
    (i ∉ [.tload, .kcder] → t.hdr = s.hdr) ∧
    (i ∉ [.schunk, .dstream] → t.src = s.src) ∧
    (i ∉ [.tload, .kcder, .schunk, .dstream] → t.trace = s.trace ∧ t.waiting = s.waiting ∧ t.ret = s.ret)

/-- R69 of spec/20_memory.md and R246 of spec/70_reset_and_hazards.md: a read changes nothing but what it returns and, where
it faults, the fault record; a register write that is no command leaves the open stream, the buffer, the generator, the
result registers, the flags and the sources alone. -/
def Obligations.HostAccessesLeaveTheRest : Prop :=
  (∀ (s t : State) (a : HostAccess) (rest : List HostAccess), Serves s a rest →
    ((∃ width off, a = .read width off) ∨ ∃ o, a = .readOut o) → step s = .next t →
    t = { s with host := rest, ret := t.ret, err := t.err, ecode := t.ecode }) ∧
  ∀ (s t : State) (width off : Nat) (v : Word) (rest : List HostAccess), Serves s (.write width off v) rest →
    off ≠ 0x000 → step s = .next t →
    t = { s with
      host := rest, ret := .done, err := t.err, ecode := t.ecode, hoff := t.hoff, seed := t.seed, len := t.len,
      chunk := t.chunk, req := t.req, key := t.key, keyv := t.keyv, ictr := t.ictr, ictrv := t.ictrv, tbl := t.tbl }

/-- R249 of spec/70_reset_and_hazards.md: a command whose every request is answered within the contract completes, and so
does the step that serves it or any other access; under the reference environment of R62 of spec/20_memory.md every step
completes. -/
def Obligations.AnsweredEngineNeverStops : Prop :=
  (∀ (i : Instr) (s : State), Answered Config.obufCap s i →
    ∃ t, exec i s = .next t ∧ (s.waiting = false → t.waiting = false)) ∧
  (∀ s : State, s.waiting = false →
    (∀ (w : Word) (i : Instr) (rest : List HostAccess), s.host = .write 32 0x000 w :: rest → decode w = .ok i →
      Answered Config.obufCap s i) →
    ∃ t, step s = .next t ∧ t.waiting = false) ∧
  ∀ s : State, s.waiting = false → s.hdr.replies = [] → s.src.replies = [] →
    ∃ t, step s = .next t ∧ t.waiting = false ∧ t.hdr.replies = [] ∧ t.src.replies = []

/-- R241 of spec/70_reset_and_hazards.md, U7, U8 and U12 of spec/93_implementation_defined.md: what the invalid elements
contain cannot be observed: two states that differ only there step to states that differ only there, with the same
answers to the host, the same requests and the same stops. -/
def Obligations.UnobservableContentsStayUnobservable : Prop :=
  ∀ s t : State, Indistinct s t → IndistinctOutcomes (step s) (step t)

/-! ### Host accesses: `Serves s a rest` says that the engine waits for no answer and takes the access `a` next -/

/-- R68 of spec/20_memory.md: an access of another width, misaligned, out of range or unmapped, a write to a read-only
register, and a read of `CMD` fault `E_ADDR` and change nothing else; such a read returns 0. -/
def Obligations.WrongRegisterAccessFaults : Prop :=
  ∀ (s : State) (width off : Nat) (rest : List HostAccess),
    (width ≠ 32 ∨ off % 4 ≠ 0 ∨ 0x400 ≤ off ∨ (0x064 ≤ off ∧ off < 0x200) ∨ off = 0x000 →
      Serves s (.read width off) rest →
      step s = .next (faulted .addr { s with host := rest, ret := .word 0#32 })) ∧
    ∀ v : Word,
      width ≠ 32 ∨ off % 4 ≠ 0 ∨ 0x400 ≤ off ∨ (0x050 ≤ off ∧ off < 0x200) ∨
        off ∈ [0x004, 0x00C, 0x014, 0x018, 0x028, 0x02C] →
      Serves s (.write width off v) rest → step s = .next (faulted .addr { s with host := rest, ret := .done })

/-- R34 of spec/10_state.md, R113 and R114 of spec/40_control.md: a write to an operand register sets exactly that register,
to any value; a read of an operand register, a result register or a half of `GOUT` returns its content; a write directly
followed by a read returns the value written. -/
def Obligations.RegistersReadBack : Prop :=
  (∀ (s : State) (v : Word) (rest : List HostAccess),
    (Serves s (.write 32 0x008 v) rest → step s = .next { s with hoff := v, host := rest, ret := .done }) ∧
    (Serves s (.write 32 0x010 v) rest → step s = .next { s with seed := v, host := rest, ret := .done }) ∧
    (Serves s (.write 32 0x01C v) rest → step s = .next { s with len := v, host := rest, ret := .done }) ∧
    (Serves s (.write 32 0x020 v) rest → step s = .next { s with chunk := v, host := rest, ret := .done }) ∧
    (Serves s (.write 32 0x024 v) rest → step s = .next { s with req := v, host := rest, ret := .done })) ∧
  (∀ (s : State) (rest : List HostAccess),
    (Serves s (.read 32 0x008) rest → step s = .next { s with host := rest, ret := .word s.hoff }) ∧
    (Serves s (.read 32 0x010) rest → step s = .next { s with host := rest, ret := .word s.seed }) ∧
    (Serves s (.read 32 0x01C) rest → step s = .next { s with host := rest, ret := .word s.len }) ∧
    (Serves s (.read 32 0x020) rest → step s = .next { s with host := rest, ret := .word s.chunk }) ∧
    (Serves s (.read 32 0x024) rest → step s = .next { s with host := rest, ret := .word s.req }) ∧
    (Serves s (.read 32 0x00C) rest → step s = .next { s with host := rest, ret := .word s.tgot }) ∧
    (Serves s (.read 32 0x028) rest → step s = .next { s with host := rest, ret := .word s.soff }) ∧
    (Serves s (.read 32 0x02C) rest → step s = .next { s with host := rest, ret := .word s.olen }) ∧
    (Serves s (.read 32 0x014) rest → step s = .next { s with host := rest, ret := .word (s.gout.setWidth 32) }) ∧
    (Serves s (.read 32 0x018) rest → step s = .next { s with host := rest, ret := .word ((s.gout >>> 32).setWidth 32) })) ∧
  ∀ (s : State) (v : Word) (off : Nat) (rest : List HostAccess), off ∈ [0x008, 0x010, 0x01C, 0x020, 0x024] →
    Serves s (.write 32 off v) (.read 32 off :: rest) →
    ∃ t u, step s = .next t ∧ step t = .next u ∧ u.ret = .word v ∧ u.host = rest ∧ u.err = s.err ∧ u.ecode = s.ecode

/-- R35 of spec/10_state.md: every bit of the word a read of `STATUS` returns; the read changes nothing. -/
def Obligations.StatusShowsTheFlags : Prop :=
  ∀ (s : State) (rest : List HostAccess), Serves s (.read 32 0x004) rest →
    ∃ v : Word, step s = .next { s with host := rest, ret := .word v } ∧
      v.getLsbD 0 = s.tblv ∧ v.getLsbD 1 = s.gv ∧ v.getLsbD 2 = s.ctxv ∧ v.getLsbD 3 = s.tshort ∧
      v.getLsbD 4 = s.sshort ∧ v.getLsbD 5 = s.err ∧ v.extractLsb' 6 2 = 0#2 ∧ v.extractLsb' 8 4 = s.keyv ∧
      v.extractLsb' 12 4 = s.ictrv ∧ v.extractLsb' 16 8 = s.ecode ∧ v.extractLsb' 24 8 = 0#8

/-- R37 of spec/10_state.md: a write to `KEYn` or `ICTRn` sets its four bytes, byte `4n` from bits 7:0, and its valid bit,
and nothing else; a read with the valid bit set returns the word of those bytes, and else faults `E_UNINIT` and
returns 0. -/
def Obligations.KeyAndCounterWords : Prop :=
  ∀ (s : State) (n : Fin 4) (rest : List HostAccess),
    (∀ v : Word, Serves s (.write 32 (0x030 + 4 * n.val) v) rest →
      ∃ t, step s = .next t ∧
        (∀ j : Fin 16, t.key[j] = if j.val / 4 = n.val then (v >>> (8 * (j.val % 4))).setWidth 8 else s.key[j]) ∧
        (∀ m : Fin 4, t.keyv.getLsbD m.val = (decide (m = n) || s.keyv.getLsbD m.val)) ∧
        t = { s with key := t.key, keyv := t.keyv, host := rest, ret := .done }) ∧
    (∀ v : Word, Serves s (.write 32 (0x040 + 4 * n.val) v) rest →
      ∃ t, step s = .next t ∧
        (∀ j : Fin 16, t.ictr[j] = if j.val / 4 = n.val then (v >>> (8 * (j.val % 4))).setWidth 8 else s.ictr[j]) ∧
        (∀ m : Fin 4, t.ictrv.getLsbD m.val = (decide (m = n) || s.ictrv.getLsbD m.val)) ∧
        t = { s with ictr := t.ictr, ictrv := t.ictrv, host := rest, ret := .done }) ∧
    (Serves s (.read 32 (0x030 + 4 * n.val)) rest →
      (s.keyv.getLsbD n.val = true → step s = .next { s with
        host := rest,
        ret := .word (s.key[4 * n.val + 3] ++ s.key[4 * n.val + 2] ++ s.key[4 * n.val + 1] ++ s.key[4 * n.val]) }) ∧
      (s.keyv.getLsbD n.val = false → step s = .next (faulted .uninit { s with host := rest, ret := .word 0#32 }))) ∧
    (Serves s (.read 32 (0x040 + 4 * n.val)) rest →
      (s.ictrv.getLsbD n.val = true → step s = .next { s with
        host := rest,
        ret := .word (s.ictr[4 * n.val + 3] ++ s.ictr[4 * n.val + 2] ++ s.ictr[4 * n.val + 1] ++ s.ictr[4 * n.val]) }) ∧
      (s.ictrv.getLsbD n.val = false → step s = .next (faulted .uninit { s with host := rest, ret := .word 0#32 })))

/-- R38 of spec/10_state.md: `CBn` and `CPOS` show the open context; without one a read faults `E_NOCTX` and returns 0;
a write faults `E_ADDR`. -/
def Obligations.ContextView : Prop :=
  ∀ (s : State) (rest : List HostAccess),
    (∀ n : Fin 4, Serves s (.read 32 (0x050 + 4 * n.val)) rest →
      (s.ctxv = true → step s = .next { s with
        host := rest,
        ret := .word (s.ctx.cb[4 * n.val + 3] ++ s.ctx.cb[4 * n.val + 2] ++ s.ctx.cb[4 * n.val + 1] ++ s.ctx.cb[4 * n.val]) }) ∧
      (s.ctxv = false → step s = .next (faulted .noCtx { s with host := rest, ret := .word 0#32 }))) ∧
    (Serves s (.read 32 0x060) rest →
      (s.ctxv = true → step s = .next { s with host := rest, ret := .word (BitVec.ofNat 32 s.ctx.pos.val) }) ∧
      (s.ctxv = false → step s = .next (faulted .noCtx { s with host := rest, ret := .word 0#32 }))) ∧
    ∀ (v : Word) (off : Nat), 0x050 ≤ off → off ≤ 0x060 → Serves s (.write 32 off v) rest →
      step s = .next (faulted .addr { s with host := rest, ret := .done })

/-- R39 of spec/10_state.md: the table window reads and writes word `i` while there is a table; else either access faults
`E_NOTBL`, the read returns 0 and the write changes nothing. -/
def Obligations.TableWindow : Prop :=
  ∀ (s : State) (i : Fin 128) (rest : List HostAccess),
    (Serves s (.read 32 (0x200 + 4 * i.val)) rest →
      (s.tblv = true → step s = .next { s with host := rest, ret := .word s.tbl[i] }) ∧
      (s.tblv = false → step s = .next (faulted .noTbl { s with host := rest, ret := .word 0#32 }))) ∧
    ∀ v : Word, Serves s (.write 32 (0x200 + 4 * i.val) v) rest →
      (s.tblv = true → ∃ t, step s = .next t ∧ (∀ j : Fin 128, t.tbl[j] = if j = i then v else s.tbl[j]) ∧
        t = { s with tbl := t.tbl, host := rest, ret := .done }) ∧
      (s.tblv = false → step s = .next (faulted .noTbl { s with host := rest, ret := .done }))

/-- R65 of spec/20_memory.md: the checks of an output buffer read in their order, and its value. -/
def Obligations.OutputBufferReads : Prop :=
  ∀ (s : State) (o : Word) (rest : List HostAccess), Serves s (.readOut o) rest →
    step s =
      if s.ctxv = true then .next (faulted .own { s with host := rest, ret := .byte 0x00#8 })
      else if s.olen ≤ o then .next (faulted .addr { s with host := rest, ret := .byte 0x00#8 })
      else .next { s with host := rest, ret := .byte (Memory.read s.obuf o.toNat) }

/-- R98 of spec/30_encoding.md: the steps of `LDKEY`, `LDICTR` and `LDTBL` leave the sixteen bytes or the 128 words they
name, valid, and nothing else but the flags of `TINIT`. -/
def Obligations.ScriptsLoadTheirValues : Prop :=
  ∀ (s : State) (rest : List HostAccess),
    (∀ b : Block, s.waiting = false → s.host = assemble (.ldKey b) ++ rest →
      Host.Core.run Sys2Proof.core 4 s = .next { s with key := b, keyv := 0b1111#4, host := rest, ret := .done }) ∧
    (∀ b : Block, s.waiting = false → s.host = assemble (.ldIctr b) ++ rest →
      Host.Core.run Sys2Proof.core 4 s = .next { s with ictr := b, ictrv := 0b1111#4, host := rest, ret := .done }) ∧
    ∀ t : Table, s.waiting = false → s.host = assemble (.ldTbl t) ++ rest →
      Host.Core.run Sys2Proof.core 129 s =
        .next { s with tbl := t, tblv := true, tgot := 0#32, tshort := false, host := rest, ret := .done }
end

