-- ==== Sys2Proof/Laws/Bytes.lean ====
section
/-! SUPPORT. Laws of the byte orders: the big-endian reading of a block and its inverse, little-endian words and their
bytes, and the packing of a 16-byte register. -/

namespace Sys2Proof.Machine

/-- Bits of the value a list of bytes shifts into. -/
theorem shiftIn_getLsbD (l : List Byte) (i : Nat) (hi : i < 8 * l.length) (hl : 8 * l.length ≤ 128) :
    (l.foldl shiftIn 0#128).getLsbD i =
      (l[l.length - 1 - i / 8]'(by omega)).getLsbD (i % 8) := by
  induction l using List.reverseRecOn generalizing i with
  | nil => simp at hi
  | append_singleton l x ih =>
    simp only [List.length_append, List.length_singleton] at hi hl ⊢
    rw [List.foldl_append]
    simp only [List.foldl_cons, List.foldl_nil, shiftIn, BitVec.getLsbD_or, BitVec.getLsbD_shiftLeft, BitVec.getLsbD_setWidth]
    by_cases h8 : i < 8
    · have e : l.length + 1 - 1 - i / 8 = l.length := by omega
      have hi128 : i < 128 := by omega
      simp only [e, List.getElem_concat_length, Nat.mod_eq_of_lt h8]
      simp [h8, hi128]
    · have hx : x.getLsbD i = false := BitVec.getLsbD_of_ge _ _ (by omega)
      rw [ih (i - 8) (by omega) (by omega)]
      have e : l.length + 1 - 1 - i / 8 = l.length - 1 - (i - 8) / 8 := by omega
      have e2 : (i - 8) % 8 = i % 8 := by omega
      simp only [e, e2, hx]
      rw [List.getElem_append_left (by omega)]
      simp [h8]; omega

theorem be128_getLsbD (b : Block) (i : Nat) (hi : i < 128) :
    (be128 b).getLsbD i = (b[15 - i / 8]'(by omega)).getLsbD (i % 8) := by
  unfold be128
  rw [shiftIn_getLsbD _ _ (by simpa using hi) (by simp)]
  simp

theorem bytes128_be128 (b : Block) : bytes128 (be128 b) = b := by
  ext j hj k hk
  simp only [bytes128, Vector.getElem_ofFn, BitVec.getElem_extractLsb']
  rw [be128_getLsbD _ _ (by omega)]
  have e : 15 - (8 * (15 - j) + k) / 8 = j := by omega
  have e2 : (8 * (15 - j) + k) % 8 = k := by omega
  simp only [e, e2, BitVec.getLsbD_eq_getElem, hk]

theorem be128_bytes128 (v : BitVec 128) : be128 (bytes128 v) = v := by
  apply BitVec.eq_of_getLsbD_eq
  intro i hi
  rw [be128_getLsbD _ _ hi]
  simp only [bytes128, Vector.getElem_ofFn, BitVec.getLsbD_extractLsb']
  have e : 8 * (15 - (15 - i / 8)) + i % 8 = i := by omega
  rw [e]
  simp; omega

theorem le32_getLsbD (b0 b1 b2 b3 : Byte) (i : Nat) :
    (le32 b0 b1 b2 b3).getLsbD i =
      if i < 8 then b0.getLsbD i
      else if i < 16 then b1.getLsbD (i - 8)
      else if i < 24 then b2.getLsbD (i - 16)
      else b3.getLsbD (i - 24) := by
  unfold le32
  rw [BitVec.getLsbD_append, BitVec.getLsbD_append, BitVec.getLsbD_append]
  split_ifs <;> first | omega | rfl

theorem le32_wordByte (v : Word) : le32 (wordByte v 0) (wordByte v 1) (wordByte v 2) (wordByte v 3) = v := by
  apply BitVec.eq_of_getLsbD_eq
  intro i hi
  rw [le32_getLsbD]
  simp only [wordByte, BitVec.getLsbD_extractLsb']
  split_ifs with h1 h2 h3
  · simp [h1]
  · rw [show 8 * 1 + (i - 8) = i by omega, decide_eq_true (by omega : i - 8 < 8), Bool.true_and]
  · rw [show 8 * 2 + (i - 16) = i by omega, decide_eq_true (by omega : i - 16 < 8), Bool.true_and]
  · rw [show 8 * 3 + (i - 24) = i by omega, decide_eq_true (by omega : i - 24 < 8), Bool.true_and]

theorem wordByte_le32 (b0 b1 b2 b3 : Byte) (k : Nat) (hk : k < 4) :
    wordByte (le32 b0 b1 b2 b3) k = #v[b0, b1, b2, b3][k] := by
  apply BitVec.eq_of_getLsbD_eq
  intro i hi
  simp only [wordByte, BitVec.getLsbD_extractLsb', le32_getLsbD, hi, decide_true, Bool.true_and]
  interval_cases k <;> split_ifs <;> first | omega | (show BitVec.getLsbD _ _ = BitVec.getLsbD _ _; congr 1; omega)

theorem blockWord_setBlockWord (b : Block) (n m : Fin 4) (v : Word) :
    blockWord (setBlockWord b n v) m = if m = n then v else blockWord b m := by
  unfold blockWord setBlockWord
  simp only [Vector.getElem_ofFn]
  have e0 : 4 * m.val / 4 = m.val := by omega
  have e1 : (4 * m.val + 1) / 4 = m.val := by omega
  have e2 : (4 * m.val + 2) / 4 = m.val := by omega
  have e3 : (4 * m.val + 3) / 4 = m.val := by omega
  have f0 : 4 * m.val % 4 = 0 := by omega
  have f1 : (4 * m.val + 1) % 4 = 1 := by omega
  have f2 : (4 * m.val + 2) % 4 = 2 := by omega
  have f3 : (4 * m.val + 3) % 4 = 3 := by omega
  simp only [e0, e1, e2, e3, f0, f1, f2, f3]
  by_cases h : m = n
  · subst h; simp [le32_wordByte]
  · have : m.val ≠ n.val := fun e => h (Fin.ext e)
    simp [h, this]

theorem block_ext_words (a b : Block) (h : ∀ n : Fin 4, blockWord a n = blockWord b n) : a = b := by
  ext j hj : 1
  have hw := h ⟨j / 4, by omega⟩
  have := congrArg (fun w => wordByte w (j % 4)) hw
  simp only [blockWord] at this
  rw [wordByte_le32 _ _ _ _ _ (by omega), wordByte_le32 _ _ _ _ _ (by omega)] at this
  interval_cases j <;> simpa using this
end Sys2Proof.Machine
end

