-- ==== Sys2Proof/Laws/Memory.lean ====
section
/-! SUPPORT. Laws of the output buffer's memory: every operation keeps the canonical form, what a byte reads as after each,
and that canonical lists with equal contents are equal. -/

namespace Sys2Proof.Machine

theorem wfFrom_cons (lo : Nat) (c : Host.Cell) (rest : List Host.Cell) :
    Memory.wfFrom lo (c :: rest) = true ↔ lo ≤ c.1 ∧ c.2 ≠ Memory.unlisted ∧ Memory.wfFrom (c.1 + 1) rest = true := by
  simp [Memory.wfFrom, and_assoc]

theorem wfFrom_mono {lo lo' : Nat} {m : List Host.Cell} (h : Memory.wfFrom lo m = true) (hl : lo' ≤ lo) :
    Memory.wfFrom lo' m = true := by
  cases m with
  | nil => rfl
  | cons c rest => rw [wfFrom_cons] at h ⊢; exact ⟨by omega, h.2⟩

theorem read_below {lo : Nat} {m : List Host.Cell} (h : Memory.wfFrom lo m = true) {a : Nat} (ha : a < lo) :
    Memory.read m a = Memory.unlisted := by
  induction m generalizing lo with
  | nil => rfl
  | cons c rest ih =>
    rw [wfFrom_cons] at h
    rw [Memory.read, if_neg (by omega), ih h.2.2 (by omega)]

theorem wfFrom_write {lo : Nat} {m : List Host.Cell} (h : Memory.wfFrom lo m = true) {a : Nat} (ha : lo ≤ a) (b : Byte) :
    Memory.wfFrom lo (Memory.write m a b) = true := by
  induction m generalizing lo with
  | nil => by_cases hb : b = Memory.unlisted <;> simp [Memory.write, hb, ha, Memory.wfFrom]
  | cons c rest ih =>
    obtain ⟨hc, hne, hr⟩ := (wfFrom_cons ..).1 h
    by_cases h1 : c.1 < a
    · simp only [Memory.write, h1, if_true]
      exact (wfFrom_cons ..).2 ⟨hc, hne, ih hr (by omega)⟩
    · by_cases h2 : c.1 = a
      · by_cases hb : b = Memory.unlisted
        · simp only [Memory.write, h2, hb, if_true, if_false, lt_irrefl]
          exact wfFrom_mono hr (by omega)
        · simp only [Memory.write, h2, hb, if_true, if_false, lt_irrefl]
          exact (wfFrom_cons ..).2 ⟨ha, hb, h2 ▸ hr⟩
      · by_cases hb : b = Memory.unlisted
        · simp only [Memory.write, h1, h2, hb, if_true, if_false]; exact h
        · simp only [Memory.write, h1, h2, hb, if_false]
          exact (wfFrom_cons ..).2 ⟨ha, hb, (wfFrom_cons ..).2 ⟨by simp; omega, hne, hr⟩⟩

theorem read_write {lo : Nat} {m : List Host.Cell} (h : Memory.wfFrom lo m = true) (a : Nat) (b : Byte) (x : Nat) :
    Memory.read (Memory.write m a b) x = if x = a then b else Memory.read m x := by
  induction m generalizing lo with
  | nil =>
    by_cases hb : b = Memory.unlisted <;> by_cases hx : x = a <;>
      simp [Memory.write, Memory.read, hb, hx]
    intro e; exact absurd e.symm hx
  | cons c rest ih =>
    obtain ⟨hc, hne, hr⟩ := (wfFrom_cons ..).1 h
    by_cases h1 : c.1 < a
    · simp only [Memory.write, h1, if_true, Memory.read, ih hr]
      split_ifs <;> first | rfl | omega
    · by_cases h2 : c.1 = a
      · by_cases hb : b = Memory.unlisted
        · simp only [Memory.write, h2, hb, if_true, if_false, lt_irrefl, Memory.read]
          split_ifs with h3 h4
          · exact read_below hr (by omega)
          · omega
          · rfl
        · simp only [Memory.write, h2, hb, if_true, if_false, lt_irrefl, Memory.read]
          split_ifs <;> first | rfl | omega
      · by_cases hb : b = Memory.unlisted
        · simp only [Memory.write, h1, h2, hb, if_true, if_false, Memory.read]
          by_cases h3 : x = a
          · simp only [h3, if_true, if_neg h2]; exact read_below hr (by omega)
          · simp [h3]
        · simp only [Memory.write, h1, h2, hb, if_false, Memory.read]
          split_ifs <;> first | rfl | omega

theorem wf_write {m : List Host.Cell} (h : Memory.wf m = true) (a : Nat) (b : Byte) :
    Memory.wf (Memory.write m a b) = true := wfFrom_write h (Nat.zero_le a) b

theorem wf_writeBytes {m : List Host.Cell} (h : Memory.wf m = true) (a : Nat) (d : List Byte) :
    Memory.wf (Memory.writeBytes m a d) = true := by
  induction d generalizing m a with
  | nil => exact h
  | cons b rest ih => exact ih (wf_write h a b) (a + 1)

/-- What a byte of the buffer reads as once `d` is stored from `a` on. -/
theorem read_writeBytes {m : List Host.Cell} (h : Memory.wf m = true) (a : Nat) (d : List Byte) (x : Nat) :
    Memory.read (Memory.writeBytes m a d) x =
      if a ≤ x ∧ x < a + d.length then d.getD (x - a) 0#8 else Memory.read m x := by
  induction d generalizing m a with
  | nil => rw [if_neg (by simp)]; rfl
  | cons b rest ih =>
    rw [Memory.writeBytes, ih (wf_write h a b), read_write (lo := 0) h]
    simp only [List.length_cons]
    by_cases hx : x = a
    · subst hx
      rw [if_neg (by omega), if_pos rfl, if_pos (by omega)]; simp
    · simp only [if_neg hx]
      by_cases hin : a + 1 ≤ x ∧ x < a + 1 + rest.length
      · rw [if_pos hin, if_pos (by omega), show x - a = (x - (a + 1)) + 1 by omega]; simp
      · rw [if_neg hin, if_neg (by omega)]

theorem wfFrom_zeroFill {lo : Nat} {m : List Host.Cell} (h : Memory.wfFrom lo m = true) (n : Nat) :
    Memory.wfFrom lo (Memory.zeroFill n m) = true := by
  induction m generalizing lo with
  | nil => rfl
  | cons c rest ih =>
    obtain ⟨hc, hne, hr⟩ := (wfFrom_cons ..).1 h
    by_cases hn : n ≤ c.1
    · rw [Memory.zeroFill, List.filter_cons_of_pos (by simpa using hn)]
      exact (wfFrom_cons ..).2 ⟨hc, hne, ih hr⟩
    · rw [Memory.zeroFill, List.filter_cons_of_neg (by simpa using hn)]
      exact wfFrom_mono (ih hr) (by omega)

theorem wf_zeroFill {m : List Host.Cell} (h : Memory.wf m = true) (n : Nat) :
    Memory.wf (Memory.zeroFill n m) = true := wfFrom_zeroFill h n

/-- The zero fill clears the bytes below `n` and leaves every other byte. -/
theorem read_zeroFill (m : List Host.Cell) (n x : Nat) :
    Memory.read (Memory.zeroFill n m) x = if x < n then 0x00#8 else Memory.read m x := by
  induction m with
  | nil => simp [Memory.zeroFill, Memory.read, Memory.unlisted]
  | cons c rest ih =>
    by_cases hn : n ≤ c.1
    · rw [Memory.zeroFill, List.filter_cons_of_pos (by simpa using hn), ← Memory.zeroFill, Memory.read, Memory.read, ih]
      split_ifs <;> first | rfl | omega
    · rw [Memory.zeroFill, List.filter_cons_of_neg (by simpa using hn), ← Memory.zeroFill, ih, Memory.read]
      split_ifs <;> first | rfl | omega

/-- Equal contents are equal data. -/
theorem memory_ext {lo : Nat} {m m' : List Host.Cell} (h : Memory.wfFrom lo m = true) (h' : Memory.wfFrom lo m' = true)
    (e : ∀ a, Memory.read m a = Memory.read m' a) : m = m' := by
  induction m generalizing lo m' with
  | nil =>
    cases m' with
    | nil => rfl
    | cons c' rest' =>
      have := e c'.1
      simp only [Memory.read, if_true] at this
      exact absurd this.symm ((wfFrom_cons ..).1 h').2.1
  | cons c rest ih =>
    obtain ⟨hc, hne, hr⟩ := (wfFrom_cons ..).1 h
    cases m' with
    | nil => have := e c.1; simp only [Memory.read, if_true] at this; exact absurd this hne
    | cons c' rest' =>
      obtain ⟨hc', hne', hr'⟩ := (wfFrom_cons ..).1 h'
      have e1 := e c.1
      have e2 := e c'.1
      simp only [Memory.read, if_true] at e1 e2
      have ha : c.1 = c'.1 := by
        by_contra hx
        rcases Nat.lt_or_gt_of_ne hx with hlt | hlt
        · rw [if_neg (by omega), read_below hr' (by omega)] at e1; exact hne e1
        · rw [if_neg (by omega), read_below hr (by omega)] at e2; exact hne' e2.symm
      rw [if_pos ha.symm] at e1
      have hcc : c = c' := Prod.ext ha e1
      subst hcc
      congr 1
      refine ih hr hr' fun a => ?_
      by_cases hx : c.1 = a
      · rw [read_below hr (by omega), read_below hr' (by omega)]
      · have := e a; simpa [Memory.read, hx] using this
end Sys2Proof.Machine
end

