-- ==== Sys2Proof/Laws/State.lean ====
section
/-! SUPPORT. What each named update of the state leaves in each field, one lemma a field, true by unfolding: later proofs
need not unfold a record update. -/

namespace Sys2Proof.Machine


@[simp] theorem recordFault_tbl (c : FaultCode) (s : State) : (recordFault c s).tbl = s.tbl := rfl
@[simp] theorem recordFault_tblv (c : FaultCode) (s : State) : (recordFault c s).tblv = s.tblv := rfl
@[simp] theorem recordFault_g (c : FaultCode) (s : State) : (recordFault c s).g = s.g := rfl
@[simp] theorem recordFault_gv (c : FaultCode) (s : State) : (recordFault c s).gv = s.gv := rfl
@[simp] theorem recordFault_gout (c : FaultCode) (s : State) : (recordFault c s).gout = s.gout := rfl
@[simp] theorem recordFault_key (c : FaultCode) (s : State) : (recordFault c s).key = s.key := rfl
@[simp] theorem recordFault_keyv (c : FaultCode) (s : State) : (recordFault c s).keyv = s.keyv := rfl
@[simp] theorem recordFault_ictr (c : FaultCode) (s : State) : (recordFault c s).ictr = s.ictr := rfl
@[simp] theorem recordFault_ictrv (c : FaultCode) (s : State) : (recordFault c s).ictrv = s.ictrv := rfl
@[simp] theorem recordFault_ctx (c : FaultCode) (s : State) : (recordFault c s).ctx = s.ctx := rfl
@[simp] theorem recordFault_ctxv (c : FaultCode) (s : State) : (recordFault c s).ctxv = s.ctxv := rfl
@[simp] theorem recordFault_hoff (c : FaultCode) (s : State) : (recordFault c s).hoff = s.hoff := rfl
@[simp] theorem recordFault_seed (c : FaultCode) (s : State) : (recordFault c s).seed = s.seed := rfl
@[simp] theorem recordFault_len (c : FaultCode) (s : State) : (recordFault c s).len = s.len := rfl
@[simp] theorem recordFault_chunk (c : FaultCode) (s : State) : (recordFault c s).chunk = s.chunk := rfl
@[simp] theorem recordFault_req (c : FaultCode) (s : State) : (recordFault c s).req = s.req := rfl
@[simp] theorem recordFault_tgot (c : FaultCode) (s : State) : (recordFault c s).tgot = s.tgot := rfl
@[simp] theorem recordFault_soff (c : FaultCode) (s : State) : (recordFault c s).soff = s.soff := rfl
@[simp] theorem recordFault_olen (c : FaultCode) (s : State) : (recordFault c s).olen = s.olen := rfl
@[simp] theorem recordFault_obuf (c : FaultCode) (s : State) : (recordFault c s).obuf = s.obuf := rfl
@[simp] theorem recordFault_tshort (c : FaultCode) (s : State) : (recordFault c s).tshort = s.tshort := rfl
@[simp] theorem recordFault_sshort (c : FaultCode) (s : State) : (recordFault c s).sshort = s.sshort := rfl
@[simp] theorem recordFault_err (c : FaultCode) (s : State) : (recordFault c s).err = true := rfl
@[simp] theorem recordFault_ecode (c : FaultCode) (s : State) : (recordFault c s).ecode = if s.err then s.ecode else faultCode c := rfl
@[simp] theorem recordFault_hdr (c : FaultCode) (s : State) : (recordFault c s).hdr = s.hdr := rfl
@[simp] theorem recordFault_src (c : FaultCode) (s : State) : (recordFault c s).src = s.src := rfl
@[simp] theorem recordFault_trace (c : FaultCode) (s : State) : (recordFault c s).trace = s.trace := rfl
@[simp] theorem recordFault_host (c : FaultCode) (s : State) : (recordFault c s).host = s.host := rfl
@[simp] theorem recordFault_ret (c : FaultCode) (s : State) : (recordFault c s).ret = s.ret := rfl
@[simp] theorem recordFault_waiting (c : FaultCode) (s : State) : (recordFault c s).waiting = s.waiting := rfl

@[simp] theorem takeAccess_tbl (rest : List HostAccess) (s : State) : (takeAccess rest s).tbl = s.tbl := rfl
@[simp] theorem takeAccess_tblv (rest : List HostAccess) (s : State) : (takeAccess rest s).tblv = s.tblv := rfl
@[simp] theorem takeAccess_g (rest : List HostAccess) (s : State) : (takeAccess rest s).g = s.g := rfl
@[simp] theorem takeAccess_gv (rest : List HostAccess) (s : State) : (takeAccess rest s).gv = s.gv := rfl
@[simp] theorem takeAccess_gout (rest : List HostAccess) (s : State) : (takeAccess rest s).gout = s.gout := rfl
@[simp] theorem takeAccess_key (rest : List HostAccess) (s : State) : (takeAccess rest s).key = s.key := rfl
@[simp] theorem takeAccess_keyv (rest : List HostAccess) (s : State) : (takeAccess rest s).keyv = s.keyv := rfl
@[simp] theorem takeAccess_ictr (rest : List HostAccess) (s : State) : (takeAccess rest s).ictr = s.ictr := rfl
@[simp] theorem takeAccess_ictrv (rest : List HostAccess) (s : State) : (takeAccess rest s).ictrv = s.ictrv := rfl
@[simp] theorem takeAccess_ctx (rest : List HostAccess) (s : State) : (takeAccess rest s).ctx = s.ctx := rfl
@[simp] theorem takeAccess_ctxv (rest : List HostAccess) (s : State) : (takeAccess rest s).ctxv = s.ctxv := rfl
@[simp] theorem takeAccess_hoff (rest : List HostAccess) (s : State) : (takeAccess rest s).hoff = s.hoff := rfl
@[simp] theorem takeAccess_seed (rest : List HostAccess) (s : State) : (takeAccess rest s).seed = s.seed := rfl
@[simp] theorem takeAccess_len (rest : List HostAccess) (s : State) : (takeAccess rest s).len = s.len := rfl
@[simp] theorem takeAccess_chunk (rest : List HostAccess) (s : State) : (takeAccess rest s).chunk = s.chunk := rfl
@[simp] theorem takeAccess_req (rest : List HostAccess) (s : State) : (takeAccess rest s).req = s.req := rfl
@[simp] theorem takeAccess_tgot (rest : List HostAccess) (s : State) : (takeAccess rest s).tgot = s.tgot := rfl
@[simp] theorem takeAccess_soff (rest : List HostAccess) (s : State) : (takeAccess rest s).soff = s.soff := rfl
@[simp] theorem takeAccess_olen (rest : List HostAccess) (s : State) : (takeAccess rest s).olen = s.olen := rfl
@[simp] theorem takeAccess_obuf (rest : List HostAccess) (s : State) : (takeAccess rest s).obuf = s.obuf := rfl
@[simp] theorem takeAccess_tshort (rest : List HostAccess) (s : State) : (takeAccess rest s).tshort = s.tshort := rfl
@[simp] theorem takeAccess_sshort (rest : List HostAccess) (s : State) : (takeAccess rest s).sshort = s.sshort := rfl
@[simp] theorem takeAccess_err (rest : List HostAccess) (s : State) : (takeAccess rest s).err = s.err := rfl
@[simp] theorem takeAccess_ecode (rest : List HostAccess) (s : State) : (takeAccess rest s).ecode = s.ecode := rfl
@[simp] theorem takeAccess_hdr (rest : List HostAccess) (s : State) : (takeAccess rest s).hdr = s.hdr := rfl
@[simp] theorem takeAccess_src (rest : List HostAccess) (s : State) : (takeAccess rest s).src = s.src := rfl
@[simp] theorem takeAccess_trace (rest : List HostAccess) (s : State) : (takeAccess rest s).trace = s.trace := rfl
@[simp] theorem takeAccess_host (rest : List HostAccess) (s : State) : (takeAccess rest s).host = rest := rfl
@[simp] theorem takeAccess_ret (rest : List HostAccess) (s : State) : (takeAccess rest s).ret = .done := rfl
@[simp] theorem takeAccess_waiting (rest : List HostAccess) (s : State) : (takeAccess rest s).waiting = s.waiting := rfl

@[simp] theorem returnWord_tbl (v : Word) (s : State) : (returnWord v s).tbl = s.tbl := rfl
@[simp] theorem returnWord_tblv (v : Word) (s : State) : (returnWord v s).tblv = s.tblv := rfl
@[simp] theorem returnWord_g (v : Word) (s : State) : (returnWord v s).g = s.g := rfl
@[simp] theorem returnWord_gv (v : Word) (s : State) : (returnWord v s).gv = s.gv := rfl
@[simp] theorem returnWord_gout (v : Word) (s : State) : (returnWord v s).gout = s.gout := rfl
@[simp] theorem returnWord_key (v : Word) (s : State) : (returnWord v s).key = s.key := rfl
@[simp] theorem returnWord_keyv (v : Word) (s : State) : (returnWord v s).keyv = s.keyv := rfl
@[simp] theorem returnWord_ictr (v : Word) (s : State) : (returnWord v s).ictr = s.ictr := rfl
@[simp] theorem returnWord_ictrv (v : Word) (s : State) : (returnWord v s).ictrv = s.ictrv := rfl
@[simp] theorem returnWord_ctx (v : Word) (s : State) : (returnWord v s).ctx = s.ctx := rfl
@[simp] theorem returnWord_ctxv (v : Word) (s : State) : (returnWord v s).ctxv = s.ctxv := rfl
@[simp] theorem returnWord_hoff (v : Word) (s : State) : (returnWord v s).hoff = s.hoff := rfl
@[simp] theorem returnWord_seed (v : Word) (s : State) : (returnWord v s).seed = s.seed := rfl
@[simp] theorem returnWord_len (v : Word) (s : State) : (returnWord v s).len = s.len := rfl
@[simp] theorem returnWord_chunk (v : Word) (s : State) : (returnWord v s).chunk = s.chunk := rfl
@[simp] theorem returnWord_req (v : Word) (s : State) : (returnWord v s).req = s.req := rfl
@[simp] theorem returnWord_tgot (v : Word) (s : State) : (returnWord v s).tgot = s.tgot := rfl
@[simp] theorem returnWord_soff (v : Word) (s : State) : (returnWord v s).soff = s.soff := rfl
@[simp] theorem returnWord_olen (v : Word) (s : State) : (returnWord v s).olen = s.olen := rfl
@[simp] theorem returnWord_obuf (v : Word) (s : State) : (returnWord v s).obuf = s.obuf := rfl
@[simp] theorem returnWord_tshort (v : Word) (s : State) : (returnWord v s).tshort = s.tshort := rfl
@[simp] theorem returnWord_sshort (v : Word) (s : State) : (returnWord v s).sshort = s.sshort := rfl
@[simp] theorem returnWord_err (v : Word) (s : State) : (returnWord v s).err = s.err := rfl
@[simp] theorem returnWord_ecode (v : Word) (s : State) : (returnWord v s).ecode = s.ecode := rfl
@[simp] theorem returnWord_hdr (v : Word) (s : State) : (returnWord v s).hdr = s.hdr := rfl
@[simp] theorem returnWord_src (v : Word) (s : State) : (returnWord v s).src = s.src := rfl
@[simp] theorem returnWord_trace (v : Word) (s : State) : (returnWord v s).trace = s.trace := rfl
@[simp] theorem returnWord_host (v : Word) (s : State) : (returnWord v s).host = s.host := rfl
@[simp] theorem returnWord_ret (v : Word) (s : State) : (returnWord v s).ret = .word v := rfl
@[simp] theorem returnWord_waiting (v : Word) (s : State) : (returnWord v s).waiting = s.waiting := rfl

@[simp] theorem returnByte_tbl (b : Byte) (s : State) : (returnByte b s).tbl = s.tbl := rfl
@[simp] theorem returnByte_tblv (b : Byte) (s : State) : (returnByte b s).tblv = s.tblv := rfl
@[simp] theorem returnByte_g (b : Byte) (s : State) : (returnByte b s).g = s.g := rfl
@[simp] theorem returnByte_gv (b : Byte) (s : State) : (returnByte b s).gv = s.gv := rfl
@[simp] theorem returnByte_gout (b : Byte) (s : State) : (returnByte b s).gout = s.gout := rfl
@[simp] theorem returnByte_key (b : Byte) (s : State) : (returnByte b s).key = s.key := rfl
@[simp] theorem returnByte_keyv (b : Byte) (s : State) : (returnByte b s).keyv = s.keyv := rfl
@[simp] theorem returnByte_ictr (b : Byte) (s : State) : (returnByte b s).ictr = s.ictr := rfl
@[simp] theorem returnByte_ictrv (b : Byte) (s : State) : (returnByte b s).ictrv = s.ictrv := rfl
@[simp] theorem returnByte_ctx (b : Byte) (s : State) : (returnByte b s).ctx = s.ctx := rfl
@[simp] theorem returnByte_ctxv (b : Byte) (s : State) : (returnByte b s).ctxv = s.ctxv := rfl
@[simp] theorem returnByte_hoff (b : Byte) (s : State) : (returnByte b s).hoff = s.hoff := rfl
@[simp] theorem returnByte_seed (b : Byte) (s : State) : (returnByte b s).seed = s.seed := rfl
@[simp] theorem returnByte_len (b : Byte) (s : State) : (returnByte b s).len = s.len := rfl
@[simp] theorem returnByte_chunk (b : Byte) (s : State) : (returnByte b s).chunk = s.chunk := rfl
@[simp] theorem returnByte_req (b : Byte) (s : State) : (returnByte b s).req = s.req := rfl
@[simp] theorem returnByte_tgot (b : Byte) (s : State) : (returnByte b s).tgot = s.tgot := rfl
@[simp] theorem returnByte_soff (b : Byte) (s : State) : (returnByte b s).soff = s.soff := rfl
@[simp] theorem returnByte_olen (b : Byte) (s : State) : (returnByte b s).olen = s.olen := rfl
@[simp] theorem returnByte_obuf (b : Byte) (s : State) : (returnByte b s).obuf = s.obuf := rfl
@[simp] theorem returnByte_tshort (b : Byte) (s : State) : (returnByte b s).tshort = s.tshort := rfl
@[simp] theorem returnByte_sshort (b : Byte) (s : State) : (returnByte b s).sshort = s.sshort := rfl
@[simp] theorem returnByte_err (b : Byte) (s : State) : (returnByte b s).err = s.err := rfl
@[simp] theorem returnByte_ecode (b : Byte) (s : State) : (returnByte b s).ecode = s.ecode := rfl
@[simp] theorem returnByte_hdr (b : Byte) (s : State) : (returnByte b s).hdr = s.hdr := rfl
@[simp] theorem returnByte_src (b : Byte) (s : State) : (returnByte b s).src = s.src := rfl
@[simp] theorem returnByte_trace (b : Byte) (s : State) : (returnByte b s).trace = s.trace := rfl
@[simp] theorem returnByte_host (b : Byte) (s : State) : (returnByte b s).host = s.host := rfl
@[simp] theorem returnByte_ret (b : Byte) (s : State) : (returnByte b s).ret = .byte b := rfl
@[simp] theorem returnByte_waiting (b : Byte) (s : State) : (returnByte b s).waiting = s.waiting := rfl

@[simp] theorem closeContext_tbl (s : State) : (closeContext s).tbl = s.tbl := rfl
@[simp] theorem closeContext_tblv (s : State) : (closeContext s).tblv = s.tblv := rfl
@[simp] theorem closeContext_g (s : State) : (closeContext s).g = s.g := rfl
@[simp] theorem closeContext_gv (s : State) : (closeContext s).gv = s.gv := rfl
@[simp] theorem closeContext_gout (s : State) : (closeContext s).gout = s.gout := rfl
@[simp] theorem closeContext_key (s : State) : (closeContext s).key = s.key := rfl
@[simp] theorem closeContext_keyv (s : State) : (closeContext s).keyv = s.keyv := rfl
@[simp] theorem closeContext_ictr (s : State) : (closeContext s).ictr = s.ictr := rfl
@[simp] theorem closeContext_ictrv (s : State) : (closeContext s).ictrv = s.ictrv := rfl
@[simp] theorem closeContext_ctx (s : State) : (closeContext s).ctx = s.ctx := rfl
@[simp] theorem closeContext_ctxv (s : State) : (closeContext s).ctxv = false := rfl
@[simp] theorem closeContext_hoff (s : State) : (closeContext s).hoff = s.hoff := rfl
@[simp] theorem closeContext_seed (s : State) : (closeContext s).seed = s.seed := rfl
@[simp] theorem closeContext_len (s : State) : (closeContext s).len = s.len := rfl
@[simp] theorem closeContext_chunk (s : State) : (closeContext s).chunk = s.chunk := rfl
@[simp] theorem closeContext_req (s : State) : (closeContext s).req = s.req := rfl
@[simp] theorem closeContext_tgot (s : State) : (closeContext s).tgot = s.tgot := rfl
@[simp] theorem closeContext_soff (s : State) : (closeContext s).soff = s.soff := rfl
@[simp] theorem closeContext_olen (s : State) : (closeContext s).olen = s.olen := rfl
@[simp] theorem closeContext_obuf (s : State) : (closeContext s).obuf = s.obuf := rfl
@[simp] theorem closeContext_tshort (s : State) : (closeContext s).tshort = s.tshort := rfl
@[simp] theorem closeContext_sshort (s : State) : (closeContext s).sshort = s.sshort := rfl
@[simp] theorem closeContext_err (s : State) : (closeContext s).err = s.err := rfl
@[simp] theorem closeContext_ecode (s : State) : (closeContext s).ecode = s.ecode := rfl
@[simp] theorem closeContext_hdr (s : State) : (closeContext s).hdr = s.hdr := rfl
@[simp] theorem closeContext_src (s : State) : (closeContext s).src = s.src := rfl
@[simp] theorem closeContext_trace (s : State) : (closeContext s).trace = s.trace := rfl
@[simp] theorem closeContext_host (s : State) : (closeContext s).host = s.host := rfl
@[simp] theorem closeContext_ret (s : State) : (closeContext s).ret = s.ret := rfl
@[simp] theorem closeContext_waiting (s : State) : (closeContext s).waiting = s.waiting := rfl

@[simp] theorem openContext_tbl (s : State) : (openContext s).tbl = s.tbl := rfl
@[simp] theorem openContext_tblv (s : State) : (openContext s).tblv = s.tblv := rfl
@[simp] theorem openContext_g (s : State) : (openContext s).g = s.g := rfl
@[simp] theorem openContext_gv (s : State) : (openContext s).gv = s.gv := rfl
@[simp] theorem openContext_gout (s : State) : (openContext s).gout = s.gout := rfl
@[simp] theorem openContext_key (s : State) : (openContext s).key = s.key := rfl
@[simp] theorem openContext_keyv (s : State) : (openContext s).keyv = s.keyv := rfl
@[simp] theorem openContext_ictr (s : State) : (openContext s).ictr = s.ictr := rfl
@[simp] theorem openContext_ictrv (s : State) : (openContext s).ictrv = s.ictrv := rfl
@[simp] theorem openContext_ctx (s : State) : (openContext s).ctx = ctxInit s.key s.ictr := rfl
@[simp] theorem openContext_ctxv (s : State) : (openContext s).ctxv = true := rfl
@[simp] theorem openContext_hoff (s : State) : (openContext s).hoff = s.hoff := rfl
@[simp] theorem openContext_seed (s : State) : (openContext s).seed = s.seed := rfl
@[simp] theorem openContext_len (s : State) : (openContext s).len = s.len := rfl
@[simp] theorem openContext_chunk (s : State) : (openContext s).chunk = s.chunk := rfl
@[simp] theorem openContext_req (s : State) : (openContext s).req = s.req := rfl
@[simp] theorem openContext_tgot (s : State) : (openContext s).tgot = s.tgot := rfl
@[simp] theorem openContext_soff (s : State) : (openContext s).soff = 0#32 := rfl
@[simp] theorem openContext_olen (s : State) : (openContext s).olen = s.len := rfl
@[simp] theorem openContext_obuf (s : State) : (openContext s).obuf = Memory.zeroFill s.len.toNat s.obuf := rfl
@[simp] theorem openContext_tshort (s : State) : (openContext s).tshort = s.tshort := rfl
@[simp] theorem openContext_sshort (s : State) : (openContext s).sshort = false := rfl
@[simp] theorem openContext_err (s : State) : (openContext s).err = s.err := rfl
@[simp] theorem openContext_ecode (s : State) : (openContext s).ecode = s.ecode := rfl
@[simp] theorem openContext_hdr (s : State) : (openContext s).hdr = s.hdr := rfl
@[simp] theorem openContext_src (s : State) : (openContext s).src = s.src := rfl
@[simp] theorem openContext_trace (s : State) : (openContext s).trace = s.trace := rfl
@[simp] theorem openContext_host (s : State) : (openContext s).host = s.host := rfl
@[simp] theorem openContext_ret (s : State) : (openContext s).ret = s.ret := rfl
@[simp] theorem openContext_waiting (s : State) : (openContext s).waiting = s.waiting := rfl

@[simp] theorem storeChunk_tbl (q : Nat) (d : List Byte) (s : State) : (storeChunk q d s).tbl = s.tbl := rfl
@[simp] theorem storeChunk_tblv (q : Nat) (d : List Byte) (s : State) : (storeChunk q d s).tblv = s.tblv := rfl
@[simp] theorem storeChunk_g (q : Nat) (d : List Byte) (s : State) : (storeChunk q d s).g = s.g := rfl
@[simp] theorem storeChunk_gv (q : Nat) (d : List Byte) (s : State) : (storeChunk q d s).gv = s.gv := rfl
@[simp] theorem storeChunk_gout (q : Nat) (d : List Byte) (s : State) : (storeChunk q d s).gout = s.gout := rfl
@[simp] theorem storeChunk_key (q : Nat) (d : List Byte) (s : State) : (storeChunk q d s).key = s.key := rfl
@[simp] theorem storeChunk_keyv (q : Nat) (d : List Byte) (s : State) : (storeChunk q d s).keyv = s.keyv := rfl
@[simp] theorem storeChunk_ictr (q : Nat) (d : List Byte) (s : State) : (storeChunk q d s).ictr = s.ictr := rfl
@[simp] theorem storeChunk_ictrv (q : Nat) (d : List Byte) (s : State) : (storeChunk q d s).ictrv = s.ictrv := rfl
@[simp] theorem storeChunk_ctx (q : Nat) (d : List Byte) (s : State) : (storeChunk q d s).ctx = (ctrCrypt s.ctx d).2 := rfl
@[simp] theorem storeChunk_ctxv (q : Nat) (d : List Byte) (s : State) : (storeChunk q d s).ctxv = s.ctxv := rfl
@[simp] theorem storeChunk_hoff (q : Nat) (d : List Byte) (s : State) : (storeChunk q d s).hoff = s.hoff := rfl
@[simp] theorem storeChunk_seed (q : Nat) (d : List Byte) (s : State) : (storeChunk q d s).seed = s.seed := rfl
@[simp] theorem storeChunk_len (q : Nat) (d : List Byte) (s : State) : (storeChunk q d s).len = s.len := rfl
@[simp] theorem storeChunk_chunk (q : Nat) (d : List Byte) (s : State) : (storeChunk q d s).chunk = s.chunk := rfl
@[simp] theorem storeChunk_req (q : Nat) (d : List Byte) (s : State) : (storeChunk q d s).req = s.req := rfl
@[simp] theorem storeChunk_tgot (q : Nat) (d : List Byte) (s : State) : (storeChunk q d s).tgot = s.tgot := rfl
@[simp] theorem storeChunk_soff (q : Nat) (d : List Byte) (s : State) : (storeChunk q d s).soff = s.soff + BitVec.ofNat 32 d.length := rfl
@[simp] theorem storeChunk_olen (q : Nat) (d : List Byte) (s : State) : (storeChunk q d s).olen = s.olen := rfl
@[simp] theorem storeChunk_obuf (q : Nat) (d : List Byte) (s : State) : (storeChunk q d s).obuf = Memory.writeBytes s.obuf s.soff.toNat (ctrCrypt s.ctx d).1 := rfl
@[simp] theorem storeChunk_tshort (q : Nat) (d : List Byte) (s : State) : (storeChunk q d s).tshort = s.tshort := rfl
@[simp] theorem storeChunk_sshort (q : Nat) (d : List Byte) (s : State) : (storeChunk q d s).sshort = streamShort s.sshort d.length q := rfl
@[simp] theorem storeChunk_err (q : Nat) (d : List Byte) (s : State) : (storeChunk q d s).err = s.err := rfl
@[simp] theorem storeChunk_ecode (q : Nat) (d : List Byte) (s : State) : (storeChunk q d s).ecode = s.ecode := rfl
@[simp] theorem storeChunk_hdr (q : Nat) (d : List Byte) (s : State) : (storeChunk q d s).hdr = s.hdr := rfl
@[simp] theorem storeChunk_src (q : Nat) (d : List Byte) (s : State) : (storeChunk q d s).src = s.src := rfl
@[simp] theorem storeChunk_trace (q : Nat) (d : List Byte) (s : State) : (storeChunk q d s).trace = s.trace := rfl
@[simp] theorem storeChunk_host (q : Nat) (d : List Byte) (s : State) : (storeChunk q d s).host = s.host := rfl
@[simp] theorem storeChunk_ret (q : Nat) (d : List Byte) (s : State) : (storeChunk q d s).ret = s.ret := rfl
@[simp] theorem storeChunk_waiting (q : Nat) (d : List Byte) (s : State) : (storeChunk q d s).waiting = s.waiting := rfl

@[simp] theorem installTable_tbl (max : Nat) (d : List Byte) (s : State) : (installTable max d s).tbl = tableOf d := by simp only [installTable]
@[simp] theorem installTable_tblv (max : Nat) (d : List Byte) (s : State) : (installTable max d s).tblv = true := by simp only [installTable]
@[simp] theorem installTable_g (max : Nat) (d : List Byte) (s : State) : (installTable max d s).g = s.g := by simp only [installTable]
@[simp] theorem installTable_gv (max : Nat) (d : List Byte) (s : State) : (installTable max d s).gv = s.gv := by simp only [installTable]
@[simp] theorem installTable_gout (max : Nat) (d : List Byte) (s : State) : (installTable max d s).gout = s.gout := by simp only [installTable]
@[simp] theorem installTable_key (max : Nat) (d : List Byte) (s : State) : (installTable max d s).key = s.key := by simp only [installTable]
@[simp] theorem installTable_keyv (max : Nat) (d : List Byte) (s : State) : (installTable max d s).keyv = s.keyv := by simp only [installTable]
@[simp] theorem installTable_ictr (max : Nat) (d : List Byte) (s : State) : (installTable max d s).ictr = s.ictr := by simp only [installTable]
@[simp] theorem installTable_ictrv (max : Nat) (d : List Byte) (s : State) : (installTable max d s).ictrv = s.ictrv := by simp only [installTable]
@[simp] theorem installTable_ctx (max : Nat) (d : List Byte) (s : State) : (installTable max d s).ctx = s.ctx := by simp only [installTable]
@[simp] theorem installTable_ctxv (max : Nat) (d : List Byte) (s : State) : (installTable max d s).ctxv = s.ctxv := by simp only [installTable]
@[simp] theorem installTable_hoff (max : Nat) (d : List Byte) (s : State) : (installTable max d s).hoff = s.hoff := by simp only [installTable]
@[simp] theorem installTable_seed (max : Nat) (d : List Byte) (s : State) : (installTable max d s).seed = s.seed := by simp only [installTable]
@[simp] theorem installTable_len (max : Nat) (d : List Byte) (s : State) : (installTable max d s).len = s.len := by simp only [installTable]
@[simp] theorem installTable_chunk (max : Nat) (d : List Byte) (s : State) : (installTable max d s).chunk = s.chunk := by simp only [installTable]
@[simp] theorem installTable_req (max : Nat) (d : List Byte) (s : State) : (installTable max d s).req = s.req := by simp only [installTable]
@[simp] theorem installTable_tgot (max : Nat) (d : List Byte) (s : State) : (installTable max d s).tgot = BitVec.ofNat 32 d.length := by simp only [installTable]
@[simp] theorem installTable_soff (max : Nat) (d : List Byte) (s : State) : (installTable max d s).soff = s.soff := by simp only [installTable]
@[simp] theorem installTable_olen (max : Nat) (d : List Byte) (s : State) : (installTable max d s).olen = s.olen := by simp only [installTable]
@[simp] theorem installTable_obuf (max : Nat) (d : List Byte) (s : State) : (installTable max d s).obuf = s.obuf := by simp only [installTable]
@[simp] theorem installTable_tshort (max : Nat) (d : List Byte) (s : State) : (installTable max d s).tshort = loadShort d.length max := by simp only [installTable]
@[simp] theorem installTable_sshort (max : Nat) (d : List Byte) (s : State) : (installTable max d s).sshort = s.sshort := by simp only [installTable]
@[simp] theorem installTable_err (max : Nat) (d : List Byte) (s : State) : (installTable max d s).err = s.err := by simp only [installTable]
@[simp] theorem installTable_ecode (max : Nat) (d : List Byte) (s : State) : (installTable max d s).ecode = s.ecode := by simp only [installTable]
@[simp] theorem installTable_hdr (max : Nat) (d : List Byte) (s : State) : (installTable max d s).hdr = s.hdr := by simp only [installTable]
@[simp] theorem installTable_src (max : Nat) (d : List Byte) (s : State) : (installTable max d s).src = s.src := by simp only [installTable]
@[simp] theorem installTable_trace (max : Nat) (d : List Byte) (s : State) : (installTable max d s).trace = s.trace := by simp only [installTable]
@[simp] theorem installTable_host (max : Nat) (d : List Byte) (s : State) : (installTable max d s).host = s.host := by simp only [installTable]
@[simp] theorem installTable_ret (max : Nat) (d : List Byte) (s : State) : (installTable max d s).ret = s.ret := by simp only [installTable]
@[simp] theorem installTable_waiting (max : Nat) (d : List Byte) (s : State) : (installTable max d s).waiting = s.waiting := by simp only [installTable]

@[simp] theorem noteRequest_tbl (space : Space) (off : Word) (max : Nat) (n : Option Nat) (s : State) :
    (noteRequest space off max n s).tbl = s.tbl := by cases space <;> rfl
@[simp] theorem noteRequest_tblv (space : Space) (off : Word) (max : Nat) (n : Option Nat) (s : State) :
    (noteRequest space off max n s).tblv = s.tblv := by cases space <;> rfl
@[simp] theorem noteRequest_g (space : Space) (off : Word) (max : Nat) (n : Option Nat) (s : State) :
    (noteRequest space off max n s).g = s.g := by cases space <;> rfl
@[simp] theorem noteRequest_gv (space : Space) (off : Word) (max : Nat) (n : Option Nat) (s : State) :
    (noteRequest space off max n s).gv = s.gv := by cases space <;> rfl
@[simp] theorem noteRequest_gout (space : Space) (off : Word) (max : Nat) (n : Option Nat) (s : State) :
    (noteRequest space off max n s).gout = s.gout := by cases space <;> rfl
@[simp] theorem noteRequest_key (space : Space) (off : Word) (max : Nat) (n : Option Nat) (s : State) :
    (noteRequest space off max n s).key = s.key := by cases space <;> rfl
@[simp] theorem noteRequest_keyv (space : Space) (off : Word) (max : Nat) (n : Option Nat) (s : State) :
    (noteRequest space off max n s).keyv = s.keyv := by cases space <;> rfl
@[simp] theorem noteRequest_ictr (space : Space) (off : Word) (max : Nat) (n : Option Nat) (s : State) :
    (noteRequest space off max n s).ictr = s.ictr := by cases space <;> rfl
@[simp] theorem noteRequest_ictrv (space : Space) (off : Word) (max : Nat) (n : Option Nat) (s : State) :
    (noteRequest space off max n s).ictrv = s.ictrv := by cases space <;> rfl
@[simp] theorem noteRequest_ctx (space : Space) (off : Word) (max : Nat) (n : Option Nat) (s : State) :
    (noteRequest space off max n s).ctx = s.ctx := by cases space <;> rfl
@[simp] theorem noteRequest_ctxv (space : Space) (off : Word) (max : Nat) (n : Option Nat) (s : State) :
    (noteRequest space off max n s).ctxv = s.ctxv := by cases space <;> rfl
@[simp] theorem noteRequest_hoff (space : Space) (off : Word) (max : Nat) (n : Option Nat) (s : State) :
    (noteRequest space off max n s).hoff = s.hoff := by cases space <;> rfl
@[simp] theorem noteRequest_seed (space : Space) (off : Word) (max : Nat) (n : Option Nat) (s : State) :
    (noteRequest space off max n s).seed = s.seed := by cases space <;> rfl
@[simp] theorem noteRequest_len (space : Space) (off : Word) (max : Nat) (n : Option Nat) (s : State) :
    (noteRequest space off max n s).len = s.len := by cases space <;> rfl
@[simp] theorem noteRequest_chunk (space : Space) (off : Word) (max : Nat) (n : Option Nat) (s : State) :
    (noteRequest space off max n s).chunk = s.chunk := by cases space <;> rfl
@[simp] theorem noteRequest_req (space : Space) (off : Word) (max : Nat) (n : Option Nat) (s : State) :
    (noteRequest space off max n s).req = s.req := by cases space <;> rfl
@[simp] theorem noteRequest_tgot (space : Space) (off : Word) (max : Nat) (n : Option Nat) (s : State) :
    (noteRequest space off max n s).tgot = s.tgot := by cases space <;> rfl
@[simp] theorem noteRequest_soff (space : Space) (off : Word) (max : Nat) (n : Option Nat) (s : State) :
    (noteRequest space off max n s).soff = s.soff := by cases space <;> rfl
@[simp] theorem noteRequest_olen (space : Space) (off : Word) (max : Nat) (n : Option Nat) (s : State) :
    (noteRequest space off max n s).olen = s.olen := by cases space <;> rfl
@[simp] theorem noteRequest_obuf (space : Space) (off : Word) (max : Nat) (n : Option Nat) (s : State) :
    (noteRequest space off max n s).obuf = s.obuf := by cases space <;> rfl
@[simp] theorem noteRequest_tshort (space : Space) (off : Word) (max : Nat) (n : Option Nat) (s : State) :
    (noteRequest space off max n s).tshort = s.tshort := by cases space <;> rfl
@[simp] theorem noteRequest_sshort (space : Space) (off : Word) (max : Nat) (n : Option Nat) (s : State) :
    (noteRequest space off max n s).sshort = s.sshort := by cases space <;> rfl
@[simp] theorem noteRequest_err (space : Space) (off : Word) (max : Nat) (n : Option Nat) (s : State) :
    (noteRequest space off max n s).err = s.err := by cases space <;> rfl
@[simp] theorem noteRequest_ecode (space : Space) (off : Word) (max : Nat) (n : Option Nat) (s : State) :
    (noteRequest space off max n s).ecode = s.ecode := by cases space <;> rfl
@[simp] theorem noteRequest_host (space : Space) (off : Word) (max : Nat) (n : Option Nat) (s : State) :
    (noteRequest space off max n s).host = s.host := by cases space <;> rfl
@[simp] theorem noteRequest_ret (space : Space) (off : Word) (max : Nat) (n : Option Nat) (s : State) :
    (noteRequest space off max n s).ret = s.ret := by cases space <;> rfl
@[simp] theorem noteRequest_waiting (space : Space) (off : Word) (max : Nat) (n : Option Nat) (s : State) :
    (noteRequest space off max n s).waiting = s.waiting := by cases space <;> rfl
@[simp] theorem noteRequest_trace (space : Space) (off : Word) (max : Nat) (n : Option Nat) (s : State) :
    (noteRequest space off max n s).trace = s.trace ++ [{ space := space, off := off, max := max, n := n }] := by
  cases space <;> rfl
@[simp] theorem noteRequest_hdr_hdr (off : Word) (max : Nat) (n : Option Nat) (s : State) :
    (noteRequest .hdr off max n s).hdr = afterAnswer s.hdr := rfl
@[simp] theorem noteRequest_hdr_src (off : Word) (max : Nat) (n : Option Nat) (s : State) :
    (noteRequest .hdr off max n s).src = s.src := rfl
@[simp] theorem noteRequest_src_hdr (off : Word) (max : Nat) (n : Option Nat) (s : State) :
    (noteRequest .src off max n s).hdr = s.hdr := rfl
@[simp] theorem noteRequest_src_src (off : Word) (max : Nat) (n : Option Nat) (s : State) :
    (noteRequest .src off max n s).src = afterAnswer s.src := rfl

@[simp] theorem awaitAnswer_tbl (space : Space) (off : Word) (max : Nat) (s : State) :
    (awaitAnswer space off max s).tbl = s.tbl := by cases space <;> rfl
@[simp] theorem awaitAnswer_tblv (space : Space) (off : Word) (max : Nat) (s : State) :
    (awaitAnswer space off max s).tblv = s.tblv := by cases space <;> rfl
@[simp] theorem awaitAnswer_g (space : Space) (off : Word) (max : Nat) (s : State) :
    (awaitAnswer space off max s).g = s.g := by cases space <;> rfl
@[simp] theorem awaitAnswer_gv (space : Space) (off : Word) (max : Nat) (s : State) :
    (awaitAnswer space off max s).gv = s.gv := by cases space <;> rfl
@[simp] theorem awaitAnswer_gout (space : Space) (off : Word) (max : Nat) (s : State) :
    (awaitAnswer space off max s).gout = s.gout := by cases space <;> rfl
@[simp] theorem awaitAnswer_key (space : Space) (off : Word) (max : Nat) (s : State) :
    (awaitAnswer space off max s).key = s.key := by cases space <;> rfl
@[simp] theorem awaitAnswer_keyv (space : Space) (off : Word) (max : Nat) (s : State) :
    (awaitAnswer space off max s).keyv = s.keyv := by cases space <;> rfl
@[simp] theorem awaitAnswer_ictr (space : Space) (off : Word) (max : Nat) (s : State) :
    (awaitAnswer space off max s).ictr = s.ictr := by cases space <;> rfl
@[simp] theorem awaitAnswer_ictrv (space : Space) (off : Word) (max : Nat) (s : State) :
    (awaitAnswer space off max s).ictrv = s.ictrv := by cases space <;> rfl
@[simp] theorem awaitAnswer_ctx (space : Space) (off : Word) (max : Nat) (s : State) :
    (awaitAnswer space off max s).ctx = s.ctx := by cases space <;> rfl
@[simp] theorem awaitAnswer_ctxv (space : Space) (off : Word) (max : Nat) (s : State) :
    (awaitAnswer space off max s).ctxv = s.ctxv := by cases space <;> rfl
@[simp] theorem awaitAnswer_hoff (space : Space) (off : Word) (max : Nat) (s : State) :
    (awaitAnswer space off max s).hoff = s.hoff := by cases space <;> rfl
@[simp] theorem awaitAnswer_seed (space : Space) (off : Word) (max : Nat) (s : State) :
    (awaitAnswer space off max s).seed = s.seed := by cases space <;> rfl
@[simp] theorem awaitAnswer_len (space : Space) (off : Word) (max : Nat) (s : State) :
    (awaitAnswer space off max s).len = s.len := by cases space <;> rfl
@[simp] theorem awaitAnswer_chunk (space : Space) (off : Word) (max : Nat) (s : State) :
    (awaitAnswer space off max s).chunk = s.chunk := by cases space <;> rfl
@[simp] theorem awaitAnswer_req (space : Space) (off : Word) (max : Nat) (s : State) :
    (awaitAnswer space off max s).req = s.req := by cases space <;> rfl
@[simp] theorem awaitAnswer_tgot (space : Space) (off : Word) (max : Nat) (s : State) :
    (awaitAnswer space off max s).tgot = s.tgot := by cases space <;> rfl
@[simp] theorem awaitAnswer_soff (space : Space) (off : Word) (max : Nat) (s : State) :
    (awaitAnswer space off max s).soff = s.soff := by cases space <;> rfl
@[simp] theorem awaitAnswer_olen (space : Space) (off : Word) (max : Nat) (s : State) :
    (awaitAnswer space off max s).olen = s.olen := by cases space <;> rfl
@[simp] theorem awaitAnswer_obuf (space : Space) (off : Word) (max : Nat) (s : State) :
    (awaitAnswer space off max s).obuf = s.obuf := by cases space <;> rfl
@[simp] theorem awaitAnswer_tshort (space : Space) (off : Word) (max : Nat) (s : State) :
    (awaitAnswer space off max s).tshort = s.tshort := by cases space <;> rfl
@[simp] theorem awaitAnswer_sshort (space : Space) (off : Word) (max : Nat) (s : State) :
    (awaitAnswer space off max s).sshort = s.sshort := by cases space <;> rfl
@[simp] theorem awaitAnswer_err (space : Space) (off : Word) (max : Nat) (s : State) :
    (awaitAnswer space off max s).err = s.err := by cases space <;> rfl
@[simp] theorem awaitAnswer_ecode (space : Space) (off : Word) (max : Nat) (s : State) :
    (awaitAnswer space off max s).ecode = s.ecode := by cases space <;> rfl
@[simp] theorem awaitAnswer_host (space : Space) (off : Word) (max : Nat) (s : State) :
    (awaitAnswer space off max s).host = s.host := by cases space <;> rfl
@[simp] theorem awaitAnswer_ret (space : Space) (off : Word) (max : Nat) (s : State) :
    (awaitAnswer space off max s).ret = .nothing := rfl
@[simp] theorem awaitAnswer_waiting (space : Space) (off : Word) (max : Nat) (s : State) :
    (awaitAnswer space off max s).waiting = true := rfl
@[simp] theorem awaitAnswer_trace (space : Space) (off : Word) (max : Nat) (s : State) :
    (awaitAnswer space off max s).trace = s.trace ++ [{ space := space, off := off, max := max, n := none }] := by cases space <;> rfl
@[simp] theorem awaitAnswer_hdr_hdr (off : Word) (max : Nat) (s : State) :
    (awaitAnswer .hdr off max s).hdr = afterAnswer s.hdr := rfl
@[simp] theorem awaitAnswer_hdr_src (off : Word) (max : Nat) (s : State) :
    (awaitAnswer .hdr off max s).src = s.src := rfl
@[simp] theorem awaitAnswer_src_hdr (off : Word) (max : Nat) (s : State) :
    (awaitAnswer .src off max s).hdr = s.hdr := rfl
@[simp] theorem awaitAnswer_src_src (off : Word) (max : Nat) (s : State) :
    (awaitAnswer .src off max s).src = afterAnswer s.src := rfl

@[simp] theorem resetEngine_hdr (s : State) : (resetEngine s).hdr = s.hdr := rfl
@[simp] theorem resetEngine_src (s : State) : (resetEngine s).src = s.src := rfl
@[simp] theorem resetEngine_trace (s : State) : (resetEngine s).trace = s.trace := rfl
@[simp] theorem resetEngine_host (s : State) : (resetEngine s).host = s.host := rfl
@[simp] theorem resetEngine_waiting (s : State) : (resetEngine s).waiting = false := rfl
@[simp] theorem resetEngine_ret (s : State) : (resetEngine s).ret = s.ret := rfl
@[simp] theorem resetEngine_tbl (s : State) : (resetEngine s).tbl = zeroTable := rfl
@[simp] theorem resetEngine_tblv (s : State) : (resetEngine s).tblv = false := rfl
@[simp] theorem resetEngine_g (s : State) : (resetEngine s).g = 0 := rfl
@[simp] theorem resetEngine_gv (s : State) : (resetEngine s).gv = false := rfl
@[simp] theorem resetEngine_gout (s : State) : (resetEngine s).gout = 0#64 := rfl
@[simp] theorem resetEngine_key (s : State) : (resetEngine s).key = zeroBlock := rfl
@[simp] theorem resetEngine_keyv (s : State) : (resetEngine s).keyv = 0#4 := rfl
@[simp] theorem resetEngine_ictr (s : State) : (resetEngine s).ictr = zeroBlock := rfl
@[simp] theorem resetEngine_ictrv (s : State) : (resetEngine s).ictrv = 0#4 := rfl
@[simp] theorem resetEngine_ctx (s : State) : (resetEngine s).ctx = { key := zeroBlock, cb := zeroBlock, ks := zeroBlock, pos := 0 } := rfl
@[simp] theorem resetEngine_ctxv (s : State) : (resetEngine s).ctxv = false := rfl
@[simp] theorem resetEngine_hoff (s : State) : (resetEngine s).hoff = 0#32 := rfl
@[simp] theorem resetEngine_seed (s : State) : (resetEngine s).seed = 0#32 := rfl
@[simp] theorem resetEngine_len (s : State) : (resetEngine s).len = 0#32 := rfl
@[simp] theorem resetEngine_chunk (s : State) : (resetEngine s).chunk = 0#32 := rfl
@[simp] theorem resetEngine_req (s : State) : (resetEngine s).req = 0#32 := rfl
@[simp] theorem resetEngine_tgot (s : State) : (resetEngine s).tgot = 0#32 := rfl
@[simp] theorem resetEngine_soff (s : State) : (resetEngine s).soff = 0#32 := rfl
@[simp] theorem resetEngine_olen (s : State) : (resetEngine s).olen = 0#32 := rfl
@[simp] theorem resetEngine_obuf (s : State) : (resetEngine s).obuf = [] := rfl
@[simp] theorem resetEngine_tshort (s : State) : (resetEngine s).tshort = false := rfl
@[simp] theorem resetEngine_sshort (s : State) : (resetEngine s).sshort = false := rfl
@[simp] theorem resetEngine_err (s : State) : (resetEngine s).err = false := rfl
@[simp] theorem resetEngine_ecode (s : State) : (resetEngine s).ecode = 0#8 := rfl

end Sys2Proof.Machine
end

