-- ==== Sys2Proof/Laws/Ops.lean ====
section
/-! SUPPORT. What each shared operation can do: one lemma that says when it answers a next state and which. -/

namespace Sys2Proof.Machine

@[simp] theorem check_true (c : FaultCode) (s : State) (go : Result State) : check true c s go = go := rfl
@[simp] theorem check_false (c : FaultCode) (s : State) (go : Result State) :
    check false c s go = .next (recordFault c s) := rfl

/-- A checked command either goes on or leaves only the fault record. -/
theorem check_eq_next {holds : Bool} {c : FaultCode} {s t : State} {go : Result State} :
    check holds c s go = .next t ↔ (holds = true ∧ go = .next t) ∨ (holds = false ∧ t = recordFault c s) := by
  cases holds <;> simp [eq_comm]

/-- `SOPEN` and `DSTREAM` go on exactly when no stream is open, key and counter are loaded and the length fits. -/
theorem checkOpen_eq_next {cap : Word} {s t : State} {go : Result State} :
    checkOpen cap s go = .next t ↔
      (s.ctxv = false ∧ keysLoaded s = true ∧ s.len ≤ cap ∧ go = .next t) ∨
      (s.ctxv = true ∧ t = recordFault .ctxLive s) ∨
      (s.ctxv = false ∧ keysLoaded s = false ∧ t = recordFault .noKey s) ∨
      (s.ctxv = false ∧ keysLoaded s = true ∧ ¬s.len ≤ cap ∧ t = recordFault .range s) := by
  unfold checkOpen
  simp only [check_eq_next]
  cases hc : s.ctxv <;> cases hk : keysLoaded s <;> simp

/-- No answer within the contract is longer than was asked for. -/
theorem sourceAnswer_length {src : Source} {off max : Nat} {d : List Byte} (h : sourceAnswer src off max = .bytes d) :
    d.length ≤ max := by
  unfold sourceAnswer at h
  split at h
  · cases h; simp [fileAnswer]
  · cases h
  · split at h
    · cases h; assumption
    · cases h

/-- Every way a read request can lead to a next state: the source answers and the command goes on, or the engine waits. -/
theorem srcRead_eq_next {space : Space} {off : Word} {max : Nat} {s t : State} {go : List Byte → State → Result State} :
    srcRead space off max s go = .next t ↔
      (∃ d, sourceAnswer (sourceOf space s) off.toNat max = .bytes d ∧
        go d (noteRequest space off max (some d.length) s) = .next t) ∨
      (sourceAnswer (sourceOf space s) off.toNat max = .never ∧ t = awaitAnswer space off max s) := by
  unfold srcRead
  cases h : sourceAnswer (sourceOf space s) off.toNat max <;> simp [eq_comm]

theorem srcRead_bytes {space : Space} {off : Word} {max : Nat} {s : State} {d : List Byte}
    (h : sourceAnswer (sourceOf space s) off.toNat max = .bytes d) (go : List Byte → State → Result State) :
    srcRead space off max s go = go d (noteRequest space off max (some d.length) s) := by
  unfold srcRead; rw [h]

theorem srcRead_never {space : Space} {off : Word} {max : Nat} {s : State}
    (h : sourceAnswer (sourceOf space s) off.toNat max = .never) (go : List Byte → State → Result State) :
    srcRead space off max s go = .next (awaitAnswer space off max s) := by
  unfold srcRead; rw [h]

theorem srcRead_tooLong {space : Space} {off : Word} {max : Nat} {s : State}
    (h : sourceAnswer (sourceOf space s) off.toNat max = .tooLong) (go : List Byte → State → Result State) :
    srcRead space off max s go = .refused (.answerTooLong space) := by
  unfold srcRead; rw [h]

/-- Every way a table load can lead to a next state. -/
theorem loadTable_eq_next {max : Nat} {s t : State} {go : State → Result State} :
    loadTable max s go = .next t ↔
      (∃ d, sourceAnswer s.hdr s.hoff.toNat max = .bytes d ∧
        go (installTable max d (noteRequest .hdr s.hoff max (some d.length) s)) = .next t) ∨
      (sourceAnswer s.hdr s.hoff.toNat max = .never ∧ t = awaitAnswer .hdr s.hoff max s) :=
  srcRead_eq_next

theorem tload_eq_next {max : Nat} {s t : State} :
    tload max s = .next t ↔
      (∃ d, sourceAnswer s.hdr s.hoff.toNat max = .bytes d ∧
        t = installTable max d (noteRequest .hdr s.hoff max (some d.length) s)) ∨
      (sourceAnswer s.hdr s.hoff.toNat max = .never ∧ t = awaitAnswer .hdr s.hoff max s) := by
  simp only [tload, loadTable_eq_next, Host.Outcome.next.injEq, @eq_comm _ t]

theorem kcder_eq_next {p : Prng} {max : Nat} {s t : State} :
    kcder p max s = .next t ↔
      (∃ d, sourceAnswer s.hdr s.hoff.toNat max = .bytes d ∧
        t = derivePair p (installTable max d (noteRequest .hdr s.hoff max (some d.length) s))) ∨
      (sourceAnswer s.hdr s.hoff.toNat max = .never ∧ t = awaitAnswer .hdr s.hoff max s) := by
  simp only [kcder, loadTable_eq_next, Host.Outcome.next.injEq, @eq_comm _ t]

/-- Every way a chunk step can lead to a next state: nothing is wanted and the command goes on, the bytes the source gave
are stored and it goes on, or the engine waits. -/
theorem chunkStep_eq_next {req : Nat} {s t : State} {go : State → Result State} :
    chunkStep req s go = .next t ↔
      (req = 0 ∧ go s = .next t) ∨
      (req ≠ 0 ∧ ∃ d, sourceAnswer s.src s.soff.toNat req = .bytes d ∧
        go (storeChunk req d (noteRequest .src s.soff req (some d.length) s)) = .next t) ∨
      (req ≠ 0 ∧ sourceAnswer s.src s.soff.toNat req = .never ∧ t = awaitAnswer .src s.soff req s) := by
  unfold chunkStep
  by_cases h : req = 0
  · simp [h]
  · simp [h, srcRead_eq_next, sourceOf]

@[simp] theorem ctrCrypt_length (c : Ctx) (d : List Byte) : (ctrCrypt c d).1.length = d.length := by
  induction d generalizing c with
  | nil => rfl
  | cons x rest ih => simp [ctrCrypt, ih]

theorem ctrByte_key (c : Ctx) (x : Byte) : (ctrByte c x).2.key = c.key := by
  unfold ctrByte; split <;> rfl

/-- The key of a context never changes. -/
@[simp] theorem ctrCrypt_key (c : Ctx) (d : List Byte) : (ctrCrypt c d).2.key = c.key := by
  induction d generalizing c with
  | nil => rfl
  | cons x rest ih => simp [ctrCrypt, ih, ctrByte_key]

/-- The register at an offset is the one whose offset it is. -/
theorem regAt_eq_some {width off : Nat} {r : Reg} : regAt width off = some r ↔ width = 32 ∧ off = regOffset r := by
  constructor
  · intro h
    unfold regAt at h
    split_ifs at h with h0 h1 h2 h3 h4 h5
    · refine ⟨by omega, ?_⟩
      have : off / 4 < 12 := by omega
      have e : off = 4 * (off / 4) := by omega
      generalize hq : off / 4 = q at *
      subst e
      interval_cases q <;> cases h <;> rfl
    all_goals
      cases h
      refine ⟨by omega, ?_⟩
      simp only [regOffset, Fin.val_ofNat]
      omega
  · rintro ⟨rfl, rfl⟩
    have hfin : ∀ {m : Nat} [NeZero m] (n : Fin m) (q : Nat), q = n.val → Fin.ofNat m q = n := fun n q h => by
      apply Fin.ext; rw [Fin.val_ofNat, h, Nat.mod_eq_of_lt n.isLt]
    cases r with
    | key n =>
      have := n.isLt
      show regAt 32 (0x030 + 4 * n.val) = _
      unfold regAt
      rw [if_neg (by omega), if_neg (by omega), if_pos (by omega), hfin n _ (by omega)]
    | ictr n =>
      have := n.isLt
      show regAt 32 (0x040 + 4 * n.val) = _
      unfold regAt
      rw [if_neg (by omega), if_neg (by omega), if_neg (by omega), if_pos (by omega), hfin n _ (by omega)]
    | cb n =>
      have := n.isLt
      show regAt 32 (0x050 + 4 * n.val) = _
      unfold regAt
      rw [if_neg (by omega), if_neg (by omega), if_neg (by omega), if_neg (by omega), if_pos (by omega),
        hfin n _ (by omega)]
    | tblw n =>
      have := n.isLt
      show regAt 32 (0x200 + 4 * n.val) = _
      unfold regAt
      rw [if_neg (by omega), if_neg (by omega), if_neg (by omega), if_neg (by omega), if_neg (by omega),
        if_neg (by omega), if_neg (by omega), hfin n _ (by omega)]
    | _ => rfl

@[simp] theorem regAt_regOffset (r : Reg) : regAt 32 (regOffset r) = some r := regAt_eq_some.2 ⟨rfl, rfl⟩

/-- A state meets `keysLoaded` when all eight valid bits are set. -/
theorem keysLoaded_iff {s : State} : keysLoaded s = true ↔ s.keyv = 0b1111#4 ∧ s.ictrv = 0b1111#4 := by
  simp [keysLoaded]

end Sys2Proof.Machine
end

