-- ==== Sys2Proof/Laws/PerInstr.lean ====
section
/-! SUPPORT. One statement per command about its syntax: the word of a well-formed command agrees with the `match` and
`mask` of its row of the opcode table (spec/30_encoding.md R93). -/

namespace Sys2Proof.Laws.TableRow

/-- The `mask` of a command's row. -/
def mask : Instr → Word
  | .kmder _ _ => 0xFFFFFE80#32
  | _ => 0xFFFFFFFF#32

/-- The `match` of a command's row. -/
def pattern : Instr → Word
  | .nop => 0x00000000#32
  | .srst => 0x01000000#32
  | .tinit => 0x10000000#32
  | .tload => 0x11000000#32
  | .gseed => 0x20000000#32
  | .gnext32 => 0x21000000#32
  | .gnext64 => 0x22000000#32
  | .kmder _ _ => 0x30000000#32
  | .kcder => 0x31000000#32
  | .sopen => 0x40000000#32
  | .schunk => 0x41000000#32
  | .sclose => 0x42000000#32
  | .dstream => 0x43000000#32

/-- A well-formed command's word lies in its row. -/
def Statement (i : Instr) : Prop := i.wellFormed = true → encode i &&& mask i = pattern i

theorem nop : Statement .nop := fun _ => by decide
theorem srst : Statement .srst := fun _ => by decide
theorem tinit : Statement .tinit := fun _ => by decide
theorem tload : Statement .tload := fun _ => by decide
theorem gseed : Statement .gseed := fun _ => by decide
theorem gnext32 : Statement .gnext32 := fun _ => by decide
theorem gnext64 : Statement .gnext64 := fun _ => by decide
theorem kmder (idx : Nat) (dst : Dst) : Statement (.kmder idx dst) := fun h => by
  have hi : idx < 128 := by simpa [Instr.wellFormed] using h
  have all : ∀ k : Fin 128, encode (.kmder k.val .key) &&& 0xFFFFFE80#32 = 0x30000000#32 ∧
      encode (.kmder k.val .ictr) &&& 0xFFFFFE80#32 = 0x30000000#32 := by decide
  cases dst
  · exact (all ⟨idx, hi⟩).1
  · exact (all ⟨idx, hi⟩).2
theorem kcder : Statement .kcder := fun _ => by decide
theorem sopen : Statement .sopen := fun _ => by decide
theorem schunk : Statement .schunk := fun _ => by decide
theorem sclose : Statement .sclose := fun _ => by decide
theorem dstream : Statement .dstream := fun _ => by decide

end Sys2Proof.Laws.TableRow
end

