-- ==== Sys2Proof/Laws/Step.lean ====
section
/-! SUPPORT. What a step is for each kind of host access. -/

namespace Sys2Proof.Machine

theorem step_waiting {s : State} (h : s.waiting = true) : step s = .next (waitForReset s) := by
  unfold step; rw [if_pos h]

theorem step_idle {s : State} (hw : s.waiting = false) (h : s.host = []) : step s = .next s := by
  cases s; cases hw; cases h; rfl

theorem step_access {s : State} {a : HostAccess} {rest : List HostAccess} (hw : s.waiting = false)
    (h : s.host = a :: rest) :
    step s = match hostPort a (takeAccess rest s) with
      | .command w t => runCommand w t
      | .finished t => .next t := by
  cases s; cases hw; cases h; rfl

/-- A waiting engine stays as it is, or a hardware reset among the coming accesses ends the wait. -/
theorem waitForReset_cases (s : State) :
    (.hardReset ∉ s.host ∧ waitForReset s = s) ∨
    ∃ lost rest, s.host = lost ++ .hardReset :: rest ∧ .hardReset ∉ lost ∧
      waitForReset s = resetEngine (takeAccess rest s) := by
  have split : ∀ l : List HostAccess,
      (.hardReset ∉ l ∧ l.dropWhile (fun a => decide (a ≠ .hardReset)) = []) ∨
      ∃ lost rest, l = lost ++ .hardReset :: rest ∧ .hardReset ∉ lost ∧
        l.dropWhile (fun a => decide (a ≠ .hardReset)) = .hardReset :: rest := by
    intro l
    induction l with
    | nil => exact .inl ⟨List.not_mem_nil, rfl⟩
    | cons a l ih =>
      by_cases ha : a = .hardReset
      · exact .inr ⟨[], l, by rw [ha]; rfl, List.not_mem_nil, by rw [ha]; rfl⟩
      · rw [List.dropWhile_cons_of_pos (by simpa using ha)]
        rcases ih with ⟨hn, hd⟩ | ⟨lost, rest, hl, hn, hd⟩
        · exact .inl ⟨by simp [hn, Ne.symm ha], hd⟩
        · exact .inr ⟨a :: lost, rest, by rw [hl]; rfl, by simp [hn, Ne.symm ha], hd⟩
  unfold waitForReset
  rcases split s.host with ⟨hn, hd⟩ | ⟨lost, rest, hl, hn, hd⟩
  · exact .inl ⟨hn, by rw [hd]⟩
  · exact .inr ⟨lost, rest, hl, hn, by rw [hd]⟩

@[simp] theorem hostPort_command (w : Word) (s : State) : hostPort (commandWrite w) s = .command w s := by
  rw [commandWrite, hostPort, hostWrite, regAt_regOffset]; rfl

theorem step_command {s : State} {w : Word} {rest : List HostAccess} (hw : s.waiting = false)
    (h : s.host = commandWrite w :: rest) : step s = runCommand w (takeAccess rest s) := by
  rw [step_access hw h, hostPort_command]

/-- Everything a step that answers a next state can have been: waiting, idling, a command, an illegal word, or a finished
access. -/
theorem step_cases {s t : State} (h : step s = .next t) :
    (s.waiting = true ∧ t = waitForReset s) ∨
    (s.waiting = false ∧ s.host = [] ∧ t = s) ∨
    (s.waiting = false ∧ ∃ a rest, s.host = a :: rest ∧
      ((∃ w u, hostPort a (takeAccess rest s) = .command w u ∧
          ((∃ i, decode w = .ok i ∧ exec i u = .next t) ∨ (∃ e, decode w = .error e ∧ t = recordFault .illCmd u))) ∨
        hostPort a (takeAccess rest s) = .finished t)) := by
  cases hw : s.waiting with
  | true => rw [step_waiting hw] at h; cases h; exact .inl ⟨rfl, rfl⟩
  | false =>
    cases hs : s.host with
    | nil => rw [step_idle hw hs] at h; cases h; exact .inr (.inl ⟨rfl, rfl, rfl⟩)
    | cons a rest =>
      refine .inr (.inr ⟨rfl, a, rest, rfl, ?_⟩)
      rw [step_access hw hs] at h
      cases hp : hostPort a (takeAccess rest s) with
      | finished u => rw [hp] at h; cases h; exact .inr rfl
      | command w u =>
        rw [hp] at h
        refine .inl ⟨w, u, rfl, ?_⟩
        simp only [runCommand] at h
        cases hd : decode w with
        | ok i => rw [hd] at h; exact .inl ⟨i, rfl, h⟩
        | error e => rw [hd] at h; cases h; exact .inr ⟨e, rfl, rfl⟩

/-- A command reaches the engine with the host's access taken and nothing else changed. -/
theorem hostPort_eq_command {a : HostAccess} {s u : State} {w : Word} (h : hostPort a s = .command w u) :
    a = commandWrite w ∧ u = s := by
  cases a with
  | write width off v =>
    rw [hostPort, hostWrite] at h
    cases hr : regAt width off with
    | none => rw [hr] at h; cases h
    | some r =>
      rw [hr] at h
      obtain ⟨rfl, rfl⟩ := regAt_eq_some.1 hr
      cases r <;> simp only [writeReg] at h <;> cases h
      exact ⟨rfl, rfl⟩
  | read width off => cases h
  | readOut o => cases h
  | hardReset => cases h

end Sys2Proof.Machine
end

