-- ==== Sys2Proof/Laws/Stream.lean ====
section
/-! SUPPORT. What one byte of a stream does to a context, the two ways an answer of the reference environment can be cut,
and where the preconditions of the stream commands hold. -/

namespace Sys2Proof.Machine

/-- The context `x` runs under key `k` and counter `c` with `m` keystream bytes used (spec/10_state.md R27(a) to (d)). -/
structure CtxRuns (k c : Block) (m : Nat) (x : Ctx) : Prop where
  key : x.key = k
  counter : be128 x.cb = be128 c + BitVec.ofNat 128 ((m + 15) / 16)
  cursor : x.pos.val = if m % 16 = 0 then 16 else m % 16
  keystream : m % 16 ≠ 0 → x.ks = aesEnc k (bytes128 (be128 c + BitVec.ofNat 128 (m / 16)))

theorem contextRuns_iff {k c : Block} {s : State} :
    ContextRuns k c s ↔ s.ctxv = true ∧ CtxRuns k c s.soff.toNat s.ctx ∧ s.soff ≤ s.olen :=
  ⟨fun h => ⟨h.isOpen, ⟨h.key, h.counter, h.cursor, h.keystream⟩, h.extent⟩,
    fun ⟨h, r, e⟩ => ⟨h, r.key, r.counter, r.cursor, r.keystream, e⟩⟩

/-- A fresh context runs from byte 0. -/
theorem ctxRuns_init (k c : Block) : CtxRuns k c 0 (ctxInit k c) :=
  ⟨rfl, by simp [ctxInit], rfl, fun h => absurd rfl h⟩

theorem block_getElem_congr {b : Block} {i j : Nat} (hi : i < 16) (hj : j < 16) (h : i = j) : b[i] = b[j] := by
  subst h; rfl

/-- The counter block of a context with no keystream left is the next block's. -/
theorem ctxRuns_block {k c : Block} {m : Nat} {x : Ctx} (h : CtxRuns k c m x) (hm : m % 16 = 0) :
    x.cb = bytes128 (be128 c + BitVec.ofNat 128 (m / 16)) := by
  rw [← show (m + 15) / 16 = m / 16 by omega, ← h.counter, bytes128_be128]

/-- Making a keystream block where none is left: its bytes and the counter after it. -/
theorem ctxRuns_nextKeystream {k c : Block} {m : Nat} {x : Ctx} (h : CtxRuns k c m x) (hm : m % 16 = 0) :
    (nextKeystream x).ks = aesEnc k (bytes128 (be128 c + BitVec.ofNat 128 (m / 16))) ∧
      be128 (nextKeystream x).cb = be128 c + BitVec.ofNat 128 (m / 16 + 1) := by
  constructor
  · rw [nextKeystream, h.key, ctxRuns_block h hm]
  · rw [nextKeystream]
    simp only [inc128, be128_bytes128]
    rw [ctxRuns_block h hm, be128_bytes128, BitVec.add_assoc]
    congr 1
    exact (BitVec.ofNat_add (m / 16) 1).symm

/-- One byte meets the keystream byte of its number, and the context runs on from the next. -/
theorem ctxRuns_ctrByte {k c : Block} {m : Nat} {x : Ctx} (h : CtxRuns k c m x) (d : Byte) :
    (ctrByte x d).1 = d ^^^ keystreamByte k c m ∧ CtxRuns k c (m + 1) (ctrByte x d).2 := by
  have hc := h.cursor
  unfold ctrByte
  split
  · rename_i hp
    have hm : m % 16 ≠ 0 := fun h0 => by rw [if_pos h0] at hc; omega
    rw [if_neg hm] at hc
    refine ⟨?_, h.key, ?_, ?_, fun _ => ?_⟩
    · simp only [keystreamByte, h.keystream hm]
      congr 1
      exact block_getElem_congr _ _ hc
    · rw [h.counter, show (m + 1 + 15) / 16 = (m + 15) / 16 by omega]
    · show x.pos.val + 1 = _
      split <;> omega
    · rw [h.keystream hm, show (m + 1) / 16 = m / 16 by omega]
  · rename_i hp
    have hm : m % 16 = 0 := by by_contra h0; rw [if_neg h0] at hc; omega
    have h1 : (m + 1) % 16 = 1 := by omega
    have h2 : (m + 1 + 15) / 16 = m / 16 + 1 := by omega
    have h3 : (m + 1) / 16 = m / 16 := by omega
    obtain ⟨hks, hcb⟩ := ctxRuns_nextKeystream h hm
    refine ⟨?_, h.key, ?_, ?_, fun _ => ?_⟩
    · simp only [keystreamByte, hks]
      congr 1
      exact block_getElem_congr _ _ hm.symm
    · simp only [hcb, h2]
    · simp only [h1]; rfl
    · simp only [hks, h3]

/-- A full answer of the reference environment is the first part of a longer one. -/
theorem fileAnswer_split {data : List Byte} {off m left : Nat} (hm : m ≤ left) (h : (fileAnswer data off m).length = m) :
    fileAnswer data off left = fileAnswer data off m ++ fileAnswer data (off + m) (left - m) := by
  unfold fileAnswer
  rw [← List.drop_drop, ← List.take_add]; congr 1; omega

/-- A short answer of the reference environment is all there is. -/
theorem fileAnswer_short {data : List Byte} {off m left : Nat} (hm : m ≤ left) (h : (fileAnswer data off m).length < m) :
    fileAnswer data off left = fileAnswer data off m := by
  unfold fileAnswer at *
  rw [List.length_take] at h
  rw [List.take_of_length_le (by omega), List.take_of_length_le (by omega)]

/-- Where no precondition of `SOPEN` and `DSTREAM` fails, they go on. -/
theorem checkOpen_of_openFault {cap : Word} {s : State} (h : openFault cap s = none) (go : Result State) :
    checkOpen cap s go = go := by
  unfold openFault at h
  split_ifs at h with h1 h2 h3
  have hk : keysLoaded s = true := keysLoaded_iff.2 (by tauto)
  have hl : s.len ≤ cap := by simpa using h3
  simp [checkOpen, h1, hk, hl]

end Sys2Proof.Machine
end

