-- ==== Sys2Proof/Tests/Slice0.lean ====
section
/-! SUPPORT. Tests. `test_` theorems check one operation or one step against the words and vectors of
spec/95_test_vectors.md or a hand reading of a rule; `met_` theorems show that the hypotheses of a statement are met. -/

namespace Sys2Proof.Tests

set_option Elab.async false

open Sys2Proof.Machine

/-! ### Helpers -/

/-- What a next state shows; nothing where the machine stopped. -/
def look {α : Type} (f : State → α) : Result State → Option α
  | .next t => some (f t)
  | .fault _ => none
  | .refused _ => none

theorem next_of_look {f : State → Bool} {r : Result State} (h : look f r = some true) : ∃ t, r = .next t ∧ f t = true := by
  cases r with
  | next t => exact ⟨t, rfl, by simpa [look] using h⟩
  | fault _ => cases h
  | refused _ => cases h

/-- The step of section 3 of spec/95_test_vectors.md. -/
def lcg (g : Nat) : Nat := (g * 1664525 + 1013904223) % 2 ^ 32

/-- `TESTGEN`, the generator of the vectors (section 3 of spec/95_test_vectors.md). -/
def testgen : Prng where
  seed v := v.toNat
  next32 g := (BitVec.ofNat 32 (lcg g), lcg g)
  next64 g := (BitVec.ofNat 64 (lcg g * 2 ^ 32 + lcg (lcg g)), lcg (lcg g))

/-- `data[p] = (7p + 3) mod 256`, the header of section 2.2 of spec/95_test_vectors.md, its first `n` bytes. -/
def header (n : Nat) : List Byte := (List.range n).map fun p => BitVec.ofNat 8 (7 * p + 3)

/-- `K1` and `C1` of section 2.5 of spec/95_test_vectors.md. -/
def k1 : Block := bytes128 0x2b7e151628aed2a6abf7158809cf4f3c#128
def c1 : Block := bytes128 0xf0f1f2f3f4f5f6f7f8f9fafbfcfdfeff#128

/-- Key and counter loaded, a length, and a ciphertext source of the given scripted replies and file. -/
def keyed (len : Word) (replies : List Reply) (data : List Byte) : State :=
  { State.reset with key := k1, keyv := 0b1111#4, ictr := c1, ictrv := 0b1111#4, len := len, src := ⟨replies, data⟩ }

/-- The first five bytes of `CT` of section 2.5. -/
def ct5 : List Byte := [0x87#8, 0x4d#8, 0x61#8, 0x91#8, 0xb6#8]

/-- A stream of `len` bytes just opened, a request size set. -/
def opened (len req : Word) (replies : List Reply) (data : List Byte) : State :=
  { openContext (keyed len replies data) with req := req }

/-- A header source that answers its first request with `d`. -/
def withHeader (d : List Byte) : State := { State.reset with hdr := ⟨[.bytes d], []⟩ }

/-- An engine whose `SCHUNK` waits for an answer, with what the host and the platform have queued. -/
def waitingFor (accesses : List HostAccess) : State :=
  { awaitAnswer .src 0#32 4 (opened 4#32 9#32 [.never] []) with host := accesses }

/-- The host makes the given accesses. -/
def host (s : State) (accesses : List HostAccess) : State := { s with host := accesses }

/-! ### Well-formed commands -/

theorem test_wellFormed_kmder_127 : (Instr.kmder 127 .ictr).wellFormed = true := by decide
theorem test_illFormed_kmder_128 : (Instr.kmder 128 .key).wellFormed = false := by decide

/-! ### Decoding: words written out bit by bit from R91 to R93 of spec/30_encoding.md -/

theorem test_decode_nop : decode 0b00000000000000000000000000000000#32 = .ok .nop := by decide
theorem test_decode_srst : decode 0b00000001000000000000000000000000#32 = .ok .srst := by decide
theorem test_decode_tinit : decode 0b00010000000000000000000000000000#32 = .ok .tinit := by decide
theorem test_decode_tload : decode 0b00010001000000000000000000000000#32 = .ok .tload := by decide
theorem test_decode_gseed : decode 0b00100000000000000000000000000000#32 = .ok .gseed := by decide
theorem test_decode_gnext32 : decode 0b00100001000000000000000000000000#32 = .ok .gnext32 := by decide
theorem test_decode_gnext64 : decode 0b00100010000000000000000000000000#32 = .ok .gnext64 := by decide
theorem test_decode_kmder_key : decode 0b00110000000000000000000000000001#32 = .ok (.kmder 1 .key) := by decide
theorem test_decode_kmder_ictr : decode 0b00110000000000000000000101000000#32 = .ok (.kmder 64 .ictr) := by decide
theorem test_decode_kcder : decode 0b00110001000000000000000000000000#32 = .ok .kcder := by decide
theorem test_decode_sopen : decode 0b01000000000000000000000000000000#32 = .ok .sopen := by decide
theorem test_decode_schunk : decode 0b01000001000000000000000000000000#32 = .ok .schunk := by decide
theorem test_decode_sclose : decode 0b01000010000000000000000000000000#32 = .ok .sclose := by decide
theorem test_decode_dstream : decode 0b01000011000000000000000000000000#32 = .ok .dstream := by decide
theorem test_decode_bit7_illegal : decode 0b00110000000000000000000010000000#32 = .error .zeroFieldSet := by decide
theorem test_decode_bit9_illegal : decode 0b00110000000000000000001000000000#32 = .error .zeroFieldSet := by decide
theorem test_decode_nop_low_bit_illegal : decode 0b00000000000000000000000000000001#32 = .error .zeroFieldSet := by decide
theorem test_decode_unassigned : decode 0b01000100000000000000000000000000#32 = .error .unassignedOpcode := by decide
/-- V-ENC-2. -/
theorem test_encode_kmder : encode (.kmder 127 .ictr) = 0x3000017F#32 := by decide
theorem test_decodeTableWord : decodeTableWord 32 0x30000105 = some (.kmder 5 .ictr) := by decide
theorem test_fetched_word_runs :
    look (·.tblv) (step (State.reset.withFetchWord 32 0x10000000)) = some true := by decide +kernel

/-! ### Commands -/

/-- V-CTL-2. -/
theorem test_nop_status : look statusWord (exec .nop State.reset) = some 0x00000000#32 := by decide +kernel
/-- V-CTL-3. -/
theorem test_srst_hoff : look (·.hoff) (exec .srst { State.reset with hoff := 0xDEADBEEF#32 }) = some 0#32 := by decide +kernel
/-- V-CTL-6. -/
theorem test_srst_status :
    look statusWord (exec .srst { opened 3#32 1#32 [] [] with tblv := true, gv := true, err := true, ecode := 1#8 }) =
      some 0x00000000#32 := by decide +kernel
/-- V-TL-5. -/
theorem test_tinit : look (fun t => (statusWord t, t.tbl[5], t.trace)) (exec .tinit State.reset) =
    some (0x00000001#32, 0#32, []) := by decide +kernel
/-- V-TL-1. -/
theorem test_tload_full :
    look (fun t => (t.tgot, statusWord t, t.tbl[0], t.tbl[31], t.tbl[32]))
        (tload 128 { State.reset with hoff := 0x10#32, hdr := ⟨[], header 144⟩ }) =
      some (128#32, 0x00000001#32, 0x88817a73#32, 0xece5ded7#32, 0#32) := by decide +kernel
/-- V-TL-2. -/
theorem test_tload_short :
    look (fun t => (t.tgot, statusWord t, t.tbl[0], t.tbl[1], t.tbl[2]))
        (tload 128 { State.reset with hoff := 0x10#32, hdr := ⟨[], header 22⟩ }) =
      some (6#32, 0x00000009#32, 0x88817A73#32, 0x0000968F#32, 0#32) := by decide +kernel
/-- V-GEN-4, the first draw. -/
theorem test_gseed_draw64 :
    (draw64 testgen (seedGenerator testgen { State.reset with seed := 0xCAFEBABE#32 })).gout = 0x46542305c025b8a0#64 := by
  decide +kernel
/-- V-GEN-2, the second draw. -/
theorem test_draw32_clears_high_half :
    (draw32 testgen (draw64 testgen (seedGenerator testgen State.reset))).gout = 0x00000000d1ccf6e9#64 := by decide +kernel
/-- V-GEN-9. -/
theorem test_gnext32_unseeded : look statusWord (exec .gnext32 State.reset) = some 0x00040020#32 := by decide +kernel
/-- V-FLT-6. -/
theorem test_gnext64_unseeded : look statusWord (exec .gnext64 State.reset) = some 0x00040020#32 := by decide +kernel
/-- V-KM-4. -/
theorem test_km_zero_table : (km testgen zeroTable 0).1 = bytes128 0xd1aa629f57a38194cbbc9de20183b54f#128 := by decide +kernel
/-- V-KM-7, the ring at 127. -/
theorem test_km_ring :
    (km testgen (((zeroTable.set 127 3#32).set 0 4#32).set 3 0xDEADBEEF#32 |>.set 4 7#32) 127).1 =
      bytes128 0x4e572e87913fbf503f4867308c374fac#128 := by decide +kernel
/-- V-KM-8. -/
theorem test_kmder_without_table : look statusWord (exec (.kmder 0 .key) State.reset) = some 0x00030020#32 := by decide +kernel
/-- P1. -/
theorem test_kcder_pair :
    look (fun t => (t.key, t.ictr, statusWord t))
        (kcder testgen 128 { State.reset with hoff := 0x10#32, hdr := ⟨[], header 144⟩ }) =
      some (bytes128 0xb54f62a5868a663f0343fb9c73225705#128, bytes128 0xd1aa629f57a38194cbbc9de20183b54f#128,
        0x0000FF00#32) := by decide +kernel
/-- V-CTR-7. -/
theorem test_sopen :
    look (fun t => (blockWord t.ctx.cb 3, t.ctx.pos.val, statusWord t, t.trace)) (sopen 64#32 (keyed 64#32 [] [])) =
      some (0xFFFEFDFC#32, 16, 0x0000FF04#32, []) := by decide +kernel
/-- V-FLT-11: one byte more than the capacity. -/
theorem test_sopen_range : look statusWord (sopen 4096#32 (keyed 4097#32 [] [])) = some 0x0008FF20#32 := by decide +kernel
/-- P3, its first chunk. -/
theorem test_schunk :
    look (fun t => (t.obuf, t.soff, t.ctx.pos.val, blockWord t.ctx.cb 3)) (exec .schunk (opened 64#32 5#32 [] (ct5 ++ ct5))) =
      some ([(0, 0x6b#8), (1, 0xc1#8), (2, 0xbe#8), (3, 0xe2#8), (4, 0x2e#8)], 5#32, 5, 0x00FFFDFC#32) := by decide +kernel
/-- V-CTR-12. -/
theorem test_schunk_zero_request :
    look (fun t => (t.trace, t.soff, t.sshort)) (exec .schunk (opened 64#32 0#32 [] ct5)) = some ([], 0#32, false) := by
  decide +kernel
/-- R188 of spec/45_ctr_stream.md. -/
theorem test_sclose : look (fun t => (t.ctxv, t.olen)) (exec .sclose (opened 64#32 0#32 [] [])) = some (false, 64#32) := by
  decide +kernel
/-- V-FLT-9. -/
theorem test_sclose_without_context : look statusWord (exec .sclose State.reset) = some 0x00060020#32 := by decide +kernel
/-- V-CTR-6. -/
theorem test_dstream_empty_source :
    look (fun t => (t.obuf, t.soff, statusWord t, t.trace)) (dstream 16#32 4096 524288 (keyed 16#32 [] [])) =
      some ([], 0#32, 0x0000FF10#32, [⟨.src, 0#32, 16, some 0⟩]) := by decide +kernel
/-- V-CTR-1 cut to five bytes, in chunks of at most 2 bytes. -/
theorem test_dstream_chunks :
    look (fun t => (t.obuf, statusWord t, t.trace.map fun r => (r.off, r.n)))
        (dstream 64#32 2 2 (keyed 5#32 [] ct5)) =
      some ([(0, 0x6b#8), (1, 0xc1#8), (2, 0xbe#8), (3, 0xe2#8), (4, 0x2e#8)], 0x0000FF00#32,
        [(0#32, some 2), (2#32, some 2), (4#32, some 1)]) := by decide +kernel

/-! ### Host accesses -/

/-- V-CTL-4. -/
theorem test_write_key1 :
    look (fun t => (statusWord t, t.key[4], t.key[7])) (step (host State.reset [.write 32 0x034 0x11223344#32])) =
      some (0x00000200#32, 0x44#8, 0x11#8) := by decide +kernel
/-- V-FLT-2. -/
theorem test_read_cmd_faults : look (fun t => (statusWord t, t.ret)) (step (host State.reset [.read 32 0x000])) =
    some (0x00020020#32, .word 0#32) := by decide +kernel
/-- V-FLT-4, a 16-bit read. -/
theorem test_narrow_read_faults : look statusWord (step (host State.reset [.read 16 0x004])) = some 0x00020020#32 := by
  decide +kernel
/-- V-FLT-12. -/
theorem test_read_unloaded_counter : look statusWord (step (host State.reset [.read 32 0x04C])) = some 0x00090020#32 := by
  decide +kernel
/-- V-FLT-13. -/
theorem test_read_owned_buffer :
    look statusWord (step (host (opened 16#32 0#32 [] []) [.readOut 0#32])) = some 0x000AFF24#32 := by decide +kernel

/-! ### A source that never answers (R249 of spec/70_reset_and_hazards.md, R73 of spec/20_memory.md) -/

/-- The second request of a stream is not answered: both requests are events, and the stream is still open. -/
theorem test_dstream_waits :
    look (fun t => (t.trace, t.waiting, t.ctxv, t.soff)) (dstream 64#32 2 2 (keyed 5#32 [.bytes [0x87#8, 0x4d#8], .never] [])) =
      some ([⟨.src, 0#32, 2, some 2⟩, ⟨.src, 2#32, 2, none⟩], true, true, 2#32) := by decide +kernel
/-- Not even `SRST` is served while the engine waits. -/
theorem test_waiting_serves_nothing :
    look (fun t => (t.waiting, t.ctxv)) (step (waitingFor [.write 32 0x000 0x01000000#32])) = some (true, true) := by
  decide +kernel
/-- A hardware reset ends the wait. -/
theorem test_reset_ends_wait :
    look (fun t => (t.waiting, t.ctxv, t.host)) (step (waitingFor [.hardReset, .read 32 0x004])) =
      some (false, false, [.read 32 0x004]) := by decide +kernel

/-! ### AES (V-AES-1, V-INC) -/

theorem test_round_key_10 :
    roundKey (expandKey k1) 10 = bytes128 0xd014f9a8c9ee2589e13f0cc8b6630ca6#128 := by decide +kernel
theorem test_inc_carries :
    inc128 (bytes128 0x01ffffffffffffffffffffffffffffff#128) = bytes128 0x02000000000000000000000000000000#128 := by
  decide +kernel

/-! ### Hypotheses that are met -/

theorem met_DecodeOfEncodeIsTheCommand :
    (Instr.kmder 0 .key).wellFormed = true ∧ (Instr.kmder 127 .ictr).wellFormed = true ∧ Instr.dstream.wellFormed = true := by
  decide

theorem met_DecodedWordIsTheOnlyEncoding : decode 0x3000017F#32 = .ok (.kmder 127 .ictr) := by decide

theorem met_StepRunsTheDecodedCommand :
    Serves (host State.reset [.write 32 0x000 0x01000000#32]) (.write 32 0x000 0x01000000#32) [] ∧
    decode 0x01000000#32 = .ok .srst ∧ State.reset.waiting = false ∧ State.reset.host = [] := by decide

theorem met_IllegalWordRecordsIllCmd :
    Serves (host State.reset [.write 32 0x000 0x00000001#32]) (.write 32 0x000 0x00000001#32) [] ∧
    ∀ i : Instr, i.wellFormed = true → encode i ≠ 0x00000001#32 := by
  refine ⟨⟨rfl, rfl⟩, fun i hw => ?_⟩
  cases i with
  | kmder idx dst =>
    have all : ∀ k : Fin 128, ∀ d ∈ [Dst.key, .ictr], encode (.kmder k.val d) ≠ 0x00000001#32 := by decide +kernel
    exact all ⟨idx, by simpa [Instr.wellFormed] using hw⟩ dst (by cases dst <;> simp)
  | _ => decide

theorem met_ResetValues : exec .srst (keyed 3#32 [] ct5) = .next (resetEngine (keyed 3#32 [] ct5)) := rfl

theorem met_ResetByCommandAndByHardware : (host (keyed 3#32 [] ct5) [.hardReset]).host = .hardReset :: [] := rfl

/-- An exhausted source, a short answer and a full answer. -/
theorem met_TloadInstallsTheAnsweredBytes :
    Answers State.reset.hdr 0xFFFFFFFF#32 Config.tblLoadBytes [] ∧
    Answers (withHeader ct5).hdr 0x10#32 Config.tblLoadBytes ct5 ∧
    Answers (withHeader (List.replicate Config.tblLoadBytes 0x5a#8)).hdr 0#32 Config.tblLoadBytes
      (List.replicate Config.tblLoadBytes 0x5a#8) := by
  have h : 5 ≤ Config.tblLoadBytes := by unfold Config.tblLoadBytes; split <;> decide
  exact ⟨by simp [Answers, sourceAnswer, fileAnswer, State.reset], by simpa [Answers, sourceAnswer, withHeader, ct5] using h,
    by simp [Answers, sourceAnswer, withHeader]⟩

theorem met_KcderDerivesThePair : Answers State.reset.hdr 0xFFFFFFFF#32 Config.tblLoadBytes [] ∧
    Answers (withHeader ct5).hdr 0x10#32 Config.tblLoadBytes ct5 :=
  ⟨met_TloadInstallsTheAnsweredBytes.1, met_TloadInstallsTheAnsweredBytes.2.1⟩

theorem met_KcderIsLoadThenDerivations : Answers State.reset.hdr 0xFFFFFFFF#32 Config.tblLoadBytes [] ∧
    Answers (withHeader ct5).hdr 0x10#32 Config.tblLoadBytes ct5 :=
  ⟨met_TloadInstallsTheAnsweredBytes.1, met_TloadInstallsTheAnsweredBytes.2.1⟩

theorem met_PlacementLoopMakesTheTable :
    ([] : List Byte).length ≤ 512 ∧ (List.replicate 512 0xff#8 : List Byte).length ≤ 512 :=
  ⟨Nat.zero_le _, List.length_replicate.le⟩

/-- Both byte counts answer, in full and not at all; which of the two the engine has is open (log 2). -/
theorem met_DefaultLoadLeavesUpperWordsZero :
    Answers (withHeader (header 128)).hdr 0#32 128 (header 128) ∧ Answers State.reset.hdr 0#32 128 [] := by decide +kernel

theorem met_SilentSourceWaitsForAHardwareReset :
    sourceAnswer ⟨[.never], []⟩ 0 Config.tblLoadBytes = .never ∧
    sourceAnswer ⟨[.bytes (List.replicate 513 0#8)], []⟩ 0 Config.tblLoadBytes = .tooLong ∧
    (opened 4#32 9#32 [.never] []).ctxv = true ∧
    min (opened 4#32 9#32 [.never] []).req.toNat
      ((opened 4#32 9#32 [.never] []).olen.toNat - (opened 4#32 9#32 [.never] []).soff.toNat) = 4 ∧
    sourceAnswer (opened 4#32 9#32 [.never] []).src 0 4 = .never ∧
    sourceAnswer (opened 4#32 9#32 [.bytes ct5] []).src 0 4 = .tooLong ∧
    (openFault 4#32 (keyed 4#32 [.never] ct5) = none ∧ (keyed 4#32 [.never] ct5).len ≠ 0#32 ∧
      (keyed 4#32 [.never] ct5).src.replies = .never :: []) ∧
    ((waitingFor [.readOut 0#32]).waiting = true ∧ .hardReset ∉ (waitingFor [.readOut 0#32]).host) ∧
    (waitingFor [.readOut 0#32, .hardReset]).host = [.readOut 0#32] ++ .hardReset :: [] := by
  have h : Config.tblLoadBytes < 513 := by unfold Config.tblLoadBytes; split <;> decide
  have long : ∀ d : List Byte, d.length = 513 → sourceAnswer ⟨[.bytes d], []⟩ 0 Config.tblLoadBytes = .tooLong :=
    fun d hd => by simpa [sourceAnswer, hd] using h
  exact ⟨rfl, long _ List.length_replicate, rfl, by decide, rfl, by decide, by decide, by decide, rfl⟩

theorem met_GeneratorCommandsDraw :
    (seedGenerator testgen State.reset).gv = true ∧ State.reset.gv = false := by decide

theorem met_DrawsDependOnTheSeedOnly :
    State.reset.seed = (keyed 3#32 [] ct5).seed ∧
    exec .gseed State.reset = .next (seedGenerator Config.prng State.reset) ∧
    exec .gseed (keyed 3#32 [] ct5) = .next (seedGenerator Config.prng (keyed 3#32 [] ct5)) := ⟨rfl, rfl, rfl⟩

/-- Two tables that differ in word 5 agree on the four words index 127 reads. -/
theorem met_KeyMaterialReadsFourWords :
    zeroTable[127] = (zeroTable.set 5 1#32)[127] ∧ zeroTable[0] = (zeroTable.set 5 1#32)[0] ∧
    zeroTable[zeroTable[127].toNat % 128] = (zeroTable.set 5 1#32)[zeroTable[127].toNat % 128] ∧
    zeroTable[zeroTable[0].toNat % 128] = (zeroTable.set 5 1#32)[zeroTable[0].toNat % 128] ∧
    zeroTable ≠ zeroTable.set 5 1#32 := by decide +kernel

theorem met_KmderDerivesKeyMaterial :
    127 < 128 ∧ { State.reset with tblv := true }.tblv = true ∧ State.reset.tblv = false := by decide

theorem met_KeyMaterialIsPure :
    (∃ s u s' u' : State, s ≠ u ∧ s.tblv = true ∧ u.tblv = true ∧ s.tbl = u.tbl ∧
      exec (.kmder 127 .key) s = .next s' ∧ exec (.kmder 127 .key) u = .next u') ∧
    ∃ s u s' u' : State, s ≠ u ∧ Answers s.hdr s.hoff Config.tblLoadBytes ct5 ∧
      Answers u.hdr u.hoff Config.tblLoadBytes ct5 ∧ exec .kcder s = .next s' ∧ exec .kcder u = .next u' := by
  refine ⟨⟨{ State.reset with tblv := true }, { State.reset with tblv := true, gv := true }, _, _, by decide +kernel, rfl,
    rfl, rfl, rfl, rfl⟩, ⟨withHeader ct5, { withHeader ct5 with gv := true }, ?_⟩⟩
  have h : Answers (withHeader ct5).hdr (withHeader ct5).hoff Config.tblLoadBytes ct5 :=
    met_TloadInstallsTheAnsweredBytes.2.1
  exact ⟨_, _, by decide +kernel, h, h, kcder_eq_next.2 (.inl ⟨ct5, h, rfl⟩), kcder_eq_next.2 (.inl ⟨ct5, h, rfl⟩)⟩

/-- The carry stops at byte 0, in the middle, at byte 15, and nowhere. -/
theorem met_IncrementIsBigEndian :
    (∀ j : Fin 16, ∃ b : Block, b[j] ≠ 0xff#8 ∧ ∀ i : Fin 16, j < i → b[i] = 0xff#8) ∧
    ∃ b : Block, ∀ i : Fin 16, b[i] = 0xff#8 :=
  ⟨fun j => ⟨Vector.ofFn fun i => if j < i then 0xff#8 else 0x00#8, by simp, fun i h => by simp [h]⟩,
    ⟨Vector.replicate 16 0xff#8, fun i => by simp⟩⟩

theorem met_KeystreamClosedForm : 0 < ct5.length ∧ 16 < (header 17).length := by decide

theorem met_ChunkSizeIsClamped : 1 ≤ 1 ∧ 1 ≤ 2 ^ 32 - 1 := by decide

/-- The four cases: a stream open, a word missing, a length one above the capacity, and none of these, also at the
capacity and with the engine's own capacity. -/
theorem met_SopenOpensAStream :
    openFault 4#32 (opened 4#32 0#32 [] []) = some .ctxLive ∧
    openFault 4#32 { keyed 4#32 [] [] with keyv := 0b0111#4 } = some .noKey ∧
    openFault 4#32 (keyed 5#32 [] []) = some .range ∧ openFault 4#32 (keyed 4#32 [] []) = none ∧
    openFault Config.obufCap (keyed 0#32 [] []) = none := by
  refine ⟨by decide, by decide, by decide, by decide, ?_⟩
  simp [openFault, keyed, State.reset]

/-- No stream; nothing asked; nothing left; a full answer; a short answer to a request cut to what is left. -/
theorem met_SchunkRunsOneChunk :
    State.reset.ctxv = false ∧
    ((opened 4#32 0#32 [] []).ctxv = true ∧ (opened 4#32 0#32 [] []).req = 0#32) ∧
    ((opened 0#32 7#32 [] []).ctxv = true ∧ (opened 0#32 7#32 [] []).olen ≤ (opened 0#32 7#32 [] []).soff) ∧
    (let s := opened 9#32 5#32 [.bytes ct5] []
     s.ctxv = true ∧ Memory.wf s.obuf = true ∧ s.req ≠ 0#32 ∧ s.soff < s.olen ∧
       Answers s.src s.soff (min s.req.toNat (s.olen.toNat - s.soff.toNat)) ct5) ∧
    let s := opened 9#32 0xFFFFFFFF#32 [] ct5
    s.ctxv = true ∧ Memory.wf s.obuf = true ∧ s.req ≠ 0#32 ∧ s.soff < s.olen ∧
      Answers s.src s.soff (min s.req.toNat (s.olen.toNat - s.soff.toNat)) ct5 := by decide +kernel

/-- A context in the middle of a block and one at its start run; the source answers. -/
theorem met_SchunkDecryptsAtItsOffset :
    (∃ (s t : State), ContextRuns k1 c1 s ∧ Memory.wf s.obuf = true ∧ s.req ≠ 0#32 ∧ s.soff < s.olen ∧
      Answers s.src s.soff (min s.req.toNat (s.olen.toNat - s.soff.toNat)) ct5 ∧ exec .schunk s = .next t) ∧
    ∃ s : State, ContextRuns k1 c1 s ∧ s.soff = 5#32 ∧ Answers s.src s.soff 3 (ct5.take 3) := by
  refine ⟨?_, ?_⟩
  · obtain ⟨t, ht, -⟩ := next_of_look (f := fun _ => true) (r := exec .schunk (opened 9#32 5#32 [] ct5)) (by decide +kernel)
    refine ⟨opened 9#32 5#32 [] ct5, t, ⟨rfl, rfl, by decide +kernel, by decide +kernel, fun h => ?_, by decide⟩,
      by decide +kernel, by decide, by decide, by decide +kernel, ht⟩
    exact absurd (by decide +kernel) h
  · refine ⟨{ opened 9#32 3#32 [.bytes (ct5.take 3)] [] with
      soff := 5#32,
      ctx := { key := k1, cb := inc128 c1, ks := aesEnc k1 c1, pos := 5 } }, ⟨rfl, rfl, ?_, rfl, fun _ => ?_, ?_⟩, rfl, ?_⟩
    all_goals decide +kernel

theorem met_ScloseDiscardsTheContext : (opened 4#32 0#32 [] []).ctxv = true ∧ State.reset.ctxv = false := by decide

/-- A full stream at the capacity, a stream a scripted short read ends, and the empty stream at the engine's capacity. -/
theorem met_DstreamDecryptsTheStream :
    (openFault 5#32 (keyed 5#32 [] ct5) = none ∧ Memory.wf (keyed 5#32 [] ct5).obuf = true ∧
      streamAnswered (chunkSize 4096 524288 5 0) 5 [] = true) ∧
    (openFault 20#32 (keyed 20#32 [.bytes ct5] []) = none ∧ streamAnswered (chunkSize 4096 524288 20 0) 20 [.bytes ct5] = true) ∧
    openFault Config.obufCap (keyed 0#32 [] []) = none ∧ streamAnswered (chunkSize 4096 524288 0 0) 0 [.never] = true := by
  refine ⟨by decide, by decide, met_SopenOpensAStream.2.2.2.2, by decide⟩

theorem met_DstreamEqualsItsScript :
    openFault 5#32 (keyed 5#32 [.never] []) = none ∧ (keyed 5#32 [.never] []).waiting = false ∧
    (keyed 5#32 [.never] []).len.toNat ≤ 5 := by decide

theorem met_DstreamIndependentOfChunk :
    openFault 5#32 (keyed 5#32 [] ct5) = none ∧ Memory.wf (keyed 5#32 [] ct5).obuf = true ∧
    (keyed 5#32 [] ct5).src.replies = [] := by decide

theorem met_HostChosenChunksGiveTheSameStream :
    ∃ a b, openFault 5#32 (keyed 5#32 [] ct5) = none ∧ Memory.wf (keyed 5#32 [] ct5).obuf = true ∧
      (keyed 5#32 [] ct5).src.replies = [] ∧ (keyed 5#32 [] ct5).len.toNat ≤ (keyed 5#32 [] ct5).src.data.length ∧
      sopen 5#32 (keyed 5#32 [] ct5) = .next a ∧ chunksOf [2#32, 0#32, 7#32] a = .next b ∧ b.soff = b.olen := by
  obtain ⟨b, hb, he⟩ := next_of_look (f := fun b => decide (b.soff = b.olen))
    (r := chunksOf [2#32, 0#32, 7#32] (openContext (keyed 5#32 [] ct5))) (by decide +kernel)
  exact ⟨_, b, by decide, by decide, by decide, by decide, by rfl, hb, by simpa using he⟩

theorem met_EmptyStreamReadsNothing :
    openFault Config.obufCap (keyed 0#32 [.never] ct5) = none ∧ (keyed 0#32 [.never] ct5).len = 0#32 ∧
    openFault 0#32 (keyed 0#32 [] []) = none := by
  refine ⟨by simp [openFault, keyed, State.reset], rfl, by decide⟩

theorem met_DstreamRequestsAreBounded :
    ∃ t, openFault 16#32 (keyed 16#32 [] []) = none ∧
      dstream 16#32 Config.chunkMin Config.chunkMax (keyed 16#32 [] []) = .next t := by
  obtain ⟨t, ht, -⟩ := next_of_look (f := fun _ => true)
    (r := dstream 16#32 Config.chunkMin Config.chunkMax (keyed 16#32 [] [])) (by decide +kernel)
  exact ⟨t, by decide, ht⟩

theorem met_BufferOk_empty : BufferOk State.reset :=
  ⟨rfl, by decide, BitVec.le_def.2 (Nat.zero_le _), fun _ _ => rfl, fun _ _ _ => rfl⟩

/-- With any capacity of 9 or more, an open stream of 9 bytes, 5 of them decrypted, is such a state. -/
theorem met_EveryStepKeepsTheBufferOk :
    (BufferOk State.reset ∧ step State.reset = .next State.reset) ∧
    (9#32 ≤ Config.obufCap → BufferOk { opened 9#32 4#32 [] ct5 with soff := 5#32, obuf := [(0, 0x6b#8), (4, 0x2e#8)] }) := by
  refine ⟨⟨met_BufferOk_empty, rfl⟩, fun hc => ⟨by decide, by decide, hc, fun a h => ?_, fun a h h' => ?_⟩⟩
  · have : 9 ≤ Config.obufCap.toNat := BitVec.le_def.1 hc
    simp only [Memory.read]
    rw [if_neg (by omega), if_neg (by omega)]; rfl
  · have : 5 ≤ a := h
    simp only [Memory.read]
    rw [if_neg (by omega), if_neg (by omega)]; rfl

theorem met_EveryStepKeepsTheRecordsOk :
    step State.reset = .next State.reset ∧ FaultRecordOk State.reset ∧ TraceOk State.reset ∧
    FaultRecordOk { State.reset with err := true, ecode := 0x0A#8 } ∧
    TraceOk { State.reset with trace := [⟨.hdr, 0#32, 128, some 128⟩, ⟨.hdr, 0#32, 128, none⟩], waiting := true } := by
  refine ⟨rfl, by unfold FaultRecordOk; decide, ⟨fun r h => (List.not_mem_nil h).elim, fun h => by cases h⟩,
    by unfold FaultRecordOk; decide, fun r h => ?_, fun _ => ⟨[⟨.hdr, 0#32, 128, some 128⟩], _, rfl, rfl⟩⟩
  rcases List.mem_pair.1 h with rfl | rfl
  · exact ⟨by decide, by decide, fun n hn => by cases hn; exact Nat.le_refl _⟩
  · exact ⟨by decide, by decide, fun n hn => by cases hn⟩

theorem met_EveryStepKeepsTheContextRunning :
    ∃ s t : State, ContextRuns k1 c1 s ∧ step s = .next t ∧ t.ctxv = true := by
  obtain ⟨t, ht, hv⟩ := next_of_look (f := fun t => t.ctxv)
    (r := step (host (opened 9#32 5#32 [] ct5) [.write 32 0x000 0x41000000#32])) (by decide +kernel)
  refine ⟨_, t, ⟨rfl, rfl, by decide +kernel, by decide +kernel, fun h => ?_, by decide⟩, ht, hv⟩
  exact absurd (by decide +kernel) h

theorem met_OpenedContextRuns : ∃ t, openFault 4#32 (keyed 4#32 [] []) = none ∧ sopen 4#32 (keyed 4#32 [] []) = .next t :=
  ⟨_, by decide, by rfl⟩

/-- Each of the command faults, a command that faults nowhere, and both faults over a capacity. -/
theorem met_FaultingCommandChangesOnlyTheRecord :
    commandFault Config.obufCap State.reset .gnext32 = some .noGen ∧
    commandFault Config.obufCap State.reset (.kmder 0 .key) = some .noTbl ∧
    commandFault Config.obufCap State.reset .schunk = some .noCtx ∧
    commandFault Config.obufCap State.reset .dstream = some .noKey ∧
    commandFault Config.obufCap (opened 4#32 0#32 [] []) .sopen = some .ctxLive ∧
    openFault 4#32 (keyed 5#32 [] []) = some .range ∧
    commandFault Config.obufCap (opened 4#32 0#32 [] []) .sclose = none ∧
    exec .sclose (opened 4#32 0#32 [] []) = .next (closeContext (opened 4#32 0#32 [] [])) :=
  ⟨rfl, rfl, rfl, rfl, rfl, by decide, rfl, rfl⟩

theorem met_FaultRecordIsSticky :
    ∃ (s t : State) (a : HostAccess), s.err = true ∧ Serves s a [] ∧ a ≠ .hardReset ∧ a ≠ .write 32 0x000 0x01000000#32 ∧
      step s = .next t := by
  obtain ⟨t, ht, -⟩ := next_of_look (f := fun _ => true)
    (r := step (host { State.reset with err := true, ecode := 9#8 } [.write 32 0x000 0x21000000#32])) (by decide +kernel)
  exact ⟨_, t, _, rfl, ⟨rfl, rfl⟩, by decide, by decide, ht⟩

theorem met_CommandsWriteOnlyTheirState : Instr.tinit ≠ .srst ∧
    exec .tinit State.reset = .next { State.reset with tbl := zeroTable, tblv := true, tgot := 0#32, tshort := false } :=
  ⟨by decide, rfl⟩

theorem met_HostAccessesLeaveTheRest :
    (∃ t, step (host State.reset [.readOut 0#32]) = .next t) ∧ (∃ t, step (host State.reset [.read 32 0x004]) = .next t) ∧
    ∃ t, step (host State.reset [.write 32 0x3FC 7#32]) = .next t :=
  ⟨⟨_, rfl⟩, ⟨_, rfl⟩, ⟨_, rfl⟩⟩

/-- Scripted answers within the contract for `SCHUNK` and `DSTREAM`, a short header answer, and empty reply lists. -/
theorem met_AnsweredEngineNeverStops :
    Answered Config.obufCap (opened 9#32 5#32 [.bytes ct5] []) .schunk ∧
    Answered Config.obufCap (keyed 20#32 [.bytes ct5] []) .dstream ∧
    Answered Config.obufCap (withHeader ct5) .tload ∧ (withHeader ct5).waiting = false ∧
    (keyed 5#32 [] ct5).waiting = false ∧ (keyed 5#32 [] ct5).hdr.replies = [] ∧ (keyed 5#32 [] ct5).src.replies = [] :=
  ⟨fun _ _ => ⟨ct5, by decide⟩, fun _ => by decide, ⟨ct5, met_TloadInstallsTheAnsweredBytes.2.1⟩, rfl, rfl, rfl, rfl⟩

/-- Two states that differ in the table, the keystream buffer and the output buffer past `OLEN`. -/
theorem met_UnobservableContentsStayUnobservable :
    ∃ s t : State, s ≠ t ∧ Indistinct s t := by
  refine ⟨opened 4#32 1#32 [] ct5, { opened 4#32 1#32 [] ct5 with
    tbl := zeroTable.set 3 1#32,
    ctx := { ctxInit k1 c1 with ks := k1 },
    obuf := [(4, 0x01#8)] }, by decide +kernel, ?_⟩
  constructor
  case obuf =>
    intro a h
    have h4 : a < 4 := h
    show Memory.read [] a = Memory.read [(4, 0x01#8)] a
    simp only [Memory.read]
    rw [if_neg (by omega)]
  case canonical => exact ⟨rfl, rfl⟩
  case tbl => intro h; cases h
  case ks => intro _ h; exact absurd h (by decide)
  all_goals first | rfl | (intros; first | rfl | exact ⟨rfl, rfl, rfl⟩)

/-- Each way an access can be wrong, at its bounds. -/
theorem met_WrongRegisterAccessFaults :
    (∀ p ∈ [(16, 0x004), (32, 0x006), (32, 0x400), (32, 0x064), (32, 0x1FC), (32, 0x000)],
      p.1 ≠ 32 ∨ p.2 % 4 ≠ 0 ∨ 0x400 ≤ p.2 ∨ (0x064 ≤ p.2 ∧ p.2 < 0x200) ∨ p.2 = 0x000) ∧
    (∀ p ∈ [(8, 0x008), (32, 0x009), (32, 0x404), (32, 0x050), (32, 0x060), (32, 0x1FC), (32, 0x02C)],
      p.1 ≠ 32 ∨ p.2 % 4 ≠ 0 ∨ 0x400 ≤ p.2 ∨ (0x050 ≤ p.2 ∧ p.2 < 0x200) ∨
        p.2 ∈ [0x004, 0x00C, 0x014, 0x018, 0x028, 0x02C]) ∧
    Serves (host State.reset [.read 16 0x004]) (.read 16 0x004) [] ∧
    Serves (host State.reset [.write 32 0x060 1#32]) (.write 32 0x060 1#32) [] := by decide

theorem met_RegistersReadBack :
    (∀ off ∈ [0x008, 0x010, 0x01C, 0x020, 0x024],
      Serves (host State.reset [.write 32 off 0xFFFFFFFF#32, .read 32 off]) (.write 32 off 0xFFFFFFFF#32) [.read 32 off]) ∧
    ∀ off ∈ [0x008, 0x010, 0x01C, 0x020, 0x024, 0x00C, 0x028, 0x02C, 0x014, 0x018],
      Serves (host State.reset [.read 32 off]) (.read 32 off) [] :=
  ⟨fun _ _ => ⟨rfl, rfl⟩, fun _ _ => ⟨rfl, rfl⟩⟩

theorem met_StatusShowsTheFlags : Serves (host State.reset [.read 32 0x004]) (.read 32 0x004) [] := ⟨rfl, rfl⟩

theorem met_KeyAndCounterWords :
    (host State.reset [.write 32 (0x030 + 4 * 3) 1#32]).host = .write 32 (0x030 + 4 * (3 : Fin 4).val) 1#32 :: [] ∧
    (host State.reset [.write 32 (0x040 + 4 * 0) 1#32]).host = .write 32 (0x040 + 4 * (0 : Fin 4).val) 1#32 :: [] ∧
    ((host (keyed 0#32 [] []) [.read 32 0x03C]).host = .read 32 (0x030 + 4 * (3 : Fin 4).val) :: [] ∧
      (keyed 0#32 [] []).keyv.getLsbD 3 = true ∧ State.reset.keyv.getLsbD 3 = false) ∧
    (host (keyed 0#32 [] []) [.read 32 0x04C]).host = .read 32 (0x040 + 4 * (3 : Fin 4).val) :: [] ∧
      (keyed 0#32 [] []).ictrv.getLsbD 3 = true ∧ State.reset.ictrv.getLsbD 3 = false := by decide

theorem met_ContextView :
    ((host (opened 0#32 0#32 [] []) [.read 32 0x05C]).host = .read 32 (0x050 + 4 * (3 : Fin 4).val) :: [] ∧
      (opened 0#32 0#32 [] []).ctxv = true ∧ State.reset.ctxv = false) ∧
    Serves (host State.reset [.read 32 0x060]) (.read 32 0x060) [] ∧
    (0x050 ≤ 0x060 ∧ 0x060 ≤ 0x060 ∧ Serves (host State.reset [.write 32 0x060 1#32]) (.write 32 0x060 1#32) []) := by decide

theorem met_TableWindow :
    (host State.reset [.read 32 0x3FC]).host = .read 32 (0x200 + 4 * (127 : Fin 128).val) :: [] ∧
    (host State.reset [.write 32 0x200 1#32]).host = .write 32 (0x200 + 4 * (0 : Fin 128).val) 1#32 :: [] ∧
    { State.reset with tblv := true }.tblv = true ∧ State.reset.tblv = false := by decide

theorem met_OutputBufferReads : Serves (host State.reset [.readOut 0xFFFFFFFF#32]) (.readOut 0xFFFFFFFF#32) [] :=
  ⟨rfl, rfl⟩

theorem met_ScriptsLoadTheirValues :
    State.reset.waiting = false ∧ (host State.reset (assemble (.ldKey k1))).host = assemble (.ldKey k1) ++ [] ∧
    (host State.reset (assemble (.ldIctr c1))).host = assemble (.ldIctr c1) ++ [] ∧
    (host State.reset (assemble (.ldTbl zeroTable))).host = assemble (.ldTbl zeroTable) ++ [] := by
  exact ⟨rfl, by simp [host]⟩

end Sys2Proof.Tests
end

section
/-! PROOF. What an access, a command and a step can do to each part of the state: the frames the statements of
spec/10_state.md rest on, and the invariants of the output buffer and of the open context. -/

namespace Sys2Proof.Machine

/-! ### Register accesses, one rule for each outcome -/

@[simp] theorem readReg_takeAccess (r : Reg) (rest : List HostAccess) (s : State) :
    readReg r (takeAccess rest s) = readReg r s := by cases r <;> rfl

/-- A write that reaches a register and finishes there is the whole step. -/
theorem step_writeReg {s t : State} {r : Reg} {v : Word} {rest : List HostAccess}
    (h : Serves s (.write 32 (regOffset r) v) rest) (hw : writeReg r v (takeAccess rest s) = .finished t) :
    step s = .next t := by
  rw [step_access h.1 h.2, hostPort, hostWrite, regAt_regOffset]
  simp only [hw]

/-- A read of a register that holds a value returns it and changes nothing else. -/
theorem step_readReg_ok {s : State} {r : Reg} {v : Word} {rest : List HostAccess}
    (h : Serves s (.read 32 (regOffset r)) rest) (hr : readReg r s = .ok v) :
    step s = .next { s with host := rest, ret := .word v } := by
  rw [step_access h.1 h.2, hostPort, hostRead, regAt_regOffset]
  simp only [readReg_takeAccess, hr]
  rfl

/-- A read of a register that holds none records the fault and returns 0. -/
theorem step_readReg_error {s : State} {r : Reg} {c : FaultCode} {rest : List HostAccess}
    (h : Serves s (.read 32 (regOffset r)) rest) (hr : readReg r s = .error c) :
    step s = .next (faulted c { s with host := rest, ret := .word 0#32 }) := by
  rw [step_access h.1 h.2, hostPort, hostRead, regAt_regOffset]
  simp only [readReg_takeAccess, hr]
  rfl

/-- A read records a fault and returns 0, or returns a value and changes nothing else. -/
theorem hostRead_cases (width off : Nat) (s : State) :
    (∃ v, hostRead width off s = returnWord v s) ∨
      ∃ c, hostRead width off s = returnWord 0#32 (recordFault c s) := by
  rw [hostRead]
  cases regAt width off with
  | none => exact .inr ⟨.addr, rfl⟩
  | some r =>
    cases hr : readReg r s with
    | ok v => exact .inl ⟨v, by simp only [hr]⟩
    | error c => exact .inr ⟨c, by simp only [hr]⟩

/-- An output buffer read records a fault and returns 0, or returns a byte and changes nothing else. -/
theorem readOut_cases (o : Word) (s : State) :
    (∃ b, readOut o s = returnByte b s) ∨ ∃ c, readOut o s = returnByte 0#8 (recordFault c s) := by
  unfold readOut
  split_ifs
  · exact .inr ⟨.own, rfl⟩
  · exact .inr ⟨.addr, rfl⟩
  · exact .inl ⟨_, rfl⟩

/-! ### What a command writes -/

/-- The frame of a command: `s` with the fault record and the elements `i` writes taken from `t`
(spec/10_state.md R21 to R31). -/
def withWritten (i : Instr) (s t : State) : State :=
  let r : State := { s with err := t.err, ecode := t.ecode }
  match i with
  | .nop => r
  | .srst => t
  | .tinit => { r with tbl := t.tbl, tblv := t.tblv, tgot := t.tgot, tshort := t.tshort }
  | .tload =>
    { r with
      tbl := t.tbl, tblv := t.tblv, tgot := t.tgot, tshort := t.tshort
      hdr := t.hdr, trace := t.trace, waiting := t.waiting, ret := t.ret }
  | .gseed => { r with g := t.g, gv := t.gv }
  | .gnext32 => { r with g := t.g, gout := t.gout }
  | .gnext64 => { r with g := t.g, gout := t.gout }
  | .kmder _ .key => { r with key := t.key, keyv := t.keyv, g := t.g, gv := t.gv }
  | .kmder _ .ictr => { r with ictr := t.ictr, ictrv := t.ictrv, g := t.g, gv := t.gv }
  | .kcder =>
    { r with
      tbl := t.tbl, tblv := t.tblv, tgot := t.tgot, tshort := t.tshort
      key := t.key, keyv := t.keyv, ictr := t.ictr, ictrv := t.ictrv, g := t.g, gv := t.gv
      hdr := t.hdr, trace := t.trace, waiting := t.waiting, ret := t.ret }
  | .sopen =>
    { r with ctx := t.ctx, ctxv := t.ctxv, obuf := t.obuf, soff := t.soff, olen := t.olen, sshort := t.sshort }
  | .schunk =>
    { r with
      ctx := t.ctx, obuf := t.obuf, soff := t.soff, sshort := t.sshort
      src := t.src, trace := t.trace, waiting := t.waiting, ret := t.ret }
  | .sclose => { r with ctxv := t.ctxv }
  | .dstream =>
    { r with
      ctx := t.ctx, ctxv := t.ctxv, obuf := t.obuf, soff := t.soff, olen := t.olen, sshort := t.sshort
      src := t.src, trace := t.trace, waiting := t.waiting, ret := t.ret }

theorem withWritten_withWritten (i : Instr) (s t u : State) :
    withWritten i (withWritten i s t) u = withWritten i s u := by
  cases i with
  | kmder _ dst => cases dst <;> rfl
  | _ => rfl

theorem withWritten_recordFault (i : Instr) (c : FaultCode) (s : State) :
    withWritten i s (recordFault c s) = recordFault c s := by
  cases i with
  | kmder _ dst => cases dst <;> rfl
  | _ => rfl

/-- From `s` to `t` only what `i` writes has changed; the sources keep their bytes, and an engine that does not wait in
the end has not begun to wait and has returned nothing else to the host. -/
structure CommandFrame (i : Instr) (s t : State) : Prop where
  written : t = withWritten i s t
  hdrData : t.hdr.data = s.hdr.data
  srcData : t.src.data = s.src.data
  ret : t.waiting = false → s.waiting = false ∧ t.ret = s.ret

theorem CommandFrame.trans {i : Instr} {s t u : State} (h : CommandFrame i s t) (h' : CommandFrame i t u) :
    CommandFrame i s u where
  written := by
    calc u = withWritten i t u := h'.written
      _ = withWritten i (withWritten i s t) u := by rw [← h.written]
      _ = withWritten i s u := withWritten_withWritten i s t u
  hdrData := h'.hdrData.trans h.hdrData
  srcData := h'.srcData.trans h.srcData
  ret hu := ⟨(h.ret (h'.ret hu).1).1, (h'.ret hu).2.trans (h.ret (h'.ret hu).1).2⟩

theorem commandFrame_recordFault (i : Instr) (c : FaultCode) (s : State) : CommandFrame i s (recordFault c s) :=
  ⟨(withWritten_recordFault i c s).symm, rfl, rfl, fun h => ⟨h, rfl⟩⟩

/-- A checked command keeps its frame where the part after the check does. -/
theorem commandFrame_check {i : Instr} {holds : Bool} {c : FaultCode} {s t u : State}
    (h : check holds c s (.next u) = .next t) (hu : CommandFrame i s u) : CommandFrame i s t := by
  obtain ⟨-, hgo⟩ | ⟨-, rfl⟩ := check_eq_next.1 h
  · cases hgo; exact hu
  · exact commandFrame_recordFault i c s

/-- `SOPEN` and `DSTREAM` go on with no stream open and a length that fits, or record a fault. -/
theorem checkOpen_goes_or_faults {cap : Word} {s t : State} {go : Result State} (h : checkOpen cap s go = .next t) :
    (s.ctxv = false ∧ s.len ≤ cap ∧ go = .next t) ∨ ∃ c, t = recordFault c s := by
  obtain ⟨hc, -, hl, hgo⟩ | ⟨-, rfl⟩ | ⟨-, -, rfl⟩ | ⟨-, -, -, rfl⟩ := checkOpen_eq_next.1 h
  · exact .inl ⟨hc, hl, hgo⟩
  all_goals exact .inr ⟨_, rfl⟩

/-! ### What the chunks of a stream keep -/

/-- A stored chunk and an unanswered request both keep `P`. -/
structure KeptByChunks (P : State → Prop) : Prop where
  stored : ∀ {u : State} {req : Nat} {d : List Byte}, req ≤ remaining u → d.length ≤ req → P u →
    P (storeChunk req d (noteRequest .src u.soff req (some d.length) u))
  awaiting : ∀ {u : State} {req : Nat}, P u → P (awaitAnswer .src u.soff req u)

theorem KeptByChunks.chunkStep {P : State → Prop} (hP : KeptByChunks P) {req : Nat} {s t : State}
    {go : State → Result State} (hs : P s) (hreq : req ≤ remaining s) (hgo : ∀ u, P u → go u = .next t → P t)
    (h : chunkStep req s go = .next t) : P t := by
  obtain ⟨-, hn⟩ | ⟨-, d, hd, hn⟩ | ⟨-, -, rfl⟩ := chunkStep_eq_next.1 h
  · exact hgo s hs hn
  · exact hgo _ (hP.stored hreq (sourceAnswer_length hd) hs) hn
  · exact hP.awaiting hs

theorem KeptByChunks.streamLoop {P : State → Prop} (hP : KeptByChunks P) {chunk : Nat} {t : State}
    {go : State → Result State} (hgo : ∀ u, P u → go u = .next t → P t) (n : Nat) {s : State} (hs : P s)
    (h : streamLoop chunk go n s = .next t) : P t := by
  induction n generalizing s with
  | zero => exact hgo s hs h
  | succ n ih =>
    rw [Machine.streamLoop] at h
    split_ifs at h
    · exact hP.chunkStep hs (Nat.min_le_right ..) (fun u hu => ih hu) h
    · exact hgo s hs h

/-- `SCHUNK` keeps what its chunk and a recorded fault keep. -/
theorem KeptByChunks.schunk {P : State → Prop} (hP : KeptByChunks P) {s t : State} (hs : P s)
    (hf : ∀ c, P (recordFault c s)) (h : exec .schunk s = .next t) : P t := by
  obtain ⟨-, hn⟩ | ⟨-, rfl⟩ := check_eq_next.1 h
  · exact hP.chunkStep hs (Nat.min_le_right ..) (fun u hu hn => by cases hn; exact hu) hn
  · exact hf _

/-- `DSTREAM` keeps what opening, chunks, closing and a recorded fault keep. -/
theorem KeptByChunks.dstream {P : State → Prop} (hP : KeptByChunks P) {cap : Word} {lo hi : Nat} {s t : State}
    (hopen : s.len ≤ cap → P (openContext s)) (hclose : ∀ u, P u → P (closeContext u))
    (hf : ∀ c, P (recordFault c s)) (h : dstream cap lo hi s = .next t) : P t := by
  obtain ⟨-, hl, hn⟩ | ⟨c, rfl⟩ := checkOpen_goes_or_faults h
  · exact hP.streamLoop (fun u hu hn => by cases hn; exact hclose u hu) _ (hopen hl) hn
  · exact hf c

theorem commandFrame_keptByChunks {i : Instr} (hi : i = .schunk ∨ i = .dstream) (s : State) :
    KeptByChunks (CommandFrame i s) where
  stored _ _ hu := hu.trans (by obtain rfl | rfl := hi <;> exact ⟨rfl, rfl, rfl, fun h => ⟨h, rfl⟩⟩)
  awaiting hu := hu.trans (by obtain rfl | rfl := hi <;> exact ⟨rfl, rfl, rfl, fun h => by cases h⟩)

/-- A table load keeps its frame, whatever table the bytes make. -/
theorem commandFrame_load {i : Instr} (hi : i = .tload ∨ i = .kcder) (off : Word) (max : Nat) (d : List Byte)
    (s : State) : CommandFrame i s (installTable max d (noteRequest .hdr off max (some d.length) s)) := by
  unfold installTable
  generalize tableOf d = tbl
  obtain rfl | rfl := hi <;> exact ⟨rfl, rfl, rfl, fun h => ⟨h, rfl⟩⟩

/-- The pair derivation keeps its frame, whatever the key material is. -/
theorem commandFrame_derivePair (p : Prng) (s : State) : CommandFrame .kcder s (derivePair p s) := by
  unfold derivePair
  generalize km p s.tbl Config.keyIndex = k, km p s.tbl Config.ctrIndex = c
  exact ⟨rfl, rfl, rfl, fun h => ⟨h, rfl⟩⟩

/-- One derivation keeps its frame, whatever the key material is. -/
theorem commandFrame_deriveMaterial (p : Prng) (idx : Nat) (dst : Dst) (s : State) :
    CommandFrame (.kmder idx dst) s (deriveMaterial p idx dst s) := by
  unfold deriveMaterial
  generalize km p s.tbl idx = k
  cases dst <;> exact ⟨rfl, rfl, rfl, fun h => ⟨h, rfl⟩⟩

/-- Every command but `SRST` changes only what it writes. -/
theorem exec_commandFrame {i : Instr} {s t : State} (hi : i ≠ .srst) (h : exec i s = .next t) :
    CommandFrame i s t := by
  cases i with
  | nop => cases h; exact ⟨rfl, rfl, rfl, fun h => ⟨h, rfl⟩⟩
  | srst => exact absurd rfl hi
  | tinit => cases h; exact ⟨rfl, rfl, rfl, fun h => ⟨h, rfl⟩⟩
  | tload =>
    obtain ⟨d, -, rfl⟩ | ⟨-, rfl⟩ := tload_eq_next.1 h
    · exact commandFrame_load (.inl rfl) _ _ d s
    · exact ⟨rfl, rfl, rfl, fun h => by cases h⟩
  | gseed => cases h; exact ⟨rfl, rfl, rfl, fun h => ⟨h, rfl⟩⟩
  | gnext32 => exact commandFrame_check h ⟨rfl, rfl, rfl, fun h => ⟨h, rfl⟩⟩
  | gnext64 => exact commandFrame_check h ⟨rfl, rfl, rfl, fun h => ⟨h, rfl⟩⟩
  | kmder idx dst => exact commandFrame_check h (commandFrame_deriveMaterial ..)
  | kcder =>
    obtain ⟨d, -, rfl⟩ | ⟨-, rfl⟩ := kcder_eq_next.1 h
    · exact (commandFrame_load (.inr rfl) _ _ d s).trans (commandFrame_derivePair ..)
    · exact ⟨rfl, rfl, rfl, fun h => by cases h⟩
  | sopen =>
    obtain ⟨-, -, hn⟩ | ⟨c, rfl⟩ := checkOpen_goes_or_faults h
    · cases hn; exact ⟨rfl, rfl, rfl, fun h => ⟨h, rfl⟩⟩
    · exact commandFrame_recordFault _ c s
  | schunk =>
    exact (commandFrame_keptByChunks (.inl rfl) s).schunk ⟨rfl, rfl, rfl, fun h => ⟨h, rfl⟩⟩
      (commandFrame_recordFault _ · s) h
  | sclose => exact commandFrame_check h ⟨rfl, rfl, rfl, fun h => ⟨h, rfl⟩⟩
  | dstream =>
    exact (commandFrame_keptByChunks (.inr rfl) s).dstream (fun _ => ⟨rfl, rfl, rfl, fun h => ⟨h, rfl⟩⟩)
      (fun u hu => hu.trans ⟨rfl, rfl, rfl, fun h => ⟨h, rfl⟩⟩) (commandFrame_recordFault _ · s) h

/-- Settles O49: every element the statement names is one that the frame of the command takes from the state before. -/
theorem commandsWriteOnlyTheirState : Obligations.CommandsWriteOnlyTheirState := by
  unfold Obligations.CommandsWriteOnlyTheirState
  intro i s t hi h
  obtain ⟨hw, hhdr, hsrc, hquiet⟩ := exec_commandFrame hi h
  have hret : t.ret = s.ret ∨ t.waiting = true := by
    cases ht : t.waiting with
    | false => exact .inl (hquiet ht).2
    | true => exact .inr rfl
  obtain ⟨u, rfl⟩ : ∃ u, t = withWritten i s u := ⟨t, hw⟩
  refine ⟨?_, ⟨?_, hhdr, hsrc, hret⟩, ?_⟩ <;> clear hw hhdr hsrc hquiet hret h
  all_goals
    cases i with
    | srst => exact absurd rfl hi
    | kmder idx dst => cases dst <;> simp [withWritten]
    | _ => simp [withWritten]

end Sys2Proof.Machine
end

section
/-! PROOF. The invariants of the output buffer and of the open context: what a step leaves of a stream, and what a
stored chunk makes of it. -/

namespace Sys2Proof.Machine

/-! ### What a step leaves of the stream -/

/-- The stream's own elements are as before: context, buffer, offset and length. -/
structure StreamKept (s t : State) : Prop where
  ctx : t.ctx = s.ctx
  obuf : t.obuf = s.obuf
  soff : t.soff = s.soff
  olen : t.olen = s.olen

theorem StreamKept.refl (s : State) : StreamKept s s := ⟨rfl, rfl, rfl, rfl⟩

theorem StreamKept.trans {s t u : State} (h : StreamKept s t) (h' : StreamKept t u) : StreamKept s u :=
  ⟨h'.ctx.trans h.ctx, h'.obuf.trans h.obuf, h'.soff.trans h.soff, h'.olen.trans h.olen⟩

theorem streamKept_takeAccess (rest : List HostAccess) (s : State) : StreamKept s (takeAccess rest s) :=
  ⟨rfl, rfl, rfl, rfl⟩

theorem streamKept_noteRequest (space : Space) (off : Word) (max : Nat) (n : Option Nat) (s : State) :
    StreamKept s (noteRequest space off max n s) := ⟨by simp, by simp, by simp, by simp⟩

theorem streamKept_recordFault (c : FaultCode) (s : State) : StreamKept s (recordFault c s) := ⟨rfl, rfl, rfl, rfl⟩

theorem streamKept_awaitAnswer (space : Space) (off : Word) (max : Nat) (s : State) :
    StreamKept s (awaitAnswer space off max s) := ⟨by simp, by simp, by simp, by simp⟩

theorem streamKept_withWritten {i : Instr} (hi : i ∉ [.srst, .sopen, .schunk, .dstream]) (s t : State) :
    StreamKept s (withWritten i s t) := by
  cases i with
  | srst | sopen | schunk | dstream => simp at hi
  | kmder _ dst => cases dst <;> exact ⟨rfl, rfl, rfl, rfl⟩
  | _ => exact ⟨rfl, rfl, rfl, rfl⟩

theorem streamKept_writeReg {r : Reg} {v : Word} {s t : State} (h : writeReg r v s = .finished t) :
    StreamKept s t := by
  cases r with
  | cmd => cases h
  | tblw i => cases h; split_ifs <;> exact ⟨rfl, rfl, rfl, rfl⟩
  | _ => cases h; exact ⟨rfl, rfl, rfl, rfl⟩

/-- An access that is no command resets the engine or leaves the stream as it is. -/
theorem hostPort_stream_cases {a : HostAccess} {s t : State} (h : hostPort a s = .finished t) :
    t = resetEngine s ∨ StreamKept s t := by
  cases a with
  | write width off v =>
    rw [hostPort, hostWrite] at h
    cases hr : regAt width off with
    | none => rw [hr] at h; cases h; exact .inr (streamKept_recordFault _ s)
    | some r => rw [hr] at h; exact .inr (streamKept_writeReg h)
  | read width off =>
    cases h
    obtain ⟨v, hv⟩ | ⟨c, hc⟩ := hostRead_cases width off s
    · rw [hv]; exact .inr ⟨rfl, rfl, rfl, rfl⟩
    · rw [hc]; exact .inr ⟨rfl, rfl, rfl, rfl⟩
  | readOut o =>
    cases h
    obtain ⟨b, hb⟩ | ⟨c, hc⟩ := readOut_cases o s
    · rw [hb]; exact .inr ⟨rfl, rfl, rfl, rfl⟩
    · rw [hc]; exact .inr ⟨rfl, rfl, rfl, rfl⟩
  | hardReset => cases h; exact .inl rfl

/-- Everything a step can do to the stream: reset it, leave it, or run one of the three commands that write it. -/
theorem step_stream_cases {s t : State} (h : step s = .next t) :
    (∃ u, t = resetEngine u) ∨ StreamKept s t ∨
      ∃ rest, ∃ i ∈ [Instr.sopen, .schunk, .dstream], exec i (takeAccess rest s) = .next t := by
  obtain ⟨-, rfl⟩ | ⟨-, -, rfl⟩ | ⟨-, a, rest, -, ⟨w, u, hp, hrun⟩ | hp⟩ := step_cases h
  · obtain ⟨-, hw⟩ | ⟨_, rest, -, -, hw⟩ := waitForReset_cases s
    · rw [hw]; exact .inr (.inl (.refl s))
    · exact .inl ⟨_, hw⟩
  · exact .inr (.inl (.refl t))
  · obtain ⟨-, rfl⟩ := hostPort_eq_command hp
    obtain ⟨i, -, hi⟩ | ⟨e, -, rfl⟩ := hrun
    · by_cases hs : i ∈ [Instr.sopen, .schunk, .dstream]
      · exact .inr (.inr ⟨rest, i, hs, hi⟩)
      · by_cases hr : i = .srst
        · subst hr; cases hi; exact .inl ⟨_, rfl⟩
        · refine .inr (.inl ?_)
          have hrs : i ∉ [.srst, .sopen, .schunk, .dstream] := by simpa using ⟨hr, by simpa using hs⟩
          rw [(exec_commandFrame hr hi).written]
          exact (streamKept_takeAccess rest s).trans (streamKept_withWritten hrs _ t)
    · exact .inr (.inl ((streamKept_takeAccess rest s).trans (streamKept_recordFault ..)))
  · obtain rfl | hk := hostPort_stream_cases hp
    · exact .inl ⟨_, rfl⟩
    · exact .inr (.inl ((streamKept_takeAccess rest s).trans hk))

theorem zero_le_word (w : Word) : 0#32 ≤ w := BitVec.le_def.2 (Nat.zero_le _)

/-! ### What a stored chunk makes of the stream -/

/-- The offset moves on by the stored bytes without wrapping, since they fit below the length. -/
theorem storeChunk_soff_toNat {s : State} {d : List Byte} (hd : d.length ≤ remaining s) (req : Nat) :
    (storeChunk req d s).soff.toNat = s.soff.toNat + d.length := by
  have := s.olen.isLt
  have := s.soff.isLt
  have hlt : s.soff.toNat + d.length < 2 ^ 32 := by unfold remaining at hd; omega
  rw [storeChunk_soff, BitVec.toNat_add, BitVec.toNat_ofNat, Nat.add_mod_mod, Nat.mod_eq_of_lt hlt]

theorem storeChunk_soff_le_olen {s : State} {d : List Byte} (hs : s.soff ≤ s.olen) (hd : d.length ≤ remaining s)
    (req : Nat) : (storeChunk req d s).soff ≤ (storeChunk req d s).olen := by
  rw [BitVec.le_def] at hs ⊢
  rw [storeChunk_soff_toNat hd, storeChunk_olen]
  unfold remaining at hd
  omega

/-- The context runs on over any bytes, from the stream byte after them. -/
theorem ctxRuns_ctrCrypt {k c : Block} {m : Nat} {x : Ctx} (h : CtxRuns k c m x) (d : List Byte) :
    CtxRuns k c (m + d.length) (ctrCrypt x d).2 := by
  induction d generalizing m x with
  | nil => exact h
  | cons b rest ih =>
    have hrest := ih (ctxRuns_ctrByte h b).2
    rwa [show m + 1 + rest.length = m + (b :: rest).length by simp; omega] at hrest

/-! ### The output buffer -/

theorem bufferOk_of_streamKept {s t : State} (h : BufferOk s) (k : StreamKept s t) : BufferOk t where
  canonical := by rw [k.obuf]; exact h.canonical
  offset := by rw [k.soff, k.olen]; exact h.offset
  length := by rw [k.olen]; exact h.length
  inside := by rw [k.obuf]; exact h.inside
  unfilled := by rw [k.obuf, k.soff, k.olen]; exact h.unfilled

theorem bufferOk_resetEngine (s : State) : BufferOk (resetEngine s) where
  canonical := rfl
  offset := zero_le_word _
  length := zero_le_word _
  inside _ _ := rfl
  unfilled _ _ _ := rfl

/-- A new stream starts with zeros up to its length; beyond the capacity nothing was listed before either. -/
theorem bufferOk_openContext {s : State} (h : BufferOk s) (hl : s.len ≤ Config.obufCap) : BufferOk (openContext s) where
  canonical := wf_zeroFill h.canonical _
  offset := zero_le_word _
  length := hl
  inside a ha := by
    rw [openContext_obuf, read_zeroFill, h.inside a ha]
    exact ite_self _
  unfilled a _ ha := by
    rw [openContext_olen] at ha
    rw [openContext_obuf, read_zeroFill, if_pos ha]

/-- A chunk that fits is stored below the length, and what lies above it is as before. -/
theorem bufferOk_storeChunk {s : State} (h : BufferOk s) {req : Nat} {d : List Byte} (hd : d.length ≤ remaining s) :
    BufferOk (storeChunk req d s) := by
  have hsoff := storeChunk_soff_toNat hd req
  have hle := BitVec.le_def.1 h.offset
  have hcap := BitVec.le_def.1 h.length
  have hread : ∀ a, s.soff.toNat + d.length ≤ a → Memory.read (storeChunk req d s).obuf a = Memory.read s.obuf a := by
    intro a ha
    rw [storeChunk_obuf, read_writeBytes h.canonical, ctrCrypt_length, if_neg (by omega)]
  unfold remaining at hd
  exact {
    canonical := wf_writeBytes h.canonical _ _
    offset := storeChunk_soff_le_olen h.offset hd req
    length := h.length
    inside := fun a ha => by rw [hread a (by omega)]; exact h.inside a ha
    unfilled := fun a ha ha' => by
      rw [hsoff] at ha
      rw [hread a ha]
      exact h.unfilled a (by omega) ha' }

theorem bufferOk_keptByChunks : KeptByChunks BufferOk where
  stored hreq hd hu :=
    bufferOk_storeChunk (bufferOk_of_streamKept hu (streamKept_noteRequest ..)) (hd.trans hreq)
  awaiting hu := bufferOk_of_streamKept hu (streamKept_awaitAnswer ..)

/-- Settles O42: of all that a step can do to the stream, a reset empties the buffer, an open zeroes it, and chunks stay
within its length. -/
theorem everyStepKeepsTheBufferOk : Obligations.EveryStepKeepsTheBufferOk := by
  unfold Obligations.EveryStepKeepsTheBufferOk
  intro s t hs h
  obtain ⟨u, rfl⟩ | hk | ⟨rest, i, hi, hexec⟩ := step_stream_cases h
  · exact bufferOk_resetEngine u
  · exact bufferOk_of_streamKept hs hk
  have hu := bufferOk_of_streamKept hs (streamKept_takeAccess rest s)
  have hfault (c : FaultCode) := bufferOk_of_streamKept hu (streamKept_recordFault c _)
  simp only [List.mem_cons, List.not_mem_nil, or_false] at hi
  obtain rfl | rfl | rfl := hi
  · obtain ⟨-, hl, hn⟩ | ⟨c, rfl⟩ := checkOpen_goes_or_faults hexec
    · cases hn; exact bufferOk_openContext hu hl
    · exact hfault c
  · exact bufferOk_keptByChunks.schunk hu hfault hexec
  · exact bufferOk_keptByChunks.dstream (bufferOk_openContext hu)
      (fun u hu => bufferOk_of_streamKept hu ⟨rfl, rfl, rfl, rfl⟩) hfault hexec

/-! ### The open context -/

/-- The stream of `s` runs on: the context has used the bytes below the offset, which has not gone back, and the buffer
is as long as it was. -/
structure RunsOn (k0 c0 : Block) (s t : State) : Prop where
  ctx : CtxRuns k0 c0 t.soff.toNat t.ctx
  extent : t.soff ≤ t.olen
  offset : s.soff ≤ t.soff
  length : t.olen = s.olen

theorem RunsOn.of_streamKept {k0 c0 : Block} {s t u : State} (h : RunsOn k0 c0 s t) (k : StreamKept t u) :
    RunsOn k0 c0 s u where
  ctx := by rw [k.ctx, k.soff]; exact h.ctx
  extent := by rw [k.soff, k.olen]; exact h.extent
  offset := by rw [k.soff]; exact h.offset
  length := by rw [k.olen]; exact h.length

theorem ContextRuns.runsOn {k0 c0 : Block} {s : State} (h : ContextRuns k0 c0 s) : RunsOn k0 c0 s s :=
  ⟨(contextRuns_iff.1 h).2.1, h.extent, BitVec.le_refl _, rfl⟩

theorem RunsOn.storeChunk {k0 c0 : Block} {s t : State} (h : RunsOn k0 c0 s t) {req : Nat} {d : List Byte}
    (hd : d.length ≤ remaining t) : RunsOn k0 c0 s (storeChunk req d t) where
  ctx := by
    rw [storeChunk_soff_toNat hd, storeChunk_ctx]
    exact ctxRuns_ctrCrypt h.ctx d
  extent := storeChunk_soff_le_olen h.extent hd req
  offset := by
    have := BitVec.le_def.1 h.offset
    rw [BitVec.le_def, storeChunk_soff_toNat hd]
    omega
  length := h.length

theorem runsOn_keptByChunks (k0 c0 : Block) (s : State) : KeptByChunks (RunsOn k0 c0 s) where
  stored hreq hd hu := (hu.of_streamKept (streamKept_noteRequest ..)).storeChunk (hd.trans hreq)
  awaiting hu := hu.of_streamKept (streamKept_awaitAnswer ..)

/-- While a stream is open it runs on through every step that leaves it open: `SOPEN` and `DSTREAM` fault, and chunks
move context and offset together. -/
theorem step_runsOn {k0 c0 : Block} {s t : State} (hs : ContextRuns k0 c0 s) (h : step s = .next t)
    (ht : t.ctxv = true) : RunsOn k0 c0 s t := by
  obtain ⟨u, rfl⟩ | hk | ⟨rest, i, hi, hexec⟩ := step_stream_cases h
  · cases ht
  · exact hs.runsOn.of_streamKept hk
  have hu := hs.runsOn.of_streamKept (streamKept_takeAccess rest s)
  have hfault (c : FaultCode) := hu.of_streamKept (streamKept_recordFault c _)
  have hopen {cap : Word} {go : Result State} (hc : checkOpen cap (takeAccess rest s) go = .next t) :
      RunsOn k0 c0 s t := by
    obtain ⟨hclosed, -⟩ | ⟨c, rfl⟩ := checkOpen_goes_or_faults hc
    · exact absurd (hclosed.symm.trans hs.isOpen) Bool.false_ne_true
    · exact hfault c
  simp only [List.mem_cons, List.not_mem_nil, or_false] at hi
  obtain rfl | rfl | rfl := hi
  · exact hopen hexec
  · exact (runsOn_keptByChunks k0 c0 s).schunk hu hfault hexec
  · exact hopen hexec

/-- Settles O44: an open stream runs on through the step, and one that runs on has its context in closed form. -/
theorem everyStepKeepsTheContextRunning : Obligations.EveryStepKeepsTheContextRunning := by
  unfold Obligations.EveryStepKeepsTheContextRunning
  intro k0 c0 s t hs h ht
  obtain ⟨hctx, hext, hoff, hlen⟩ := step_runsOn hs h ht
  exact ⟨contextRuns_iff.2 ⟨ht, hctx, hext⟩, hoff, hlen⟩

/-- Settles O45: `SOPEN` makes a fresh context, which runs from byte 0. -/
theorem openedContextRuns : Obligations.OpenedContextRuns := by
  unfold Obligations.OpenedContextRuns
  intro cap s t hf h
  rw [sopen, checkOpen_of_openFault hf] at h
  cases h
  exact contextRuns_iff.2 ⟨rfl, ctxRuns_init s.key s.ictr, zero_le_word s.len⟩

/-! ### Reset -/

theorem reset_eq_resetEngine : State.reset = resetEngine State.reset := rfl

/-- Settles O46: nothing is listed, recorded or requested at reset. -/
theorem invariantsHoldAtReset : Obligations.InvariantsHoldAtReset := by
  unfold Obligations.InvariantsHoldAtReset
  refine ⟨bufferOk_resetEngine State.reset, ⟨fun _ => rfl, fun h => by cases h⟩, fun r hr => ?_, fun h => by cases h⟩
  exact absurd hr List.not_mem_nil

/-- Settles O7: after reset and after `SRST` the engine is a reset engine, whose every element has its value. -/
theorem resetValues : Obligations.ResetValues := by
  unfold Obligations.ResetValues
  intro t ht
  obtain ⟨s, rfl⟩ : ∃ s, t = resetEngine s := by
    obtain rfl | ⟨s, hs⟩ := ht
    · exact ⟨_, reset_eq_resetEngine⟩
    · cases hs; exact ⟨s, rfl⟩
  have hstatus : statusWord (resetEngine s) = 0x00000000#32 := by simp [statusWord]
  simp [hstatus]

end Sys2Proof.Machine
end

section
/-! PROOF. What each host-visible register holds and takes (spec/10_state.md R34 to R39). -/

namespace Sys2Proof.Machine

/-! ### Operand and result registers, `STATUS` -/

theorem extractLsb'_eq_setWidth_ushiftRight {w : Nat} (x : BitVec w) (start len : Nat) :
    x.extractLsb' start len = (x >>> start).setWidth len := by
  ext i hi
  simp

/-- A write to an operand register is served, and a read that follows returns the value written. -/
theorem write_then_read {s t : State} {r : Reg} {v : Word} {rest : List HostAccess}
    (h : Serves s (.write 32 (regOffset r) v) (.read 32 (regOffset r) :: rest))
    (hw : writeReg r v (takeAccess (.read 32 (regOffset r) :: rest) s) = .finished t)
    (ht : Serves t (.read 32 (regOffset r)) rest) (hr : readReg r t = .ok v)
    (herr : t.err = s.err) (hecode : t.ecode = s.ecode) :
    ∃ t u, step s = .next t ∧ step t = .next u ∧ u.ret = .word v ∧ u.host = rest ∧ u.err = s.err ∧ u.ecode = s.ecode :=
  ⟨t, _, step_writeReg h hw, step_readReg_ok ht hr, rfl, rfl, herr, hecode⟩

/-- Settles O54: each offset is its register's, and the rules for a register's write and read apply. -/
theorem registersReadBack : Obligations.RegistersReadBack := by
  unfold Obligations.RegistersReadBack
  refine ⟨fun s v rest => ?_, fun s rest => ?_, fun s v off rest hoff h => ?_⟩
  · exact ⟨fun h => step_writeReg (r := .hoff) h rfl, fun h => step_writeReg (r := .seed) h rfl,
      fun h => step_writeReg (r := .len) h rfl, fun h => step_writeReg (r := .chunk) h rfl,
      fun h => step_writeReg (r := .req) h rfl⟩
  · have hlo : readReg .goutLo s = .ok (s.gout.setWidth 32) := by
      simp [readReg, extractLsb'_eq_setWidth_ushiftRight]
    have hhi : readReg .goutHi s = .ok ((s.gout >>> 32).setWidth 32) := by
      simp [readReg, extractLsb'_eq_setWidth_ushiftRight]
    exact ⟨fun h => step_readReg_ok (r := .hoff) h rfl, fun h => step_readReg_ok (r := .seed) h rfl,
      fun h => step_readReg_ok (r := .len) h rfl, fun h => step_readReg_ok (r := .chunk) h rfl,
      fun h => step_readReg_ok (r := .req) h rfl, fun h => step_readReg_ok (r := .tgot) h rfl,
      fun h => step_readReg_ok (r := .soff) h rfl, fun h => step_readReg_ok (r := .olen) h rfl,
      fun h => step_readReg_ok (r := .goutLo) h hlo, fun h => step_readReg_ok (r := .goutHi) h hhi⟩
  · simp only [List.mem_cons, List.not_mem_nil, or_false] at hoff
    obtain rfl | rfl | rfl | rfl | rfl := hoff
    · exact write_then_read (r := .hoff) h rfl ⟨h.1, rfl⟩ rfl rfl rfl
    · exact write_then_read (r := .seed) h rfl ⟨h.1, rfl⟩ rfl rfl rfl
    · exact write_then_read (r := .len) h rfl ⟨h.1, rfl⟩ rfl rfl rfl
    · exact write_then_read (r := .chunk) h rfl ⟨h.1, rfl⟩ rfl rfl rfl
    · exact write_then_read (r := .req) h rfl ⟨h.1, rfl⟩ rfl rfl rfl

theorem getLsbD_of_extractLsb' {w k : Nat} {v : BitVec w} {b : Bool} (h : v.extractLsb' k 1 = BitVec.ofBool b) :
    v.getLsbD k = b := by
  have hbit := congrArg (BitVec.getLsbD · 0) h
  simpa using hbit

/-- Settles O55: a read of `STATUS` returns the status word; each of its fields is the low end of what is left when the
fields below it are taken off one by one. -/
theorem statusShowsTheFlags : Obligations.StatusShowsTheFlags := by
  unfold Obligations.StatusShowsTheFlags
  intro s rest h
  refine ⟨statusWord s, step_readReg_ok (r := .status) h rfl, ?_⟩
  refine ⟨getLsbD_of_extractLsb' ?_, getLsbD_of_extractLsb' ?_, getLsbD_of_extractLsb' ?_, getLsbD_of_extractLsb' ?_,
    getLsbD_of_extractLsb' ?_, getLsbD_of_extractLsb' ?_, ?_, ?_, ?_, ?_, ?_⟩
  · exact BitVec.extractLsb'_append_eq_right
  iterate 9
    all_goals refine (BitVec.extractLsb'_append_eq_of_le (by decide)).trans ?_
    · exact BitVec.extractLsb'_append_eq_right
  · exact (BitVec.extractLsb'_append_eq_of_le (by decide)).trans BitVec.extractLsb'_eq_self

/-! ### `KEYn` and `ICTRn` -/

theorem setBlockWord_getElem (b : Block) (n : Fin 4) (v : Word) (j : Fin 16) :
    (setBlockWord b n v)[j] = if j.val / 4 = n.val then (v >>> (8 * (j.val % 4))).setWidth 8 else b[j] := by
  simp [setBlockWord, wordByte, extractLsb'_eq_setWidth_ushiftRight]

theorem setValid_getLsbD (v : BitVec 4) (n m : Fin 4) :
    (setValid v n).getLsbD m.val = (decide (m = n) || v.getLsbD m.val) := by
  revert v n m; decide

/-- Settles O56: the rules for a register's write and read, with what the write makes of each byte and valid bit. -/
theorem keyAndCounterWords : Obligations.KeyAndCounterWords := by
  unfold Obligations.KeyAndCounterWords
  intro s n rest
  refine ⟨fun v h => ?_, fun v h => ?_, fun h => ⟨fun hv => ?_, fun hv => ?_⟩, fun h => ⟨fun hv => ?_, fun hv => ?_⟩⟩
  · exact ⟨_, step_writeReg (r := .key n) h rfl, setBlockWord_getElem s.key n v, setValid_getLsbD s.keyv n, rfl⟩
  · exact ⟨_, step_writeReg (r := .ictr n) h rfl, setBlockWord_getElem s.ictr n v, setValid_getLsbD s.ictrv n, rfl⟩
  · exact step_readReg_ok (r := .key n) h (if_pos hv)
  · exact step_readReg_error (r := .key n) h (if_neg (Bool.eq_false_iff.1 hv))
  · exact step_readReg_ok (r := .ictr n) h (if_pos hv)
  · exact step_readReg_error (r := .ictr n) h (if_neg (Bool.eq_false_iff.1 hv))

/-! ### The context view -/

/-- A write that reaches no register, or one that takes no write, records `E_ADDR` and does nothing else. -/
theorem step_write_faults {s : State} {width off : Nat} {v : Word} {rest : List HostAccess}
    (h : Serves s (.write width off v) rest)
    (hr : ∀ r, regAt width off = some r → ∀ u, writeReg r v u = .finished (recordFault .addr u)) :
    step s = .next (faulted .addr { s with host := rest, ret := .done }) := by
  rw [step_access h.1 h.2, hostPort, hostWrite]
  cases hat : regAt width off with
  | none => rfl
  | some r => simp only [hr r hat]; rfl

/-- No register but those of the context view lies from 0x050 to 0x060. -/
theorem regAt_contextView {off : Nat} {r : Reg} (hlo : 0x050 ≤ off) (hhi : off ≤ 0x060) (h : regAt 32 off = some r) :
    (∃ n, r = .cb n) ∨ r = .cpos := by
  obtain ⟨-, rfl⟩ := regAt_eq_some.1 h
  cases r with
  | cb n => exact .inl ⟨n, rfl⟩
  | cpos => exact .inr rfl
  | _ => simp only [regOffset] at hlo hhi; omega

/-- Settles O57: the context view reads under `CTXV`, and every write at its offsets reaches a register that takes none, or
no register. -/
theorem contextView : Obligations.ContextView := by
  unfold Obligations.ContextView
  intro s rest
  refine ⟨fun n h => ⟨fun hv => ?_, fun hv => ?_⟩, fun h => ⟨fun hv => ?_, fun hv => ?_⟩, fun v off hlo hhi h => ?_⟩
  · exact step_readReg_ok (r := .cb n) h (if_pos hv)
  · exact step_readReg_error (r := .cb n) h (if_neg (Bool.eq_false_iff.1 hv))
  · exact step_readReg_ok (r := .cpos) h (if_pos hv)
  · exact step_readReg_error (r := .cpos) h (if_neg (Bool.eq_false_iff.1 hv))
  · refine step_write_faults h fun r hr u => ?_
    obtain ⟨n, rfl⟩ | rfl := regAt_contextView hlo hhi hr <;> rfl

/-! ### The table window -/

/-- Settles O58: both directions go by `TBLV`, and a write sets its own word only. -/
theorem tableWindow : Obligations.TableWindow := by
  unfold Obligations.TableWindow
  intro s i rest
  refine ⟨fun h => ⟨fun hv => ?_, fun hv => ?_⟩, fun v h => ⟨fun hv => ?_, fun hv => ?_⟩⟩
  · exact step_readReg_ok (r := .tblw i) h (if_pos hv)
  · exact step_readReg_error (r := .tblw i) h (if_neg (Bool.eq_false_iff.1 hv))
  · refine ⟨{ s with tbl := s.tbl.set i v, host := rest, ret := .done },
      step_writeReg (r := .tblw i) h (congrArg PortResult.finished (if_pos hv)), fun j => ?_, rfl⟩
    simp [Vector.getElem_set, Fin.ext_iff, eq_comm]
  · exact step_writeReg (r := .tblw i) h (congrArg PortResult.finished (if_neg (Bool.eq_false_iff.1 hv)))

end Sys2Proof.Machine
end

section
/-! PROOF. What the host's accesses do (spec/20_memory.md R65, R68, R69): the rules for reads of registers and of the
output buffer, what a register write can change, and what a request that is never answered leaves (R73). -/

namespace Sys2Proof.Machine

/-! ### Requests without an answer, and answers that are too long -/

theorem awaitAnswer_eq_unanswered (space : Space) (off : Word) (max : Nat) (s : State) :
    awaitAnswer space off max s = unanswered space off max s := by cases space <;> rfl

theorem loadTable_never {max : Nat} {s : State} (h : sourceAnswer s.hdr s.hoff.toNat max = .never)
    (go : State → Result State) : loadTable max s go = .next (unanswered .hdr s.hoff max s) :=
  srcRead_never (space := .hdr) h _

theorem loadTable_tooLong {max : Nat} {s : State} (h : sourceAnswer s.hdr s.hoff.toNat max = .tooLong)
    (go : State → Result State) : loadTable max s go = .refused (.answerTooLong .hdr) :=
  srcRead_tooLong (space := .hdr) h _

theorem chunkStep_never {req : Nat} {s : State} (hreq : req ≠ 0) (h : sourceAnswer s.src s.soff.toNat req = .never)
    (go : State → Result State) : chunkStep req s go = .next (unanswered .src s.soff req s) :=
  (if_neg hreq).trans (srcRead_never (space := .src) h _)

theorem chunkStep_tooLong {req : Nat} {s : State} (hreq : req ≠ 0)
    (h : sourceAnswer s.src s.soff.toNat req = .tooLong) (go : State → Result State) :
    chunkStep req s go = .refused (.answerTooLong .src) :=
  (if_neg hreq).trans (srcRead_tooLong (space := .src) h _)

theorem exec_kcder (s : State) :
    exec .kcder s = loadTable Config.tblLoadBytes s fun t => .next (derivePair Config.prng t) := rfl

theorem sourceAnswer_of_never {src : Source} {later : List Reply} (h : src.replies = .never :: later) (off max : Nat) :
    sourceAnswer src off max = .never := by
  rw [sourceAnswer, h]

theorem exec_schunk_of_ctxv {s : State} (h : s.ctxv = true) :
    exec .schunk s = chunkStep (min s.req.toNat (remaining s)) s .next := by
  rw [exec, execSchunk, h, check_true]

/-- Where neither bound is 0, a stream of at least one byte is asked for in chunks of at least one byte. -/
theorem chunkSize_ne_zero {lo hi L c : Nat} (hlo : lo ≠ 0) (hhi : hi ≠ 0) (hL : L ≠ 0) : chunkSize lo hi L c ≠ 0 := by
  unfold chunkSize clamp
  split_ifs <;> omega

/-- Where the first request of a stream is never answered, it opens and then waits at byte 0. -/
theorem runStream_never {lo hi : Nat} (hlo : lo ≠ 0) (hhi : hi ≠ 0) {s : State} {later : List Reply}
    (hlen : s.len ≠ 0#32) (h : s.src.replies = .never :: later) :
    runStream lo hi s =
      .next (unanswered .src 0#32 (chunkSize lo hi s.len.toNat s.chunk.toNat) (openContext s)) := by
  have hL : s.len.toNat ≠ 0 := fun h0 => hlen (BitVec.eq_of_toNat_eq h0)
  have hfit : min (chunkSize lo hi s.len.toNat s.chunk.toNat) (remaining (openContext s)) =
      chunkSize lo hi s.len.toNat s.chunk.toNat := Nat.min_eq_left (Nat.min_le_left ..)
  have hgo : (openContext s).soff.toNat < (openContext s).olen.toNat ∧ (openContext s).sshort = false :=
    ⟨Nat.pos_of_ne_zero hL, rfl⟩
  obtain ⟨n, hn⟩ := Nat.exists_eq_succ_of_ne_zero hL
  calc runStream lo hi s
      = streamLoop (chunkSize lo hi s.len.toNat s.chunk.toNat) (fun t => .next (closeContext t)) (n + 1)
          (openContext s) := by rw [runStream, hn]
    _ = chunkStep (chunkSize lo hi s.len.toNat s.chunk.toNat) (openContext s) _ := by
        rw [streamLoop, if_pos hgo, hfit]
    _ = .next (unanswered .src 0#32 (chunkSize lo hi s.len.toNat s.chunk.toNat) (openContext s)) :=
        chunkStep_never (s := openContext s) (chunkSize_ne_zero hlo hhi hL) (sourceAnswer_of_never h _ _) _

/-- The hardware reset that ends a wait is the first one queued; the accesses before it are lost. -/
theorem waitForReset_of_host {s : State} {lost rest : List HostAccess} (h : s.host = lost ++ .hardReset :: rest)
    (hlost : .hardReset ∉ lost) : waitForReset s = resetEngine (takeAccess rest s) := by
  have hdrop : s.host.dropWhile (fun a => decide (a ≠ .hardReset)) = .hardReset :: rest := by
    rw [h, List.dropWhile_append_of_pos fun a ha => decide_eq_true (ne_of_mem_of_not_mem ha hlost)]
    rfl
  rw [waitForReset, hdrop]

theorem waitForReset_of_not_mem {s : State} (h : .hardReset ∉ s.host) : waitForReset s = s := by
  obtain ⟨-, hw⟩ | ⟨lost, rest, hs, -, -⟩ := waitForReset_cases s
  · exact hw
  · exact absurd (by simp [hs]) h

/-- Settles O14: each request has its rule for no answer and for too long an answer, and a waiting engine has its two
steps. -/
theorem silentSourceWaitsForAHardwareReset : Obligations.SilentSourceWaitsForAHardwareReset := by
  unfold Obligations.SilentSourceWaitsForAHardwareReset
  refine ⟨fun s => ⟨fun h => ?_, fun h => ?_, fun hc hreq => ⟨fun h => ?_, fun h => ?_⟩⟩,
    fun cap s later hf hlen h => ?_, fun s hw => ⟨fun hn => ?_, fun lost rest hs hlost => ?_⟩⟩
  · exact ⟨loadTable_never h _, (exec_kcder s).trans (loadTable_never h _)⟩
  · exact ⟨loadTable_tooLong h _, (exec_kcder s).trans (loadTable_tooLong h _)⟩
  · exact (exec_schunk_of_ctxv hc).trans (chunkStep_never hreq h _)
  · exact (exec_schunk_of_ctxv hc).trans (chunkStep_tooLong hreq h _)
  · refine ⟨openContext s, checkOpen_of_openFault hf _, ?_⟩
    rw [dstream, checkOpen_of_openFault hf]
    exact runStream_never (by decide) (by decide) hlen h
  · rw [step_waiting hw, waitForReset_of_not_mem hn]
  · rw [step_waiting hw, waitForReset_of_host hs hlost]
    rfl

/-! ### What reads and register writes leave alone -/

/-- A read of a register or of the output buffer finishes with a value returned and at most a fault recorded. -/
theorem hostPort_read_cases {a : HostAccess} (ha : (∃ width off, a = .read width off) ∨ ∃ o, a = .readOut o)
    (s : State) :
    ∃ r u, (u = s ∨ ∃ c, u = recordFault c s) ∧ hostPort a s = .finished { u with ret := r } := by
  obtain ⟨width, off, rfl⟩ | ⟨o, rfl⟩ := ha
  · obtain ⟨v, h⟩ | ⟨c, h⟩ := hostRead_cases width off s
    · exact ⟨.word v, s, .inl rfl, congrArg PortResult.finished h⟩
    · exact ⟨.word 0#32, _, .inr ⟨c, rfl⟩, congrArg PortResult.finished h⟩
  · obtain ⟨b, h⟩ | ⟨c, h⟩ := readOut_cases o s
    · exact ⟨.byte b, s, .inl rfl, congrArg PortResult.finished h⟩
    · exact ⟨.byte 0#8, _, .inr ⟨c, rfl⟩, congrArg PortResult.finished h⟩

/-- `t` is `s` but for the fault record and what a register write can set (spec/10_state.md R34, R37, R39). -/
def WriteFrame (s t : State) : Prop :=
  t = { s with
    err := t.err, ecode := t.ecode, hoff := t.hoff, seed := t.seed, len := t.len, chunk := t.chunk, req := t.req,
    key := t.key, keyv := t.keyv, ictr := t.ictr, ictrv := t.ictrv, tbl := t.tbl }

theorem writeFrame_recordFault (c : FaultCode) (s : State) : WriteFrame s (recordFault c s) := rfl

theorem writeReg_frame {r : Reg} (hr : r ≠ .cmd) (v : Word) (s : State) :
    ∃ t, writeReg r v s = .finished t ∧ WriteFrame s t := by
  cases r with
  | cmd => exact absurd rfl hr
  | tblw i =>
    refine ⟨_, rfl, ?_⟩
    split_ifs
    · rfl
    · exact writeFrame_recordFault .noTbl s
  | _ => exact ⟨_, rfl, rfl⟩

theorem hostWrite_frame {off : Nat} (hoff : off ≠ 0x000) (width : Nat) (v : Word) (s : State) :
    ∃ t, hostWrite width off v s = .finished t ∧ WriteFrame s t := by
  rw [hostWrite]
  cases hat : regAt width off with
  | none => exact ⟨_, rfl, writeFrame_recordFault .addr s⟩
  | some r =>
    obtain ⟨-, rfl⟩ := regAt_eq_some.1 hat
    exact writeReg_frame (fun hr => hoff (by rw [hr]; rfl)) v s

/-- Settles O50: a read only returns and may record a fault, and a write at another offset than `CMD`'s keeps its frame. -/
theorem hostAccessesLeaveTheRest : Obligations.HostAccessesLeaveTheRest := by
  unfold Obligations.HostAccessesLeaveTheRest
  refine ⟨fun s t a rest hs ha h => ?_, fun s t width off v rest hs hoff h => ?_⟩
  · obtain ⟨r, u, hu, hp⟩ := hostPort_read_cases ha (takeAccess rest s)
    rw [step_access hs.1 hs.2, hp] at h
    cases h
    obtain rfl | ⟨c, rfl⟩ := hu <;> rfl
  · obtain ⟨u, hp, hu⟩ := hostWrite_frame hoff width v (takeAccess rest s)
    rw [step_access hs.1 hs.2, hostPort, hp] at h
    cases h
    exact hu

/-! ### Wrong register accesses -/

/-- A read that reaches no register, or one that takes no read, records `E_ADDR`, returns 0 and does nothing else. -/
theorem step_read_faults {s : State} {width off : Nat} {rest : List HostAccess} (h : Serves s (.read width off) rest)
    (hr : ∀ r, regAt width off = some r → r = .cmd) :
    step s = .next (faulted .addr { s with host := rest, ret := .word 0#32 }) := by
  cases hat : regAt width off with
  | none =>
    rw [step_access h.1 h.2, hostPort, hostRead]
    simp only [hat]
    rfl
  | some r =>
    obtain rfl := hr r hat
    obtain ⟨rfl, rfl⟩ := regAt_eq_some.1 hat
    exact step_readReg_error h rfl

/-- Of the registers only `CMD` lies at an offset whose read is wrong (spec/10_state.md R34). -/
theorem eq_cmd_of_wrong_read {r : Reg} (h : regOffset r % 4 ≠ 0 ∨ 0x400 ≤ regOffset r ∨
    (0x064 ≤ regOffset r ∧ regOffset r < 0x200) ∨ regOffset r = 0x000) : r = .cmd := by
  cases r with
  | cmd => rfl
  | _ => simp only [regOffset] at h; omega

/-- Every register at an offset whose write is wrong is read-only (spec/10_state.md R34, R38). -/
theorem writeReg_of_wrong_write {r : Reg} (h : regOffset r % 4 ≠ 0 ∨ 0x400 ≤ regOffset r ∨
    (0x050 ≤ regOffset r ∧ regOffset r < 0x200) ∨ regOffset r ∈ [0x004, 0x00C, 0x014, 0x018, 0x028, 0x02C])
    (v : Word) (s : State) : writeReg r v s = .finished (recordFault .addr s) := by
  simp only [List.mem_cons, List.not_mem_nil, or_false] at h
  cases r with
  | status | tgot | goutLo | goutHi | soff | olen | cb _ | cpos => rfl
  | _ => simp only [regOffset] at h; omega

/-- Settles O53: an access whose width, alignment or offset is wrong reaches no register, or one without that access. -/
theorem wrongRegisterAccessFaults : Obligations.WrongRegisterAccessFaults := by
  unfold Obligations.WrongRegisterAccessFaults
  refine fun s width off rest => ⟨fun hwrong h => step_read_faults h fun r hr => ?_,
    fun v hwrong h => step_write_faults h fun r hr => ?_⟩
  all_goals
    obtain ⟨rfl, rfl⟩ := regAt_eq_some.1 hr
    replace hwrong := hwrong.resolve_left (not_not_intro rfl)
  · exact eq_cmd_of_wrong_read hwrong
  · exact writeReg_of_wrong_write hwrong v

/-! ### Output buffer reads -/

/-- Settles O59: the two checks stand in the operation in this order. -/
theorem outputBufferReads : Obligations.OutputBufferReads := by
  unfold Obligations.OutputBufferReads
  intro s o rest h
  rw [step_access h.1 h.2, hostPort, readOut, takeAccess_ctxv, takeAccess_olen]
  split_ifs <;> rfl

end Sys2Proof.Machine
end

section
/-! PROOF. The command encoding (spec/30_encoding.md R90 to R95): what decodes is exactly what the encoder writes, from which
the rows of the opcode table and the illegal words follow. -/

namespace Sys2Proof.Machine

/-! ### The fields of a word -/

/-- A word is its opcode before its lower 24 bits (spec/30_encoding.md R91). -/
theorem opcodeField_append_low (w : Word) : opcodeField w ++ w.extractLsb' 0 24 = w :=
  BitVec.extractLsb'_append_extractLsb' (w := 8) (len := 24)

/-- A word is its opcode before the fields of format `K` (spec/30_encoding.md R92). -/
theorem opcodeField_append_fields (w : Word) :
    opcodeField w ++ w.extractLsb' 9 15 ++ w.extractLsb' 8 1 ++ w.extractLsb' 7 1 ++ w.extractLsb' 0 7 = w := by
  simp only [opcodeField, BitVec.extractLsb'_append_extractLsb'_eq_extractLsb', BitVec.extractLsb'_eq_self]

/-- Each field of format `K` is read back from a word put together from its fields. -/
theorem fields_append (o : BitVec 8) (high : BitVec 15) (d z : BitVec 1) (idx : BitVec 7) :
    opcodeField (o ++ high ++ d ++ z ++ idx) = o ∧
    (o ++ high ++ d ++ z ++ idx).extractLsb' 9 15 = high ∧
    (o ++ high ++ d ++ z ++ idx).extractLsb' 8 1 = d ∧
    (o ++ high ++ d ++ z ++ idx).extractLsb' 7 1 = z ∧
    (o ++ high ++ d ++ z ++ idx).extractLsb' 0 7 = idx := by
  refine ⟨?_, ?_, ?_, ?_, BitVec.extractLsb'_append_eq_right⟩ <;>
    simp only [opcodeField, BitVec.extractLsb'_append_eq_of_le, BitVec.extractLsb'_append_eq_right,
      BitVec.extractLsb'_eq_self, Nat.reduceLeDiff, Nat.reduceSub, -Nat.reduceAdd]

theorem extractLsb'_one (w : Word) (i : Nat) : w.extractLsb' i 1 = BitVec.ofBool (w.getLsbD i) := by
  rw [BitVec.getLsbD_eq_extractLsb']
  generalize w.extractLsb' i 1 = b
  revert b
  decide

/-- The destination the decoder reads from bit 8 is written back to it. -/
theorem dstBit_of_bit (w : Word) : dstBit (if w.getLsbD 8 then .ictr else .key) = w.extractLsb' 8 1 := by
  rw [extractLsb'_one]
  cases w.getLsbD 8 <;> rfl

/-! ### Each format decodes what the encoder writes, and nothing else -/

/-- Format `Z` reads `i` only from a word that is the opcode before 24 zero bits (spec/30_encoding.md R91). -/
theorem encode_of_formatZ {w : Word} {i j : Instr} {n : Nat}
    (hi : i.wellFormed = true ∧ encode i = BitVec.ofNat 8 n ++ 0#24) (ho : (opcodeField w).toNat = n)
    (h : formatZ w i = .ok j) : j.wellFormed = true ∧ encode j = w := by
  obtain ⟨hwf, he⟩ := hi
  unfold formatZ at h
  split_ifs at h with hlow
  cases h
  refine ⟨hwf, ?_⟩
  calc encode i = BitVec.ofNat 8 n ++ 0#24 := he
    _ = opcodeField w ++ w.extractLsb' 0 24 := by rw [← ho, BitVec.ofNat_toNat, BitVec.setWidth_eq, hlow]
    _ = w := opcodeField_append_low w

/-- Format `K` reads a `KMDER` only from the word of its fields (spec/30_encoding.md R92). -/
theorem encode_of_formatK {w : Word} {j : Instr} (ho : opcodeField w = 0x30#8) (h : formatK w = .ok j) :
    j.wellFormed = true ∧ encode j = w := by
  unfold formatK at h
  split at h
  case isFalse => cases h
  case isTrue hzero =>
    obtain ⟨hhigh, hbit⟩ := hzero
    have hbit' : w.extractLsb' 7 1 = 0#1 := by rw [extractLsb'_one, hbit]; rfl
    cases h
    refine ⟨decide_eq_true (w.extractLsb' 0 7).isLt, ?_⟩
    rw [encode, BitVec.ofNat_toNat, BitVec.setWidth_eq, dstBit_of_bit, ← ho, ← hhigh, ← hbit']
    exact opcodeField_append_fields w

theorem decode_of_opcodeField_kmder {w : Word} (h : opcodeField w = 0x30#8) : decode w = formatK w := by
  rw [decode, h]
  rfl

/-- The word of a `KMDER` has its index and its destination in the fields of format `K`, and zeros in the others. -/
theorem decode_encode_kmder {idx : Nat} (h : idx < 128) (dst : Dst) :
    decode (encode (.kmder idx dst)) = .ok (.kmder idx dst) := by
  obtain ⟨hop, hhigh, hdst, hbit, hidx⟩ := fields_append 0x30#8 0#15 (dstBit dst) 0#1 (BitVec.ofNat 7 idx)
  rw [encode, decode_of_opcodeField_kmder hop, formatK]
  simp only [BitVec.getLsbD_eq_extractLsb', hhigh, hbit, hdst, hidx, BitVec.toNat_ofNat, Nat.mod_eq_of_lt h]
  cases dst <;> rfl

theorem decode_encode {i : Instr} (h : i.wellFormed = true) : decode (encode i) = .ok i := by
  cases i with
  | kmder idx dst => exact decode_encode_kmder (of_decide_eq_true h) dst
  | _ => rfl

/-- Each assigned opcode has one format, and each format determines the whole word. -/
theorem encode_of_decode {w : Word} {i : Instr} (h : decode w = .ok i) : i.wellFormed = true ∧ encode i = w := by
  unfold decode at h
  split at h
  case h_8 ho => exact encode_of_formatK (BitVec.eq_of_toNat_eq ho) h
  case h_14 => cases h
  all_goals exact encode_of_formatZ ⟨rfl, rfl⟩ ‹_› h

/-- Decoder and encoder are inverse between the command words and the well-formed commands (spec/30_encoding.md R94). -/
theorem decode_eq_ok_iff {w : Word} {i : Instr} : decode w = .ok i ↔ i.wellFormed = true ∧ encode i = w := by
  refine ⟨encode_of_decode, ?_⟩
  rintro ⟨hi, rfl⟩
  exact decode_encode hi

/-- Settles O1: the words of format `Z` are constants, and `KMDER`'s is read back field by field. -/
theorem decodeOfEncodeIsTheCommand : Obligations.DecodeOfEncodeIsTheCommand := fun _ => decode_encode

/-- Settles O2: the word is put together again from the fields its format has read. -/
theorem decodedWordIsTheOnlyEncoding : Obligations.DecodedWordIsTheOnlyEncoding := fun _ _ => encode_of_decode

/-! ### The rows of the opcode table -/

/-- A row whose mask is all ones is the one word it matches. -/
theorem decode_eq_ok_iff_eq {w : Word} {i : Instr} (hi : i.wellFormed = true) :
    decode w = .ok i ↔ w &&& 0xFFFFFFFF#32 = encode i := by
  rw [decode_eq_ok_iff, show (0xFFFFFFFF#32) = BitVec.allOnes 32 from rfl, BitVec.and_allOnes, eq_comm (a := w)]
  exact and_iff_right hi

/-- The mask of `KMDER`'s row covers the opcode and the zero fields of format `K`. -/
theorem fields_of_kmder_row {w : Word} (h : w &&& 0xFFFFFE80#32 = 0x30000000#32) :
    opcodeField w = 0x30#8 ∧ w.extractLsb' 9 15 = 0#15 ∧ w.getLsbD 7 = false := by
  have hfield (start len : Nat) : w.extractLsb' start len &&& (0xFFFFFE80#32).extractLsb' start len =
      (0x30000000#32).extractLsb' start len := by rw [← BitVec.extractLsb'_and, h]
  refine ⟨?_, ?_, ?_⟩
  · have := hfield 24 8
    rwa [show (0xFFFFFE80#32).extractLsb' 24 8 = BitVec.allOnes 8 by decide, BitVec.and_allOnes] at this
  · have := hfield 9 15
    rwa [show (0xFFFFFE80#32).extractLsb' 9 15 = BitVec.allOnes 15 by decide, BitVec.and_allOnes] at this
  · simpa using congrArg (BitVec.getLsbD · 7) h

theorem decode_eq_kmder_iff {w : Word} :
    (∃ idx dst, decode w = .ok (.kmder idx dst)) ↔ w &&& 0xFFFFFE80#32 = 0x30000000#32 := by
  constructor
  · rintro ⟨idx, dst, h⟩
    obtain ⟨hwf, rfl⟩ := decode_eq_ok_iff.1 h
    exact Laws.TableRow.kmder idx dst hwf
  · intro h
    obtain ⟨hop, hhigh, hbit⟩ := fields_of_kmder_row h
    exact ⟨_, _, (decode_of_opcodeField_kmder hop).trans (if_pos ⟨hhigh, hbit⟩)⟩

/-- Settles O3: every row but `KMDER`'s is one word, and `KMDER`'s mask covers all but its operand fields. -/
theorem onlyTheThirteenRowsDecode : Obligations.OnlyTheThirteenRowsDecode := by
  unfold Obligations.OnlyTheThirteenRowsDecode
  intro w
  refine ⟨?_, ?_, ?_, ?_, ?_, ?_, ?_, decode_eq_kmder_iff, ?_, ?_, ?_, ?_, ?_⟩ <;> exact decode_eq_ok_iff_eq rfl

/-- Settles O4: each word is a constant, and the decoder is evaluated on it. -/
theorem specCommandWordsDecode : Obligations.SpecCommandWordsDecode := by
  unfold Obligations.SpecCommandWordsDecode
  decide

/-- Settles O6: a word that no well-formed command has does not decode. -/
theorem illegalWordRecordsIllCmd : Obligations.IllegalWordRecordsIllCmd := by
  unfold Obligations.IllegalWordRecordsIllCmd
  intro s w rest ⟨hwait, hhost⟩ hillegal
  rw [step_command hwait hhost, runCommand]
  cases hd : decode w with
  | error e => rfl
  | ok i =>
    obtain ⟨hi, hw⟩ := encode_of_decode hd
    exact absurd hw (hillegal i hi)

end Sys2Proof.Machine
end

section
/-! PROOF. The pseudo-statements (spec/30_encoding.md R98): what a load of the table and two derivations come to beside
`KCDER`, and what the writes of `LDKEY`, `LDICTR` and `LDTBL` leave. -/

namespace Sys2Proof.Machine

/-! ### Load, then derive -/

theorem loadTable_bytes {max : Nat} {s : State} {d : List Byte} (h : sourceAnswer s.hdr s.hoff.toNat max = .bytes d)
    (go : State → Result State) :
    loadTable max s go = go (installTable max d (noteRequest .hdr s.hoff max (some d.length) s)) :=
  srcRead_bytes (space := .hdr) h _

theorem exec_kmder_of_tblv {s : State} (h : s.tblv = true) (idx : Nat) (dst : Dst) :
    exec (.kmder idx dst) s = .next (deriveMaterial Config.prng idx dst s) := by
  rw [exec, execKmder, h, check_true]

@[simp] theorem deriveMaterial_tblv (p : Prng) (idx : Nat) (dst : Dst) (s : State) :
    (deriveMaterial p idx dst s).tblv = s.tblv := by
  cases dst <;> simp only [deriveMaterial, discardGenerator, writeMaterial]

/-- The pair derivation is the derivation of the key and then of the counter, the table discarded at the end
(spec/43_key_scheduler.md R147). -/
theorem derivePair_eq_deriveMaterial (p : Prng) (s : State) :
    derivePair p s =
      { deriveMaterial p Config.ctrIndex .ictr (deriveMaterial p Config.keyIndex .key s) with tblv := false } := by
  simp only [derivePair, deriveMaterial, discardGenerator, writeMaterial]

/-- Settles O24: the table loaded serves both derivations, which keep it. -/
theorem kcderIsLoadThenDerivations : Obligations.KcderIsLoadThenDerivations := by
  unfold Obligations.KcderIsLoadThenDerivations
  intro s d h
  have ha : exec .tload s = _ := loadTable_bytes h .next
  have hk : exec .kcder s = _ := (exec_kcder s).trans (loadTable_bytes h _)
  refine ⟨_, _, _, ha, exec_kmder_of_tblv ?_ 0 .key, exec_kmder_of_tblv ?_ 2 .ictr, ?_, ?_⟩
  case refine_4 => exact hk.trans (congrArg Host.Outcome.next (derivePair_eq_deriveMaterial ..))
  all_goals simp

/-! ### Runs of register writes -/

theorem run_of_step {s t : State} (h : step s = .next t) (k : Nat) :
    Host.Core.run Sys2Proof.core (k + 1) s = Host.Core.run Sys2Proof.core k t := by
  have hcore : Sys2Proof.core.step s = .next t := h
  simp only [Host.Core.run, hcore]

/-- What the access before the next returned does not matter to a run that serves the next. -/
theorem run_ret {s : State} {a : HostAccess} {rest : List HostAccess} (h : Serves s a rest) (k : Nat) :
    Host.Core.run Sys2Proof.core (k + 1) s = Host.Core.run Sys2Proof.core (k + 1) (takeAccess (a :: rest) s) := by
  have hstep : Sys2Proof.core.step s = Sys2Proof.core.step (takeAccess (a :: rest) s) :=
    (step_access h.1 h.2).trans (step_access (s := takeAccess (a :: rest) s) h.1 rfl).symm
  simp only [Host.Core.run, hstep]

/-- A family of `n` registers, register `i` loaded with `val i`. The part of the state they hold is a `σ`, `put c` is the
engine with `c` there, and a write of register `i` makes `set c i` of `c`. -/
structure LoadsWords {σ : Type} {n : Nat} (put : σ → State) (set : σ → Fin n → σ) (reg : Fin n → Reg)
    (val : Fin n → Word) : Prop where
  ready : ∀ c, (put c).waiting = false
  writes : ∀ c i rest, writeReg (reg i) (val i) (takeAccess rest (put c)) = .finished (takeAccess rest (put (set c i)))

section
variable {σ : Type} {n : Nat} {put : σ → State} {set : σ → Fin n → σ} {reg : Fin n → Reg} {val : Fin n → Word}

/-- The writes of a list of registers of the family are one step each, in order. -/
theorem LoadsWords.run (h : LoadsWords put set reg val) (l : List (Fin n)) (rest : List HostAccess) (c : σ) :
    Host.Core.run Sys2Proof.core l.length (takeAccess (l.map (fun i => wrAccess (reg i) (val i)) ++ rest) (put c)) =
      .next (takeAccess rest (put (l.foldl set c))) := by
  induction l generalizing c with
  | nil => rfl
  | cons i l ih =>
    have hserves : Serves (takeAccess ((i :: l).map (fun i => wrAccess (reg i) (val i)) ++ rest) (put c))
        (.write 32 (regOffset (reg i)) (val i)) (l.map (fun i => wrAccess (reg i) (val i)) ++ rest) := ⟨h.ready c, rfl⟩
    rw [List.length_cons, run_of_step (step_writeReg hserves (h.writes c i _)), ih, List.foldl_cons]

/-- Each register of the family read as `get`: once all are written, all of them read as written. -/
theorem get_foldl_set {β : Type} {get : σ → Fin n → β} {w : Fin n → β}
    (hset : ∀ c i j, get (set c i) j = if j = i then w j else get c j) (l : List (Fin n)) (c : σ) (j : Fin n) :
    get (l.foldl set c) j = if j ∈ l then w j else get c j := by
  induction l generalizing c with
  | nil => simp
  | cons i l ih =>
    rw [List.foldl_cons, ih, hset]
    by_cases hl : j ∈ l <;> by_cases hi : j = i <;> simp [hl, hi]

/-- Where each register holds only what was last written to it, and the registers make up the content, the `n` writes of
the family leave the content they write. -/
theorem LoadsWords.run_all (h : LoadsWords put set reg val) {β : Type} {get : σ → Fin n → β} {goal : σ}
    (hset : ∀ c i j, get (set c i) j = if j = i then get goal j else get c j)
    (hext : ∀ c, (∀ j, get c j = get goal j) → c = goal) (rest : List HostAccess) (c : σ) :
    Host.Core.run Sys2Proof.core n
        (takeAccess ((List.finRange n).map (fun i => wrAccess (reg i) (val i)) ++ rest) (put c)) =
      .next (takeAccess rest (put goal)) := by
  have hall : (List.finRange n).foldl set c = goal := hext _ fun j => by
    rw [get_foldl_set hset, if_pos (List.mem_finRange j)]
  have hrun := h.run (List.finRange n) rest c
  rwa [List.length_finRange, hall] at hrun

end

/-! ### The three loading scripts -/

/-- A 16-byte register with its valid bits. -/
abbrev ValidBlock := Block × BitVec 4

/-- The host's write of word `n` of `b` (spec/10_state.md R37). -/
def setWord (b : Block) (c : ValidBlock) (n : Fin 4) : ValidBlock :=
  (setBlockWord c.1 n (blockWord b n), setValid c.2 n)

/-- Word `n` and its valid bit. -/
def getWord (c : ValidBlock) (n : Fin 4) : Word × Bool := (blockWord c.1 n, c.2.getLsbD n.val)

theorem getWord_setWord (b : Block) (c : ValidBlock) (i j : Fin 4) :
    getWord (setWord b c i) j = if j = i then getWord (b, 0b1111#4) j else getWord c j := by
  have hvalid : (0b1111#4).getLsbD j.val = true := by revert j; decide
  simp only [getWord, setWord, blockWord_setBlockWord, setValid_getLsbD, hvalid]
  by_cases h : j = i <;> simp [h]

theorem validBlock_ext {c c' : ValidBlock} (h : ∀ j, getWord c j = getWord c' j) : c = c' :=
  Prod.ext (block_ext_words _ _ fun j => congrArg Prod.fst (h j))
    (BitVec.eq_of_getLsbD_eq fun j hj => congrArg Prod.snd (h ⟨j, hj⟩))

/-- `s` with `KEY` and its valid bits. -/
def withKey (s : State) (c : ValidBlock) : State := { s with key := c.1, keyv := c.2 }

/-- `s` with `ICTR` and its valid bits. -/
def withIctr (s : State) (c : ValidBlock) : State := { s with ictr := c.1, ictrv := c.2 }

/-- `s` with a table and the flags `TINIT` leaves (spec/41_table_loader.md R121). -/
def withTable (s : State) (t : Table) : State := { s with tbl := t, tblv := true, tgot := 0#32, tshort := false }

theorem step_tinit {s : State} {rest : List HostAccess} (hs : s.waiting = false)
    (hh : s.host = commandWrite (encode .tinit) :: rest) :
    step s = .next (takeAccess rest (withTable s zeroTable)) := by
  rw [step_command hs hh, runCommand, decode_encode rfl]
  rfl

theorem loadsWords_key {s : State} (hs : s.waiting = false) (b : Block) :
    LoadsWords (withKey s) (setWord b) .key (blockWord b) := ⟨fun _ => hs, fun _ _ _ => rfl⟩

theorem loadsWords_ictr {s : State} (hs : s.waiting = false) (b : Block) :
    LoadsWords (withIctr s) (setWord b) .ictr (blockWord b) := ⟨fun _ => hs, fun _ _ _ => rfl⟩

theorem getElem_setEntry (t u : Table) (i j : Fin 128) :
    (u.set i t[i])[j] = if j = i then t[j] else u[j] := by
  by_cases h : j = i
  · simp [h]
  · have hne : i.val ≠ j.val := fun e => h (Fin.ext e.symm)
    simp [h, Vector.getElem_set_ne, hne]

theorem loadsWords_table {s : State} (hs : s.waiting = false) (t : Table) :
    LoadsWords (withTable s) (fun c i => c.set i t[i]) .tblw (fun i => t[i]) := ⟨fun _ => hs, fun _ _ _ => rfl⟩

/-- Settles O60: the registers of `KEY`, of `ICTR` and of the table window are each such a family, the last after `TINIT`. -/
theorem scriptsLoadTheirValues : Obligations.ScriptsLoadTheirValues := by
  unfold Obligations.ScriptsLoadTheirValues
  refine fun s rest => ⟨fun b hs hh => ?_, fun b hs hh => ?_, fun t hs hh => ?_⟩
  · rw [run_ret ⟨hs, hh⟩]
    exact (loadsWords_key hs b).run_all (getWord_setWord b) (fun _ => validBlock_ext) rest (s.key, s.keyv)
  · rw [run_ret ⟨hs, hh⟩]
    exact (loadsWords_ictr hs b).run_all (getWord_setWord b) (fun _ => validBlock_ext) rest (s.ictr, s.ictrv)
  · rw [run_of_step (step_tinit hs hh)]
    exact (loadsWords_table hs t).run_all (get := fun u j => u[j]) (getElem_setEntry t)
      (fun _ h => Vector.ext fun j hj => h ⟨j, hj⟩) rest zeroTable

end Sys2Proof.Machine
end

section
/-! PROOF. The control commands `NOP` and `SRST`, the hardware reset, and the step that runs a command
(spec/40_control.md R110 to R112, spec/70_reset_and_hazards.md R240). -/

namespace Sys2Proof.Machine

theorem exec_nop (s : State) : exec .nop s = .next s := rfl

theorem exec_srst (s : State) : exec .srst s = .next (resetEngine s) := rfl

theorem runCommand_of_decode {w : Word} {i : Instr} (h : decode w = .ok i) (s : State) : runCommand w s = exec i s := by
  rw [runCommand, h]

/-- A hardware reset that comes next resets the engine, which serves it as an access or ends its wait by it. -/
theorem step_hardReset {s : State} {rest : List HostAccess} (h : s.host = .hardReset :: rest) :
    step s = .next (resetEngine (takeAccess rest s)) := by
  cases hw : s.waiting with
  | true => rw [step_waiting hw, waitForReset_of_host (lost := []) h List.not_mem_nil]
  | false => rw [step_access hw h, hostPort]

/-- Settles O5: a `CMD` write hands its word to `runCommand`, which runs what the word decodes to. -/
theorem stepRunsTheDecodedCommand : Obligations.StepRunsTheDecodedCommand := by
  unfold Obligations.StepRunsTheDecodedCommand
  refine ⟨fun s w i rest ⟨hwait, hhost⟩ hd => ?_, fun s => step_idle⟩
  calc step s = runCommand w (takeAccess rest s) := step_command hwait hhost
    _ = exec i (takeAccess rest s) := runCommand_of_decode hd _

/-- Settles O8: `SRST` and the hardware reset are the same operation, the one on the state with its access taken. -/
theorem resetByCommandAndByHardware : Obligations.ResetByCommandAndByHardware := by
  unfold Obligations.ResetByCommandAndByHardware
  exact ⟨exec_srst, fun s rest h => (step_hardReset h).trans (exec_srst (takeAccess rest s)).symm⟩

/-- Settles O9: `NOP` answers the state it was given. -/
theorem nopChangesNothing : Obligations.NopChangesNothing := exec_nop

end Sys2Proof.Machine
end

section
/-! PROOF. The parameter table loader (spec/41_table_loader.md R121 to R125): the table as 512 bytes, the byte placement
loop over it, and the two commands that make a table. -/

namespace Sys2Proof.Machine

/-! ### One byte added into a word -/

/-- A byte in lane `j` of an otherwise zero word. -/
theorem wordByte_shiftLeft {i j : Nat} (hi : i < 4) (b : Byte) :
    wordByte (b.setWidth 32 <<< (8 * j)) i = if i = j then b else 0#8 := by
  apply BitVec.eq_of_getLsbD_eq
  intro n hn
  simp only [wordByte, BitVec.getLsbD_extractLsb', BitVec.getLsbD_shiftLeft, BitVec.getLsbD_setWidth]
  split_ifs with h
  · have hlane : 8 * i + n - 8 * j = n := by omega
    simp [hn, hlane, show 8 * i + n < 32 by omega, show ¬8 * i + n < 8 * j by omega, show n < 32 by omega]
  · by_cases hlow : 8 * i + n < 8 * j
    · simp [hlow]
    · simp [BitVec.getLsbD_of_ge b (8 * i + n - 8 * j) (by omega)]

/-- A word whose lane `j` is zero shares no bit with a byte in that lane. -/
theorem and_shiftLeft_eq_zero {v : Word} {j : Nat} (hv : wordByte v j = 0#8) (b : Byte) :
    v &&& b.setWidth 32 <<< (8 * j) = 0#32 := by
  apply BitVec.eq_of_getLsbD_eq
  intro n hn
  simp only [BitVec.getLsbD_and, BitVec.getLsbD_shiftLeft, BitVec.getLsbD_setWidth, BitVec.getLsbD_zero]
  by_cases hlane : 8 * j ≤ n ∧ n < 8 * j + 8
  · have hbit := congrArg (BitVec.getLsbD · (n - 8 * j)) hv
    have hn8 : n - 8 * j < 8 := by omega
    have hpos : 8 * j + (n - 8 * j) = n := by omega
    simp only [wordByte, BitVec.getLsbD_extractLsb', hn8, hpos, decide_true, Bool.true_and, BitVec.getLsbD_zero] at hbit
    rw [hbit, Bool.false_and]
  · by_cases hlow : n < 8 * j
    · simp [hlow]
    · simp [BitVec.getLsbD_of_ge b (n - 8 * j) (by omega)]

/-- Adding a byte scaled to a zero lane sets that lane and no other: no carry leaves it (spec/40_control.md R115). -/
theorem wordByte_add_scaled {v : Word} {i j : Nat} (hi : i < 4) (hv : wordByte v j = 0#8) (b : Byte) :
    wordByte (v + b.setWidth 32 * BitVec.ofNat 32 (2 ^ (8 * j))) i = if i = j then b else wordByte v i := by
  have hscale : BitVec.ofNat 32 (2 ^ (8 * j)) = BitVec.twoPow 32 (8 * j) := by
    apply BitVec.eq_of_toNat_eq
    rw [BitVec.toNat_ofNat, BitVec.toNat_twoPow]
  have hor : v + b.setWidth 32 * BitVec.ofNat 32 (2 ^ (8 * j)) = v ||| b.setWidth 32 <<< (8 * j) := by
    rw [hscale, BitVec.mul_twoPow_eq_shiftLeft, BitVec.add_eq_or_of_and_eq_zero _ _ (and_shiftLeft_eq_zero hv b)]
  have hbyte : wordByte (v ||| b.setWidth 32 <<< (8 * j)) i = wordByte v i ||| if i = j then b else 0#8 := by
    rw [← wordByte_shiftLeft hi]
    exact BitVec.extractLsb'_or
  rw [hor, hbyte]
  split_ifs with h
  · rw [h, hv, BitVec.zero_or]
  · exact BitVec.or_zero

/-! ### The table as 512 bytes -/

/-- Byte `k` of a table in memory order: lane `k mod 4` of word `k div 4` (spec/41_table_loader.md R123). -/
def tableByte (t : Table) (k : Fin 512) : Byte := wordByte t[k.val / 4] (k.val % 4)

/-- Its 512 bytes determine a table. -/
theorem table_ext_bytes {t u : Table} (h : ∀ k, tableByte t k = tableByte u k) : t = u := by
  ext w hw : 1
  have hlane : ∀ i : Fin 4, wordByte t[w] i = wordByte u[w] i := fun i => by
    have hword : (4 * w + i.val) / 4 = w := by omega
    have hpos : (4 * w + i.val) % 4 = i.val := by omega
    simpa only [tableByte, hword, hpos] using h ⟨4 * w + i.val, by omega⟩
  rw [← le32_wordByte t[w], ← le32_wordByte u[w]]
  exact congr (congr (congr (congrArg le32 (hlane 0)) (hlane 1)) (hlane 2)) (hlane 3)

@[simp] theorem zeroTable_getElem {w : Nat} (hw : w < 128) : zeroTable[w] = 0#32 := by simp [zeroTable]

@[simp] theorem tableByte_zeroTable (k : Fin 512) : tableByte zeroTable k = 0#8 := by simp [tableByte, wordByte]

/-- A load puts byte `k` of the answer at byte `k` of the table. -/
theorem tableByte_tableOf (d : List Byte) (k : Fin 512) : tableByte (tableOf d) k = d.getD k 0#8 := by
  have hk : k.val = 4 * (k.val / 4) + k.val % 4 := by omega
  have hlane : k.val % 4 < 4 := Nat.mod_lt _ (by decide)
  simp only [tableByte, tableOf, Vector.getElem_ofFn, wordByte_le32 _ _ _ _ _ hlane]
  conv_rhs => rw [hk]
  generalize k.val % 4 = lane at hlane
  interval_cases lane <;> rfl

/-! ### The placement loop -/

/-- One turn of the placement loop: byte `k` is added into its lane (spec/41_table_loader.md R122). -/
def placeByte (t : Table) (k : Fin 512) (b : Byte) : Table :=
  t.set (k.val / 4) (t[k.val / 4] + b.setWidth 32 * BitVec.ofNat 32 (2 ^ (8 * (k.val % 4))))

theorem placeBytes_cons {k : Nat} (hk : k < 512) (t : Table) (b : Byte) (rest : List Byte) :
    placeBytes t k (b :: rest) = placeBytes (placeByte t ⟨k, hk⟩ b) (k + 1) rest := by
  rw [placeBytes, dif_pos (by omega)]
  rfl

/-- A byte placed where the table holds zero is the only byte that changes. -/
theorem tableByte_placeByte {t : Table} {k : Fin 512} (hk : tableByte t k = 0#8) (b : Byte) (j : Fin 512) :
    tableByte (placeByte t k b) j = if j = k then b else tableByte t j := by
  have hlane : j.val % 4 < 4 := Nat.mod_lt _ (by decide)
  simp only [tableByte, placeByte, Vector.getElem_set]
  by_cases hword : k.val / 4 = j.val / 4
  · have hjk : j.val % 4 = k.val % 4 ↔ j = k := by rw [Fin.ext_iff]; omega
    rw [if_pos hword, wordByte_add_scaled hlane hk]
    simp only [hjk, hword]
  · have hjk : j ≠ k := fun h => hword (by rw [h])
    rw [if_neg hword, if_neg hjk]

/-- Bytes placed from byte `k` of a table that is zero from there on: the bytes before `k` stay, the others are those
placed, and zero after them. -/
theorem tableByte_placeBytes (d : List Byte) {t : Table} {k : Nat} (hfit : k + d.length ≤ 512)
    (hzero : ∀ j : Fin 512, k ≤ j → tableByte t j = 0#8) (j : Fin 512) :
    tableByte (placeBytes t k d) j = if j < k then tableByte t j else d.getD (j - k) 0#8 := by
  induction d generalizing t k with
  | nil =>
    split_ifs with h
    · rfl
    · exact hzero j (by omega)
  | cons b rest ih =>
    rw [List.length_cons] at hfit
    have hk : k < 512 := by omega
    have hbyte := tableByte_placeByte (hzero ⟨k, hk⟩ le_rfl) b
    have hzero' : ∀ i : Fin 512, k + 1 ≤ i → tableByte (placeByte t ⟨k, hk⟩ b) i = 0#8 := fun i hi => by
      rw [hbyte, if_neg (Fin.ne_of_val_ne (by show i.val ≠ k; omega)), hzero i (by omega)]
    rw [placeBytes_cons hk, ih (by omega) hzero', hbyte]
    obtain hlt | heq | hgt := Nat.lt_trichotomy j k
    · simp [hlt, Fin.ext_iff, hlt.ne, Nat.lt_succ_of_lt hlt]
    · simp [heq, Fin.ext_iff]
    · have hpos : j.val - k = j.val - (k + 1) + 1 := by omega
      rw [if_neg (by omega), if_neg (by omega), hpos, List.getD_cons_succ]

/-- Settles O12: the loop and the load give the table the same 512 bytes. -/
theorem placementLoopMakesTheTable : Obligations.PlacementLoopMakesTheTable := by
  unfold Obligations.PlacementLoopMakesTheTable
  refine fun d hd => table_ext_bytes fun k => ?_
  calc tableByte (placeBytes zeroTable 0 d) k
      = d.getD k 0#8 := tableByte_placeBytes d (by omega) (fun j _ => tableByte_zeroTable j) k
    _ = tableByte (tableOf d) k := (tableByte_tableOf d k).symm

/-! ### The commands -/

theorem exec_tinit (s : State) : exec .tinit s = .next (withTable s zeroTable) := rfl

theorem exec_tload (s : State) : exec .tload s = tload Config.tblLoadBytes s := rfl

theorem tload_bytes {max : Nat} {s : State} {d : List Byte} (h : Answers s.hdr s.hoff max d) :
    tload max s = .next (installTable max d (noteRequest .hdr s.hoff max (some d.length) s)) := loadTable_bytes h _

/-- The two byte counts a loader can be built with (spec/41_table_loader.md R125). -/
theorem tblLoadBytes_eq : Config.tblLoadBytes = 128 ∨ Config.tblLoadBytes = 512 := by
  unfold Config.tblLoadBytes
  split
  · exact .inr rfl
  · exact .inl rfl

/-- A word of which no byte was obtained is zero. -/
theorem tableOf_getElem_of_length_le {d : List Byte} {w : Nat} (hw : w < 128) (hd : d.length ≤ 4 * w) :
    (tableOf d)[w] = 0#32 := by
  have hmissing : ∀ k, 4 * w ≤ k → d.getD k 0#8 = 0#8 := fun k hk => List.getD_eq_default _ _ (hd.trans hk)
  simp only [tableOf, Vector.getElem_ofFn, hmissing, le_refl, Nat.le_add_right]
  rfl

/-- Settles O11: the answer has at most 512 bytes, so its count fits `TGOT`; the table's bytes are the answer's. -/
theorem tloadInstallsTheAnsweredBytes : Obligations.TloadInstallsTheAnsweredBytes := by
  unfold Obligations.TloadInstallsTheAnsweredBytes
  intro s d h
  have hlen : d.length ≤ Config.tblLoadBytes := sourceAnswer_length h
  have hcount := tblLoadBytes_eq
  refine ⟨_, (exec_tload s).trans (tload_bytes h), fun k => tableByte_tableOf d k, ?_, rfl⟩
  exact Nat.mod_eq_of_lt (by omega)

/-- Settles O13: an answer of at most 128 bytes ends before byte 0 of word 32. -/
theorem defaultLoadLeavesUpperWordsZero : Obligations.DefaultLoadLeavesUpperWordsZero := by
  unfold Obligations.DefaultLoadLeavesUpperWordsZero
  refine ⟨tblLoadBytes_eq, fun h s => ?_, fun s d h => ⟨_, tload_bytes h, fun i hi => ?_⟩⟩
  · rw [exec_tload, h]
  · have hlen : d.length ≤ 128 := sourceAnswer_length h
    exact tableOf_getElem_of_length_le i.isLt (by omega)

/-- Settles O10: the table `TINIT` installs is `ZeroTable`. -/
theorem tinitMakesTheZeroTable : Obligations.TinitMakesTheZeroTable := by
  unfold Obligations.TinitMakesTheZeroTable
  exact fun s => ⟨_, exec_tinit s, fun i => zeroTable_getElem i.isLt, rfl⟩

end Sys2Proof.Machine
end

section
/-! PROOF. The generator commands (spec/42_generator.md R130 to R133): the seeded generator, one draw into `GOUT`, and what
a sequence of draws gives. -/

namespace Sys2Proof.Machine

theorem exec_gseed (s : State) : exec .gseed s = .next (seedGenerator Config.prng s) := rfl

theorem exec_gnext32 {s : State} (h : s.gv = true) : exec .gnext32 s = .next (draw32 Config.prng s) :=
  check_eq_next.2 (.inl ⟨h, rfl⟩)

theorem exec_gnext64 {s : State} (h : s.gv = true) : exec .gnext64 s = .next (draw64 Config.prng s) :=
  check_eq_next.2 (.inl ⟨h, rfl⟩)

/-- A 32-bit draw leaves no high half in `GOUT` (spec/42_generator.md R132). -/
theorem draw32_eq_append (p : Prng) (s : State) :
    draw32 p s = { s with g := (p.next32 s.g).2, gout := 0#32 ++ (p.next32 s.g).1 } :=
  congrArg (fun v : DWord => { s with g := (p.next32 s.g).2, gout := v }) (BitVec.setWidth_eq_append (by decide))

/-- One draw of the generator, 32-bit where `narrow`: the `GOUT` value and the generator after it. -/
def drawFrom (p : Prng) (narrow : Bool) (g : GenState) : DWord × GenState :=
  if narrow then ((p.next32 g).1.setWidth 64, (p.next32 g).2) else p.next64 g

/-- The `GOUT` values of a sequence of draws, from the generator alone. -/
def drawsFrom (p : Prng) : List Bool → GenState → List DWord
  | [], _ => []
  | narrow :: rest, g => (drawFrom p narrow g).1 :: drawsFrom p rest (drawFrom p narrow g).2

theorem drawsFrom_length (p : Prng) (calls : List Bool) (g : GenState) : (drawsFrom p calls g).length = calls.length := by
  induction calls generalizing g with
  | nil => rfl
  | cons narrow rest ih => rw [drawsFrom, List.length_cons, List.length_cons, ih]

/-- A draw command over a seeded generator reads the generator alone and writes it and `GOUT`. -/
theorem exec_draw {s : State} (h : s.gv = true) (narrow : Bool) :
    exec (if narrow then .gnext32 else .gnext64) s =
      .next { s with g := (drawFrom Config.prng narrow s.g).2, gout := (drawFrom Config.prng narrow s.g).1 } := by
  cases narrow with
  | true => exact exec_gnext32 h
  | false => exact exec_gnext64 h

/-- Over a seeded generator the draws of the engine are those of the generator: none fails, and nothing else of the state
matters. -/
theorem drawValues_eq_drawsFrom (calls : List Bool) {s : State} (h : s.gv = true) :
    drawValues calls s = drawsFrom Config.prng calls s.g := by
  induction calls generalizing s with
  | nil => rfl
  | cons narrow rest ih =>
    rw [drawValues, exec_draw h]
    exact congrArg (_ :: ·) (ih h)

/-- Settles O17: the draws are those of the generator seeded with `SEED`, in either state. -/
theorem drawsDependOnTheSeedOnly : Obligations.DrawsDependOnTheSeedOnly := by
  unfold Obligations.DrawsDependOnTheSeedOnly
  rintro calls s u _ _ hseed ⟨⟩ ⟨⟩
  have hdraws : ∀ t : State,
      drawValues calls (seedGenerator Config.prng t) = drawsFrom Config.prng calls (Config.prng.seed t.seed) :=
    fun t => drawValues_eq_drawsFrom calls rfl
  constructor
  · calc drawValues calls (seedGenerator Config.prng s)
        = drawsFrom Config.prng calls (Config.prng.seed s.seed) := hdraws s
      _ = drawsFrom Config.prng calls (Config.prng.seed u.seed) := by rw [hseed]
      _ = drawValues calls (seedGenerator Config.prng u) := (hdraws u).symm
  · exact (congrArg List.length (hdraws s)).trans (drawsFrom_length ..)

/-- Settles O15: `GSEED` checks nothing, and writes `G` and its valid bit. -/
theorem gseedSeedsTheGenerator : Obligations.GseedSeedsTheGenerator := exec_gseed

/-- Settles O16: both commands check `GV` and then make the draw. -/
theorem generatorCommandsDraw : Obligations.GeneratorCommandsDraw := by
  unfold Obligations.GeneratorCommandsDraw
  refine fun s => ⟨fun h => ⟨?_, exec_gnext64 h⟩, fun h => ?_⟩
  · rw [exec_gnext32 h, draw32_eq_append]
  · exact ⟨check_eq_next.2 (.inr ⟨h, rfl⟩), check_eq_next.2 (.inr ⟨h, rfl⟩)⟩

end Sys2Proof.Machine
end

section
/-! PROOF. The key scheduler (spec/43_key_scheduler.md R140 to R148): the chained ring lookups, the draws of a derivation as
iterates of the generator, and what `KMDER` and `KCDER` leave. -/

namespace Sys2Proof.Machine

/-! ### Ring lookups -/

/-- Below 128 the reduction of R140 changes nothing. -/
theorem ring_val (t : Table) (i : Fin 128) : ring t i.val = t[i] := by
  simp only [ring, Nat.mod_eq_of_lt i.isLt, Fin.getElem_fin]

/-- A chained lookup reads the word at its index and the word that one selects. -/
theorem chained_congr {t u : Table} {x : Nat} (hword : ring t x = ring u x)
    (hselected : ring t (ring t x).toNat = ring u (ring t x).toNat) : chained t x = chained u x :=
  hselected.trans (congrArg (fun v : Word => ring u v.toNat) hword)

theorem rollCount_bounds (t : Table) (i : Nat) : 1 ≤ rollCount t i ∧ rollCount t i ≤ 16 := by
  unfold rollCount
  omega

/-- Settles O18: at an index below 128 the outer lookup needs no reduction; the others are reduced as the ring has it. -/
theorem seedValueAndRollCount : Obligations.SeedValueAndRollCount := by
  unfold Obligations.SeedValueAndRollCount
  exact fun t i => ⟨congrArg (fun v : Word => ring t v.toNat) (ring_val t i), rfl, rollCount_bounds t i⟩

/-! ### The draws of a derivation -/

theorem burnIn_eq_iterate (p : Prng) (n : Nat) (g : GenState) : burnIn p n g = (fun g => (p.next64 g).2)^[n] g := by
  induction n generalizing g with
  | zero => rfl
  | succ n ih => exact ih _

/-- The generator after an extraction has made one 32-bit draw for each byte. -/
theorem extract_snd (p : Prng) (g : GenState) (n : Nat) : (extract p g n).2 = (fun g => (p.next32 g).2)^[n] g := by
  induction n with
  | zero => rfl
  | succ n ih => rw [Function.iterate_succ_apply', ← ih, extract]

theorem topByte_eq_setWidth (v : Word) : v.extractLsb' 24 8 = (v >>> 24).setWidth 8 := rfl

/-- Byte `k` of an extraction is the top byte of its draw `k`, however many bytes follow. -/
theorem extract_getElem (p : Prng) (g : GenState) {n k : Nat} (hk : k < n) :
    (extract p g n).1[k] = ((p.next32 ((fun g => (p.next32 g).2)^[k] g)).1 >>> 24).setWidth 8 := by
  induction n with
  | zero => omega
  | succ n ih =>
    rw [extract, Vector.getElem_push]
    split_ifs with hlt
    · exact ih hlt
    · obtain rfl : k = n := by omega
      rw [extract_snd, topByte_eq_setWidth]

/-- Settles O19: `KM` extracts sixteen bytes from the generator that the burn-in leaves. -/
theorem keyMaterialIsTopBytesOfDraws : Obligations.KeyMaterialIsTopBytesOfDraws := by
  unfold Obligations.KeyMaterialIsTopBytesOfDraws
  intro p t i
  rw [← burnIn_eq_iterate]
  exact ⟨fun k => extract_getElem p _ k.isLt, extract_snd p _ 16⟩

/-- Key material takes nothing from the table but the seed value and the roll count. -/
theorem km_congr {p : Prng} {t u : Table} {i j : Nat} (hseed : seedValue t i = seedValue u j)
    (hroll : rollCount t i = rollCount u j) : km p t i = km p u j := by
  rw [km, km, hseed, hroll]

/-- Settles O20: seed value and roll count are one chained lookup each, at `i` and at `i + 1`. -/
theorem keyMaterialReadsFourWords : Obligations.KeyMaterialReadsFourWords := by
  unfold Obligations.KeyMaterialReadsFourWords
  intro p t u i hi hnext hseed hroll
  have hword : ring t i.val = ring u i.val := by rw [ring_val, ring_val, hi]
  have hselected : ring t (ring t i.val).toNat = ring u (ring t i.val).toNat := by rw [ring_val]; exact hseed
  have hrolls : chained t (i.val + 1) = chained u (i.val + 1) := chained_congr hnext hroll
  exact km_congr (chained_congr hword hselected) (by rw [rollCount, rollCount, hrolls])

/-! ### The commands -/

theorem deriveMaterial_key (p : Prng) (idx : Nat) (s : State) :
    deriveMaterial p idx .key s =
      { s with key := (km p s.tbl idx).1, keyv := 0b1111#4, g := (km p s.tbl idx).2, gv := false } := by
  simp only [deriveMaterial, discardGenerator, writeMaterial]

theorem deriveMaterial_ictr (p : Prng) (idx : Nat) (s : State) :
    deriveMaterial p idx .ictr s =
      { s with ictr := (km p s.tbl idx).1, ictrv := 0b1111#4, g := (km p s.tbl idx).2, gv := false } := by
  simp only [deriveMaterial, discardGenerator, writeMaterial]

/-- Settles O21: with a table the command is one derivation, without one its only check fails. -/
theorem kmderDerivesKeyMaterial : Obligations.KmderDerivesKeyMaterial := by
  unfold Obligations.KmderDerivesKeyMaterial
  refine fun s idx _ => ⟨fun h => ⟨?_, ?_⟩, fun h dst => check_eq_next.2 (.inr ⟨h, rfl⟩)⟩
  · rw [exec_kmder_of_tblv h, deriveMaterial_key]
  · rw [exec_kmder_of_tblv h, deriveMaterial_ictr]

/-- What an answered `KCDER` leaves, from the bytes of the answer: the table they make serves both derivations. -/
theorem exec_kcder_of_answers {s : State} {d : List Byte} (h : Answers s.hdr s.hoff Config.tblLoadBytes d) :
    exec .kcder s = .next { s with
      tbl := tableOf d, tblv := false, tgot := BitVec.ofNat 32 d.length,
      tshort := decide (d.length < Config.tblLoadBytes),
      key := (km Config.prng (tableOf d) 0).1, keyv := 0b1111#4,
      ictr := (km Config.prng (tableOf d) 2).1, ictrv := 0b1111#4,
      g := (km Config.prng (tableOf d) 2).2, gv := false,
      hdr := { s.hdr with replies := s.hdr.replies.tail },
      trace := s.trace ++ [{ space := .hdr, off := s.hoff, max := Config.tblLoadBytes, n := some d.length }] } := by
  rw [exec_kcder, loadTable_bytes h]
  simp only [derivePair, installTable, noteRequest, afterAnswer, loadShort, Config.keyIndex, Config.ctrIndex]

/-- Settles O23: the count of the answer, at most 512, fits `TGOT`, and the table's bytes are the answer's. -/
theorem kcderDerivesThePair : Obligations.KcderDerivesThePair := by
  unfold Obligations.KcderDerivesThePair
  intro s d h
  have hlen : d.length ≤ Config.tblLoadBytes := sourceAnswer_length h
  have hcount := tblLoadBytes_eq
  refine ⟨_, exec_kcder_of_answers h, fun k => tableByte_tableOf d k, ?_, rfl⟩
  exact Nat.mod_eq_of_lt (by omega)

/-! ### Purity -/

/-- The register a derivation into `dst` fills. -/
def materialIn (dst : Dst) (s : State) : Block :=
  match dst with
  | .key => s.key
  | .ictr => s.ictr

theorem materialIn_deriveMaterial (p : Prng) (idx : Nat) (dst : Dst) (s : State) :
    materialIn dst (deriveMaterial p idx dst s) = (km p s.tbl idx).1 := by
  cases dst with
  | key => rw [deriveMaterial_key, materialIn]
  | ictr => rw [deriveMaterial_ictr, materialIn]

/-- What `KMDER` derives is `KM` of the table and the index, whatever else the state holds. -/
theorem materialIn_of_exec_kmder {s t : State} {idx : Nat} {dst : Dst} (h : s.tblv = true)
    (ht : exec (.kmder idx dst) s = .next t) : materialIn dst t = (km Config.prng s.tbl idx).1 := by
  rw [exec_kmder_of_tblv h, Host.Outcome.next.injEq] at ht
  rw [← ht, materialIn_deriveMaterial]

/-- What `KCDER` derives is `KM` of the table its answer makes, whatever else the state holds. -/
theorem key_ictr_of_exec_kcder {s t : State} {d : List Byte} (h : Answers s.hdr s.hoff Config.tblLoadBytes d)
    (ht : exec .kcder s = .next t) :
    t.key = (km Config.prng (tableOf d) 0).1 ∧ t.ictr = (km Config.prng (tableOf d) 2).1 := by
  rw [exec_kcder_of_answers h, Host.Outcome.next.injEq] at ht
  subst ht
  exact ⟨rfl, rfl⟩

/-- Settles O22: each register derived is `KM` of a table both states share, for `KCDER` the one the answer makes. -/
theorem keyMaterialIsPure : Obligations.KeyMaterialIsPure := by
  unfold Obligations.KeyMaterialIsPure
  constructor
  · intro s u s' u' idx dst hs hu htbl hs' hu'
    have hsame : materialIn dst s' = materialIn dst u' := by
      rw [materialIn_of_exec_kmder hs hs', materialIn_of_exec_kmder hu hu', htbl]
    cases dst with
    | key => exact hsame
    | ictr => exact hsame
  · intro s u s' u' d hs hu hs' hu'
    obtain ⟨hskey, hsictr⟩ := key_ictr_of_exec_kcder hs hs'
    obtain ⟨hukey, huictr⟩ := key_ictr_of_exec_kcder hu hu'
    exact ⟨hskey.trans hukey.symm, hsictr.trans huictr.symm⟩

end Sys2Proof.Machine
end

section
/-! PROOF. The AES-128 encryptor (spec/44_aes128_encryptor.md): the recurrence of the key expansion (R167), the field
inverse and the S-box (R162, R163), and the worked examples of the cipher (R164, R165, R168). -/

namespace Sys2Proof.Machine

/-! ### The words of the key expansion -/

/-- The first `4 + n` words of the key expansion, newest first. -/
def wordsSoFar (k : Block) (n : Nat) : List Quad := (List.range' 4 n).foldl expandStep (keyWords k)

theorem expandKey_eq_reverse (k : Block) : expandKey k = (wordsSoFar k 40).reverse := rfl

theorem wordsSoFar_succ (k : Block) (n : Nat) : wordsSoFar k (n + 1) = expandStep (wordsSoFar k n) (4 + n) := by
  simp only [wordsSoFar, List.range'_1_concat, List.foldl_concat]

theorem wordsSoFar_length (k : Block) (n : Nat) : (wordsSoFar k n).length = 4 + n := by
  induction n with
  | zero => rfl
  | succ n ih => rw [wordsSoFar_succ, expandStep, List.length_cons, ih, Nat.add_assoc]

/-- A step only puts a word before those made so far. -/
theorem expandStep_getD_succ (ws : List Quad) (j i : Nat) :
    (expandStep ws j).getD (i + 1) zeroQuad = ws.getD i zeroQuad := rfl

/-- A word stands in its place as soon as it is made: later steps do not change it. -/
theorem expandKey_getD {n j : Nat} (k : Block) (hn : n ≤ 40) (hj : j < 4 + n) :
    (expandKey k).getD j zeroQuad = (wordsSoFar k n).getD (3 + n - j) zeroQuad := by
  induction hn using Nat.decreasingInduction with
  | self =>
    rw [expandKey_eq_reverse, List.getD_reverse _ (by rwa [wordsSoFar_length]), wordsSoFar_length]
  | of_succ n _ ih =>
    rw [ih (by omega), wordsSoFar_succ, show 3 + (n + 1) - j = 3 + n - j + 1 by omega, expandStep_getD_succ]

theorem expandKey_length (k : Block) : (expandKey k).length = 44 := by
  rw [expandKey_eq_reverse, List.length_reverse, wordsSoFar_length]

/-- The first four words are the key, four bytes each. -/
theorem expandKey_key_byte (k : Block) (j b : Fin 4) :
    ((expandKey k).getD j.val zeroQuad)[b] = k[4 * j.val + b.val] := by
  rw [expandKey_getD k (Nat.zero_le 40) j.isLt]
  fin_cases j <;> fin_cases b <;> rfl

/-! ### The recurrence of the later words -/

theorem expandStep_newest_byte (ws : List Quad) (j : Nat) (b : Fin 4) :
    ((expandStep ws j).getD 0 zeroQuad)[b] = (ws.getD 3 zeroQuad)[b] ^^^
      (if j % 4 = 0 then scheduleCore j (ws.getD 0 zeroQuad) else ws.getD 0 zeroQuad)[b] := by
  fin_cases b <;> rfl

/-- `RotWord` takes the next byte, and the round constant meets byte 0 only. -/
theorem scheduleCore_byte (j : Nat) (t : Quad) (b : Fin 4) :
    (scheduleCore j t)[b] = sbox t[(b.val + 1) % 4] ^^^ (if b.val = 0 then rconAfter (j / 4 - 1) else 0x00#8) := by
  cases b using Fin.cases with
  | zero => rfl
  | succ i => fin_cases i <;> exact BitVec.xor_zero.symm

theorem rconAfter_eq_getD : ∀ i < 10, rconAfter i =
    [0x01#8, 0x02#8, 0x04#8, 0x08#8, 0x10#8, 0x20#8, 0x40#8, 0x80#8, 0x1b#8, 0x36#8].getD i 0x00#8 := by decide

/-- Word `j` is the newest one after the step of number `j`, which reads words `j - 4` and `j - 1`. -/
theorem expandKey_later_byte (k : Block) {j : Nat} (hlo : 4 ≤ j) (hhi : j < 44) (b : Fin 4) :
    ((expandKey k).getD j zeroQuad)[b] = ((expandKey k).getD (j - 4) zeroQuad)[b] ^^^
      (if j % 4 = 0 then scheduleCore j ((expandKey k).getD (j - 1) zeroQuad)
        else (expandKey k).getD (j - 1) zeroQuad)[b] := by
  obtain ⟨n, rfl⟩ := Nat.exists_eq_add_of_le hlo
  have hnew := expandKey_getD (n := n + 1) (j := 4 + n) k (by omega) (by omega)
  have hlast := expandKey_getD (n := n) (j := 4 + n - 1) k (by omega) (by omega)
  have hfour := expandKey_getD (n := n) (j := 4 + n - 4) k (by omega) (by omega)
  rw [show 3 + (n + 1) - (4 + n) = 0 by omega, wordsSoFar_succ] at hnew
  rw [show 3 + n - (4 + n - 1) = 0 by omega] at hlast
  rw [show 3 + n - (4 + n - 4) = 3 by omega] at hfour
  rw [hnew, hlast, hfour, expandStep_newest_byte]

/-! ### The round keys -/

theorem roundKey_byte (ws : List Quad) (r : Nat) (j : Fin 16) :
    (roundKey ws r)[j] = (ws.getD (4 * r + j.val / 4) zeroQuad)[j.val % 4] := Vector.getElem_ofFn _

theorem roundKey_zero (k : Block) : roundKey (expandKey k) 0 = k := by
  refine Vector.ext fun i hi => ?_
  have hword := expandKey_key_byte k ⟨i / 4, by omega⟩ ⟨i % 4, by omega⟩
  have hbyte := roundKey_byte (expandKey k) 0 ⟨i, hi⟩
  simp only [Fin.getElem_fin, Nat.mul_zero, Nat.zero_add, Nat.div_add_mod] at hword hbyte
  exact hbyte.trans hword

/-- Settles O27: a word does not change once made, so each step's word reads those of the whole expansion. -/
theorem keyExpansionRecurrence : Obligations.KeyExpansionRecurrence := by
  unfold Obligations.KeyExpansionRecurrence
  intro k
  refine ⟨expandKey_length k, expandKey_key_byte k, fun j b hlo hhi => ?_, fun r => roundKey_byte _ r.val, roundKey_zero k⟩
  rw [expandKey_later_byte k hlo hhi]
  by_cases hfour : j % 4 = 0
  case pos => rw [if_pos hfour, if_pos hfour, scheduleCore_byte, rconAfter_eq_getD (j / 4 - 1) (by omega)]
  case neg => rw [if_neg hfour, if_neg hfour]

/-! ### The field inverse and the S-box

The inverse is read off the S-box table by undoing its affine map, so that the costly 254th power is evaluated once for
each byte. -/

/-- The affine map of the S-box (R163). -/
def sboxAffine (v : Byte) : Byte :=
  v ^^^ v.rotateLeft 1 ^^^ v.rotateLeft 2 ^^^ v.rotateLeft 3 ^^^ v.rotateLeft 4 ^^^ 0x63#8

/-- The inverse of the affine map of the S-box. -/
def sboxAffineInverse (b : Byte) : Byte := b.rotateLeft 1 ^^^ b.rotateLeft 3 ^^^ b.rotateLeft 6 ^^^ 0x05#8

theorem sboxAlgebraic_eq_sboxAffine (a : Byte) : sboxAlgebraic a = sboxAffine (gfInv a) := rfl

theorem sboxAffine_sboxAffineInverse : ∀ b : Byte, sboxAffine (sboxAffineInverse b) = b := by decide +kernel

theorem gfInv_eq_sboxAffineInverse_sbox : ∀ a : Byte, gfInv a = sboxAffineInverse (sbox a) := by decide +kernel

theorem gfMul_sboxAffineInverse_sbox : ∀ a : Byte, a ≠ 0x00#8 → gfMul a (sboxAffineInverse (sbox a)) = 0x01#8 := by
  decide +kernel

theorem sboxAffineInverse_sbox_involutive : Function.Involutive fun a => sboxAffineInverse (sbox a) :=
  show ∀ a : Byte, sboxAffineInverse (sbox (sboxAffineInverse (sbox a))) = a by decide +kernel

theorem gfMul_gfInv (a : Byte) (ha : a ≠ 0x00#8) : gfMul a (gfInv a) = 0x01#8 := by
  rw [gfInv_eq_sboxAffineInverse_sbox, gfMul_sboxAffineInverse_sbox a ha]

theorem sbox_eq_sboxAlgebraic (a : Byte) : sbox a = sboxAlgebraic a := by
  rw [sboxAlgebraic_eq_sboxAffine, gfInv_eq_sboxAffineInverse_sbox, sboxAffine_sboxAffineInverse]

theorem sbox_injective : Function.Injective sbox :=
  sboxAffineInverse_sbox_involutive.injective.of_comp (f := sboxAffineInverse)

/-- Settles O25: the table is the affine map of the inverse, and the inverse is its own inverse. -/
theorem fieldInverseAndSbox : Obligations.FieldInverseAndSbox := by
  unfold Obligations.FieldInverseAndSbox
  refine ⟨?_, gfMul_gfInv, ?_, ?_, ?_, ?_, sbox_eq_sboxAlgebraic, sbox_injective⟩ <;> decide +kernel

/-! ### The worked examples -/

/-- Settles O26: the steps and the cipher are evaluated on the blocks of the examples. -/
theorem cipherMeetsItsExamples : Obligations.CipherMeetsItsExamples := by
  unfold Obligations.CipherMeetsItsExamples
  refine ⟨?_, ?_, ?_, ?_⟩ <;> decide +kernel

end Sys2Proof.Machine
end

section
/-! PROOF. The counter increment and the counter-mode transform (spec/45_ctr_stream.md R180, R182, R183, R193): the carry
over a block as a list of bytes, and the bytes of a transform one by one. -/

namespace Sys2Proof.Machine

/-! ### The counter increment -/

@[simp] theorem be128_inc128 (b : Block) : be128 (inc128 b) = be128 b + 1#128 := be128_bytes128 _

/-- The increment is the one block whose value is one more. -/
theorem inc128_eq_of_be128 {b c : Block} (h : be128 c = be128 b + 1#128) : inc128 b = c := by
  rw [inc128, ← h, bytes128_be128]

theorem shiftIn_eq_mul_add (v : BitVec 128) (x : Byte) : shiftIn v x = v * 256#128 + x.setWidth 128 := by
  have hshift : v <<< 8 = v * 256#128 := BitVec.shiftLeft_eq_mul_twoPow v 8
  have hdisjoint : v <<< 8 &&& x.setWidth 128 = 0#128 := by
    apply BitVec.eq_of_getLsbD_eq
    intro i _
    by_cases hi : i < 8
    · simp [hi]
    · simp [BitVec.getLsbD_of_ge x i (by omega)]
  rw [shiftIn, ← BitVec.add_eq_or_of_and_eq_zero _ _ hdisjoint, hshift]

/-- One more than a value whose last byte is not `ff`: the byte takes it. -/
theorem shiftIn_add_one {x : Byte} (hx : x ≠ 0xff#8) (v : BitVec 128) : shiftIn v x + 1#128 = shiftIn v (x + 1#8) := by
  have hbyte : (x + 1#8).setWidth 128 = x.setWidth 128 + 1#128 := by
    revert x; decide +kernel
  rw [shiftIn_eq_mul_add, shiftIn_eq_mul_add, hbyte, BitVec.add_assoc]

/-- One more than a value whose last byte is `ff`: the byte becomes `00` and the carry goes on. -/
theorem shiftIn_ff_add_one (v : BitVec 128) : shiftIn v 0xff#8 + 1#128 = shiftIn (v + 1#128) 0x00#8 := by
  rw [shiftIn_eq_mul_add, shiftIn_eq_mul_add, BitVec.add_mul, BitVec.add_assoc, BitVec.add_assoc]
  rfl

/-- The carry through a run of `ff` bytes. -/
theorem foldl_shiftIn_ff_add_one (n : Nat) (v : BitVec 128) :
    (List.replicate n 0xff#8).foldl shiftIn v + 1#128 = (List.replicate n 0x00#8).foldl shiftIn (v + 1#128) := by
  induction n generalizing v with
  | zero => rfl
  | succ n ih => rw [List.replicate_succ, List.replicate_succ, List.foldl_cons, List.foldl_cons, ih, shiftIn_ff_add_one]

/-- The carry through the `ff` bytes at the end of a list into the byte before them. -/
theorem foldl_shiftIn_add_one {x : Byte} (hx : x ≠ 0xff#8) (before : List Byte) (n : Nat) (v : BitVec 128) :
    (before ++ x :: List.replicate n 0xff#8).foldl shiftIn v + 1#128 =
      (before ++ (x + 1#8) :: List.replicate n 0x00#8).foldl shiftIn v := by
  rw [List.foldl_append, List.foldl_append, List.foldl_cons, List.foldl_cons, foldl_shiftIn_ff_add_one,
    shiftIn_add_one hx]

/-- The block with one added at byte `j` and the bytes after it cleared (spec/45_ctr_stream.md R180). -/
def carryInto (b : Block) (j : Fin 16) : Block :=
  Vector.ofFn fun i => if i < j then b[i] else if i = j then b[j] + 1#8 else 0x00#8

theorem carryInto_getElem (b : Block) (j i : Fin 16) :
    (carryInto b j)[i] = if i < j then b[i] else if i = j then b[j] + 1#8 else 0x00#8 := Vector.getElem_ofFn _

theorem carryInto_of_lt (b : Block) {i j : Fin 16} (h : i < j) : (carryInto b j)[i] = b[i] := by
  rw [carryInto_getElem, if_pos h]

theorem carryInto_self (b : Block) (j : Fin 16) : (carryInto b j)[j] = b[j] + 1#8 := by
  rw [carryInto_getElem, if_neg (lt_irrefl j), if_pos rfl]

theorem carryInto_of_gt (b : Block) {i j : Fin 16} (h : j < i) : (carryInto b j)[i] = 0x00#8 := by
  rw [carryInto_getElem, if_neg h.asymm, if_neg h.ne']

/-- The bytes of a block before byte `j`, byte `j`, and equal bytes after it. -/
theorem toList_eq_of_after {b : Block} {j : Fin 16} {y : Byte} (h : ∀ i : Fin 16, j < i → b[i] = y) :
    b.toList = b.toList.take j ++ b[j] :: List.replicate (15 - j) y := by
  have hafter : b.toList.drop (j + 1) = List.replicate (15 - j) y := by
    refine List.ext_getElem (by simp) fun i hi _ => ?_
    have hi' : j.val + 1 + i < 16 := by simp at hi; omega
    simpa using h ⟨j + 1 + i, hi'⟩ (Fin.lt_def.2 (by simp; omega))
  calc b.toList = b.toList.take j ++ b.toList.drop j := (List.take_append_drop ..).symm
    _ = b.toList.take j ++ b[j] :: List.replicate (15 - j) y := by
      rw [List.drop_eq_getElem_cons (by simp), hafter, Vector.getElem_toList, Fin.getElem_fin]

theorem inc128_of_last_not_ff {b : Block} {j : Fin 16} (hj : b[j] ≠ 0xff#8)
    (hff : ∀ i : Fin 16, j < i → b[i] = 0xff#8) : inc128 b = carryInto b j := by
  have hbefore : (carryInto b j).toList.take j = b.toList.take j := by
    refine List.ext_getElem (by simp) fun i hi _ => ?_
    have hi' : i < j.val := by simp at hi; omega
    simpa using carryInto_of_lt b (i := ⟨i, by omega⟩) (Fin.lt_def.2 hi')
  apply inc128_eq_of_be128
  rw [be128, be128, toList_eq_of_after fun _ => carryInto_of_gt b, toList_eq_of_after hff, hbefore, carryInto_self,
    foldl_shiftIn_add_one hj]

/-- Settles O28: the increment is the block whose value is one more, which is the one the carry makes; all `ff` is one
block. -/
theorem incrementIsBigEndian : Obligations.IncrementIsBigEndian := by
  unfold Obligations.IncrementIsBigEndian
  refine fun b => ⟨be128_inc128 b, fun j hj hff => ?_, fun hff i => ?_⟩
  · rw [inc128_of_last_not_ff hj hff]
    exact ⟨fun _ => carryInto_of_lt b, carryInto_self b j, fun _ => carryInto_of_gt b⟩
  · obtain rfl : b = Vector.replicate 16 0xff#8 := Vector.ext fun k hk => by simpa using hff ⟨k, hk⟩
    revert i
    decide +kernel

/-! ### The transform -/

@[simp] theorem ctrCrypt_nil (x : Ctx) : ctrCrypt x [] = ([], x) := rfl

/-- The transform of the bytes of two calls in one (spec/45_ctr_stream.md R183). -/
theorem ctrCrypt_append (x : Ctx) (d e : List Byte) :
    ctrCrypt x (d ++ e) =
      ((ctrCrypt x d).1 ++ (ctrCrypt (ctrCrypt x d).2 e).1, (ctrCrypt (ctrCrypt x d).2 e).2) := by
  induction d generalizing x with
  | nil => rfl
  | cons b rest ih => simp only [List.cons_append, ctrCrypt, ih]

/-- A context with `m` bytes used meets byte `i` of a call with keystream byte `m + i` (spec/45_ctr_stream.md R183). -/
theorem ctrCrypt_getD_of_ctxRuns {k c : Block} {m i : Nat} {x : Ctx} (h : CtxRuns k c m x) {d : List Byte}
    (hi : i < d.length) : (ctrCrypt x d).1.getD i 0x00#8 = d.getD i 0x00#8 ^^^ keystreamByte k c (m + i) := by
  induction d generalizing m i x with
  | nil => cases hi
  | cons b rest ih =>
    obtain ⟨hbyte, hrest⟩ := ctxRuns_ctrByte h b
    cases i with
    | zero => exact hbyte
    | succ i =>
      rw [ctrCrypt, List.getD_cons_succ, List.getD_cons_succ, ih hrest (Nat.lt_of_succ_lt_succ hi),
        Nat.add_right_comm, Nat.add_assoc]

theorem ctrCrypt_ctxInit_getD (k c : Block) {d : List Byte} {m : Nat} (hm : m < d.length) :
    (ctrCrypt (ctxInit k c) d).1.getD m 0x00#8 = d.getD m 0x00#8 ^^^ keystreamByte k c m := by
  rw [ctrCrypt_getD_of_ctxRuns (ctxRuns_init k c) hm, Nat.zero_add]

/-- Settles O29: a fresh context runs from byte 0, and the transform goes through its bytes in order. -/
theorem keystreamClosedForm : Obligations.KeystreamClosedForm := by
  unfold Obligations.KeystreamClosedForm
  exact ⟨fun k c _ _ => ctrCrypt_ctxInit_getD k c, ctrCrypt_append⟩

/-- Settles O30: each byte meets the same keystream byte twice. -/
theorem transformIsItsOwnInverse : Obligations.TransformIsItsOwnInverse := by
  unfold Obligations.TransformIsItsOwnInverse
  intro k c d
  refine List.ext_getElem (by simp) fun m _ hm => ?_
  have hm' : m < (ctrCrypt (ctxInit k c) d).1.length := by simpa using hm
  rw [← List.getD_eq_getElem _ 0x00#8, ← List.getD_eq_getElem _ 0x00#8, ctrCrypt_ctxInit_getD k c hm',
    ctrCrypt_ctxInit_getD k c hm, BitVec.xor_assoc, BitVec.xor_self, BitVec.xor_zero]

end Sys2Proof.Machine
end

section
/-! PROOF. The three parts of a stream, `SOPEN`, `SCHUNK` and `SCLOSE`, and the size of a chunk
(spec/45_ctr_stream.md R184 to R188). -/

namespace Sys2Proof.Machine

/-! ### Opening and closing -/

/-- The first failing precondition of `SOPEN` and `DSTREAM` is the fault they record (spec/60_exceptions.md R215). -/
theorem checkOpen_faults {cap : Word} {s : State} {c : FaultCode} (h : openFault cap s = some c) (go : Result State) :
    checkOpen cap s go = .next (faulted c s) := by
  rw [checkOpen_eq_next]
  simp only [openFault, ← keysLoaded_iff, ← BitVec.not_le] at h
  split_ifs at h with hctx hkeys hlen <;> cases h
  · exact .inr (.inl ⟨hctx, rfl⟩)
  · exact .inr (.inr (.inr ⟨Bool.eq_false_iff.2 hctx, hkeys, hlen, rfl⟩))
  · exact .inr (.inr (.inl ⟨Bool.eq_false_iff.2 hctx, Bool.eq_false_iff.2 hkeys, rfl⟩))

theorem exec_sopen (s : State) : exec .sopen s = sopen Config.obufCap s := rfl

theorem sopen_of_openFault {cap : Word} {s : State} (h : openFault cap s = none) :
    sopen cap s = .next (openContext s) := checkOpen_of_openFault h _

/-- Settles O32: past the preconditions the context opened is the one the rule describes, its buffer zero-filled. -/
theorem sopenOpensAStream : Obligations.SopenOpensAStream := by
  unfold Obligations.SopenOpensAStream
  refine fun cap s => ⟨?_, fun c h => checkOpen_faults h _, fun h => ?_⟩
  · rintro rfl
    exact exec_sopen s
  · refine ⟨openContext s, sopen_of_openFault h, ?_, fun a => read_zeroFill _ _ a, rfl⟩
    rintro rfl
    exact (exec_sopen s).trans (sopen_of_openFault h)

theorem exec_sclose_of_ctxv {s : State} (h : s.ctxv = true) : exec .sclose s = .next (closeContext s) :=
  check_eq_next.2 (.inl ⟨h, rfl⟩)

/-- Settles O35: `SCLOSE` checks that a stream is open and clears its valid bit. -/
theorem scloseDiscardsTheContext : Obligations.ScloseDiscardsTheContext := by
  unfold Obligations.ScloseDiscardsTheContext
  exact fun s => ⟨exec_sclose_of_ctxv, fun h => check_eq_next.2 (.inr ⟨h, rfl⟩)⟩

/-! ### One chunk -/

@[simp] theorem chunkStep_zero (s : State) (go : State → Result State) : chunkStep 0 s go = go s := rfl

theorem chunkStep_bytes {req : Nat} {s : State} {d : List Byte} (hreq : req ≠ 0)
    (h : sourceAnswer s.src s.soff.toNat req = .bytes d) (go : State → Result State) :
    chunkStep req s go = go (storeChunk req d (noteRequest .src s.soff req (some d.length) s)) :=
  (if_neg hreq).trans (srcRead_bytes (space := .src) h _)

theorem remaining_eq_zero_iff {s : State} : remaining s = 0 ↔ s.olen ≤ s.soff := by
  rw [remaining, BitVec.le_def]
  omega

/-- What a byte of the buffer reads as once a chunk is stored. -/
theorem read_storeChunk {s : State} (h : Memory.wf s.obuf = true) (req : Nat) (d : List Byte) (a : Nat) :
    Memory.read (storeChunk req d s).obuf a =
      if s.soff.toNat ≤ a ∧ a < s.soff.toNat + d.length then (ctrCrypt s.ctx d).1.getD (a - s.soff.toNat) 0x00#8
      else Memory.read s.obuf a := by
  rw [storeChunk_obuf, read_writeBytes h, ctrCrypt_length]

/-- Settles O33: with a request to make and its answer the chunk is the one stored; else the request is for 0 bytes. -/
theorem schunkRunsOneChunk : Obligations.SchunkRunsOneChunk := by
  unfold Obligations.SchunkRunsOneChunk
  refine fun s => ⟨fun h => check_eq_next.2 (.inr ⟨h, rfl⟩), fun h hnone => ?_, fun d h hwf hreq hleft hans => ?_⟩
  · have hzero : min s.req.toNat (remaining s) = 0 := by
      obtain hreq | hend := hnone
      · rw [hreq]; exact Nat.zero_min _
      · rw [remaining_eq_zero_iff.2 hend]; exact Nat.min_zero _
    rw [exec_schunk_of_ctxv h, hzero, chunkStep_zero]
  · have hsome : min s.req.toNat (remaining s) ≠ 0 := by
      have hreq' : s.req.toNat ≠ 0 := fun h0 => hreq (BitVec.eq_of_toNat_eq h0)
      have hleft' : remaining s ≠ 0 := fun h0 => BitVec.not_le.2 hleft (remaining_eq_zero_iff.1 h0)
      omega
    have hfit : d.length ≤ remaining s := (sourceAnswer_length hans).trans (Nat.min_le_right ..)
    refine ⟨_, (exec_schunk_of_ctxv h).trans (chunkStep_bytes hsome hans _), fun a => ?_, ?_, rfl⟩
    · exact read_storeChunk hwf (min s.req.toNat (remaining s)) d a
    · exact storeChunk_soff_toNat (s := noteRequest .src s.soff _ (some d.length) s) hfit _

/-! ### The size of a chunk -/

theorem clamp_eq_max_min {v lo hi : Nat} (h : lo ≤ hi) : clamp v lo hi = max lo (min v hi) := by
  unfold clamp
  split_ifs <;> omega

/-- Settles O31: the clamp is `max` and `min`, and the listed values are evaluated. -/
theorem chunkSizeIsClamped : Obligations.ChunkSizeIsClamped := by
  unfold Obligations.ChunkSizeIsClamped
  refine ⟨fun L c => congrArg (min L) (clamp_eq_max_min (by decide)), fun L c hL => ?_, by decide, by decide, by decide,
    by decide⟩
  exact Nat.one_le_iff_ne_zero.2 (chunkSize_ne_zero (by decide) (by decide) (Nat.one_le_iff_ne_zero.1 hL))

end Sys2Proof.Machine
end

section
/-! PROOF. Chunks stored one after another are one stored chunk, and `DSTREAM` under an environment that answers stores
the bytes obtained as one (spec/45_ctr_stream.md R183, R189 to R192). -/

namespace Sys2Proof.Machine

/-! ### Chunks stored one after another -/

theorem writeBytes_append (m : List Host.Cell) (a : Nat) (d e : List Byte) :
    Memory.writeBytes m a (d ++ e) = Memory.writeBytes (Memory.writeBytes m a d) (a + d.length) e := by
  induction d generalizing m a with
  | nil => rfl
  | cons b rest ih =>
    rw [List.cons_append, Memory.writeBytes, Memory.writeBytes, ih, List.length_cons, Nat.add_right_comm, Nat.add_assoc]

@[simp] theorem storeChunk_nil (s : State) : storeChunk 0 [] s = s := by
  simp [storeChunk, streamShort, Memory.writeBytes]

/-- Two chunks are one where the first is not short: `CtrCrypt` and the offset run on (spec/45_ctr_stream.md R183). -/
theorem storeChunk_storeChunk {s : State} {n : Nat} {d : List Byte} (hd : d.length = n) (hn : n ≤ remaining s)
    (req : Nat) (e : List Byte) : storeChunk req e (storeChunk n d s) = storeChunk (n + req) (d ++ e) s := by
  subst hd
  have hoff := storeChunk_soff_toNat hn d.length
  rw [storeChunk_soff] at hoff
  simp [storeChunk, streamShort, hoff, ctrCrypt_append, writeBytes_append, BitVec.ofNat_add, BitVec.add_assoc]

/-- Of a short read it does not matter how much was asked for. -/
theorem storeChunk_of_short {d : List Byte} {req req' : Nat} (h : d.length < req) (h' : d.length < req') (s : State) :
    storeChunk req d s = storeChunk req' d s := by
  simp only [storeChunk, streamShort, h, h']

theorem remaining_storeChunk {s : State} {d : List Byte} (hd : d.length ≤ remaining s) (req : Nat) :
    remaining (storeChunk req d s) = remaining s - d.length := by
  rw [remaining, storeChunk_soff_toNat hd, storeChunk_olen, remaining, Nat.sub_sub]

/-! ### What requests leave beside the stream -/

/-- `s` with `REQ`, the ciphertext source and the trace as some requests leave them. -/
def withRequests (q : Word) (src : Source) (trace : List Request) (s : State) : State :=
  { s with req := q, src := src, trace := trace }

theorem withRequests_self (s : State) : withRequests s.req s.src s.trace s = s := rfl

section
variable (q q' : Word) (src src' : Source) (trace trace' : List Request) (s : State)

@[simp] theorem withRequests_withRequests :
    withRequests q src trace (withRequests q' src' trace' s) = withRequests q src trace s := rfl

@[simp] theorem storeChunk_withRequests (req : Nat) (d : List Byte) :
    storeChunk req d (withRequests q src trace s) = withRequests q src trace (storeChunk req d s) := rfl

@[simp] theorem remaining_withRequests : remaining (withRequests q src trace s) = remaining s := rfl
@[simp] theorem withRequests_soff : (withRequests q src trace s).soff = s.soff := rfl
@[simp] theorem withRequests_sshort : (withRequests q src trace s).sshort = s.sshort := rfl
@[simp] theorem withRequests_req : (withRequests q src trace s).req = q := rfl
@[simp] theorem withRequests_src : (withRequests q src trace s).src = src := rfl

end

/-- An answered request leaves its bytes stored, and the source and the trace changed. -/
theorem chunkStep_answered {req : Nat} {s : State} {d : List Byte} (hreq : req ≠ 0)
    (h : sourceAnswer s.src s.soff.toNat req = .bytes d) :
    ∃ trace, ∀ go, chunkStep req s go = go (withRequests s.req (afterAnswer s.src) trace (storeChunk req d s)) :=
  ⟨_, chunkStep_bytes hreq h⟩

/-- `src'` is `src` with some of its replies used up. -/
structure UsedUp (src src' : Source) : Prop where
  data : src'.data = src.data
  replies : src'.replies <:+ src.replies

theorem UsedUp.refl (src : Source) : UsedUp src src := ⟨rfl, List.suffix_rfl⟩

theorem UsedUp.of_afterAnswer {src src' : Source} (h : UsedUp (afterAnswer src) src') : UsedUp src src' :=
  ⟨h.data, h.replies.trans (List.tail_suffix _)⟩

/-- The reference environment has no replies to use up. -/
theorem UsedUp.eq_of_replies_nil {src src' : Source} (h : UsedUp src src') (hnil : src.replies = []) : src' = src := by
  obtain ⟨hdata, hreplies⟩ := h
  rw [hnil, List.suffix_nil] at hreplies
  calc src' = ⟨src'.replies, src'.data⟩ := rfl
    _ = src := by rw [hreplies, hdata, ← hnil]

/-- A chunk stored first in a new stream is decrypted from byte 0 on, and the buffer is zero after it
(spec/45_ctr_stream.md R183, R192). -/
theorem read_storeChunk_openContext {s : State} (h : Memory.wf s.obuf = true) (req : Nat) (d : List Byte) (a : Nat) :
    Memory.read (storeChunk req d (openContext s)).obuf a =
      if a < d.length then d.getD a 0x00#8 ^^^ keystreamByte s.key s.ictr a
      else if a < s.len.toNat then 0x00#8 else Memory.read s.obuf a := by
  rw [read_storeChunk (s := openContext s) (wf_zeroFill h _)]
  simp only [openContext_soff, openContext_ctx, openContext_obuf, BitVec.toNat_zero, Nat.zero_le, true_and, Nat.zero_add,
    Nat.sub_zero, read_zeroFill]
  by_cases ha : a < d.length
  · rw [if_pos ha, if_pos ha, ctrCrypt_ctxInit_getD s.key s.ictr ha]
  · rw [if_neg ha, if_neg ha]

/-! ### The bytes a stream obtains -/

@[simp] theorem fileAnswer_zero (data : List Byte) (off : Nat) : fileAnswer data off 0 = [] := List.take_zero

@[simp] theorem streamBytes_zero (chunk : Nat) (data : List Byte) (off : Nat) (replies : List Reply) :
    streamBytes chunk data 0 off replies = [] := by
  cases replies with
  | nil => exact fileAnswer_zero data off
  | cons r rest => cases r <;> simp [streamBytes]

/-- The next request of a stream that is answered within the contract: its answer is short and all the stream obtains,
or full and the first part of it. -/
theorem streamAnswered_request {chunk left : Nat} {src : Source} (hleft : left ≠ 0)
    (h : streamAnswered chunk left src.replies = true) (off : Nat) :
    ∃ d, sourceAnswer src off (min chunk left) = .bytes d ∧
      ((d.length < min chunk left ∧ streamBytes chunk src.data left off src.replies = d) ∨
        (d.length = min chunk left ∧ streamAnswered chunk (left - d.length) (afterAnswer src).replies = true ∧
          streamBytes chunk src.data left off src.replies = d ++
            streamBytes chunk (afterAnswer src).data (left - d.length) (off + d.length) (afterAnswer src).replies)) := by
  obtain ⟨replies, data⟩ := src
  have hle : min chunk left ≤ left := Nat.min_le_right ..
  cases replies with
  | nil =>
    refine ⟨fileAnswer data off (min chunk left), rfl, ?_⟩
    obtain hlt | heq := (sourceAnswer_length (src := ⟨[], data⟩) (off := off) rfl).lt_or_eq
    · exact .inl ⟨hlt, fileAnswer_short hle hlt⟩
    · refine .inr ⟨heq, rfl, ?_⟩
      rw [heq]
      exact fileAnswer_split hle heq
  | cons r rest =>
    cases r with
    | never => simp [streamAnswered, hleft] at h
    | bytes d =>
      simp only [streamAnswered, hleft, decide_false, Bool.false_or, Bool.and_eq_true, Bool.or_eq_true,
        decide_eq_true_eq] at h
      obtain ⟨hlen, hrest⟩ := h
      refine ⟨d, if_pos hlen, ?_⟩
      simp only [streamBytes, if_neg hleft]
      by_cases hlt : d.length < min chunk left
      · exact .inl ⟨hlt, if_pos hlt⟩
      · exact .inr ⟨by omega, hrest.resolve_left hlt, if_neg hlt⟩

/-- A stream obtains no more bytes than are wanted. -/
theorem streamBytes_length {chunk left : Nat} {src : Source} (hchunk : chunk = 0 → left = 0)
    (h : streamAnswered chunk left src.replies = true) (off : Nat) :
    (streamBytes chunk src.data left off src.replies).length ≤ left := by
  induction left using Nat.strong_induction_on generalizing src off with
  | _ left ih =>
    by_cases hleft : left = 0
    · simp [hleft]
    · obtain ⟨d, -, ⟨hlt, hgot⟩ | ⟨heq, hrest, hgot⟩⟩ := streamAnswered_request hleft h off
      · rw [hgot]
        omega
      · have hmore := ih (left - d.length) (by omega) (fun h0 => absurd (hchunk h0) hleft) hrest (off + d.length)
        rw [hgot, List.length_append]
        omega

/-! ### The loop of `DSTREAM` -/

/-- A stream goes on while bytes are left and no read was short (spec/45_ctr_stream.md R189). -/
theorem streams_iff {s : State} :
    s.soff.toNat < s.olen.toNat ∧ s.sshort = false ↔ ¬(remaining s = 0 ∨ s.sshort = true) := by
  rw [not_or, Bool.not_eq_true, remaining, ← Nat.sub_ne_zero_iff_lt]

theorem streamLoop_ended {s : State} (h : remaining s = 0 ∨ s.sshort = true) (chunk : Nat) (go : State → Result State)
    (n : Nat) : streamLoop chunk go n s = go s := by
  cases n with
  | zero => rfl
  | succ n => exact if_neg fun hgo => streams_iff.1 hgo h

theorem streamLoop_runs {s : State} (h : ¬(remaining s = 0 ∨ s.sshort = true)) (chunk : Nat)
    (go : State → Result State) (n : Nat) :
    streamLoop chunk go (n + 1) s = chunkStep (min chunk (remaining s)) s (streamLoop chunk go n) :=
  if_pos (streams_iff.2 h)

/-- A loop with no byte left to ask for stores none. -/
theorem streamLoop_nothing_left {chunk : Nat} (go : State → Result State) (n : Nat) {s : State} (h : remaining s = 0) :
    ∃ src trace, UsedUp s.src src ∧ streamLoop chunk go n s =
      go (withRequests s.req src trace
        (storeChunk (remaining s) (streamBytes chunk s.src.data (remaining s) s.soff.toNat s.src.replies) s)) := by
  refine ⟨s.src, s.trace, .refl _, ?_⟩
  rw [streamLoop_ended (.inl h), h, streamBytes_zero, storeChunk_nil, withRequests_self]

/-- Where every request is answered within the contract, the loop ends with the bytes obtained stored as by one request
for all that was left. -/
theorem streamLoop_answered {chunk : Nat} (go : State → Result State) (n : Nat) {s : State} (hn : remaining s ≤ n)
    (hchunk : chunk = 0 → remaining s = 0) (hshort : s.sshort = false)
    (h : streamAnswered chunk (remaining s) s.src.replies = true) :
    ∃ src trace, UsedUp s.src src ∧ streamLoop chunk go n s =
      go (withRequests s.req src trace
        (storeChunk (remaining s) (streamBytes chunk s.src.data (remaining s) s.soff.toNat s.src.replies) s)) := by
  induction n generalizing s with
  | zero => exact streamLoop_nothing_left go 0 (Nat.le_zero.1 hn)
  | succ n ih =>
    by_cases hleft : remaining s = 0
    · exact streamLoop_nothing_left go (n + 1) hleft
    obtain ⟨d, hd, hgot⟩ := streamAnswered_request hleft h s.soff.toNat
    have hreq : min chunk (remaining s) ≠ 0 := fun h0 => hleft (by omega)
    have hfit : d.length ≤ remaining s := (sourceAnswer_length hd).trans (Nat.min_le_right ..)
    have hrem := remaining_storeChunk hfit (min chunk (remaining s))
    obtain ⟨trace, hstep⟩ := chunkStep_answered hreq hd
    rw [streamLoop_runs (by simp [hleft, hshort]), hstep]
    obtain ⟨hlt, hgot⟩ | ⟨heq, hrest, hgot⟩ := hgot
    · refine ⟨afterAnswer s.src, trace, (UsedUp.refl _).of_afterAnswer, ?_⟩
      rw [hgot, storeChunk_of_short (req' := remaining s) hlt (by omega), streamLoop_ended]
      exact .inr (by simp [streamShort]; omega)
    · rw [← heq] at hrem ⊢
      obtain ⟨src, trace, hsrc, hloop⟩ := ih
        (s := withRequests s.req (afterAnswer s.src) trace (storeChunk d.length d s)) (by simp; omega)
        (fun h0 => absurd (hchunk h0) hleft) (by simp [streamShort, hshort]) (by simpa [hrem] using hrest)
      refine ⟨src, trace, hsrc.of_afterAnswer, hloop.trans ?_⟩
      rw [hgot]
      simp only [storeChunk_withRequests, withRequests_withRequests, remaining_withRequests, withRequests_req,
        withRequests_src, withRequests_soff, hrem, storeChunk_storeChunk rfl hfit, Nat.add_sub_cancel' hfit,
        storeChunk_soff_toNat hfit]

/-! ### `DSTREAM` -/

/-- The size of the chunks in which `DSTREAM` asks (spec/45_ctr_stream.md R185). -/
abbrev chunkOf (s : State) : Nat := chunkSize Config.chunkMin Config.chunkMax s.len.toNat s.chunk.toNat

theorem len_eq_zero_of_chunkOf {s : State} (h : chunkOf s = 0) : s.len.toNat = 0 :=
  not_imp_not.1 (chunkSize_ne_zero (by decide) (by decide)) h

/-- Where no precondition fails and every request is answered, `DSTREAM` stores the bytes obtained over the zeroed buffer
and closes. -/
theorem dstream_answered {cap : Word} {s : State} (hf : openFault cap s = none)
    (h : streamAnswered (chunkOf s) s.len.toNat s.src.replies = true) :
    ∃ src trace, UsedUp s.src src ∧ dstream cap Config.chunkMin Config.chunkMax s =
      .next (closeContext (withRequests s.req src trace
        (storeChunk s.len.toNat (streamBytes (chunkOf s) s.src.data s.len.toNat 0 s.src.replies) (openContext s)))) := by
  rw [dstream, checkOpen_of_openFault hf, runStream]
  exact streamLoop_answered (s := openContext s) _ _ le_rfl len_eq_zero_of_chunkOf rfl h

/-- Settles O36: the bytes obtained are one chunk stored at offset 0 of the zeroed buffer, under a fresh context. -/
theorem dstreamDecryptsTheStream : Obligations.DstreamDecryptsTheStream := by
  unfold Obligations.DstreamDecryptsTheStream
  intro cap s hf hwf h got
  have hlen : got.length ≤ s.len.toNat := streamBytes_length len_eq_zero_of_chunkOf h 0
  obtain ⟨src, trace, hsrc, hrun⟩ := dstream_answered hf h
  refine ⟨_, hrun, ?_, hlen, ?_, fun a => ?_, hsrc.data, rfl⟩
  · rintro rfl
    exact hrun
  · exact (storeChunk_soff_toNat (s := openContext s) hlen s.len.toNat).trans (Nat.zero_add _)
  · exact read_storeChunk_openContext hwf s.len.toNat got a

/-- Settles O40: a stream of no bytes ends as soon as it is open, and the zero fill clears none. -/
theorem emptyStreamReadsNothing : Obligations.EmptyStreamReadsNothing := by
  unfold Obligations.EmptyStreamReadsNothing
  intro cap s hf hlen
  have hzero : s.len.toNat = 0 := congrArg BitVec.toNat hlen
  have hrun : dstream cap Config.chunkMin Config.chunkMax s = .next (closeContext (openContext s)) := by
    rw [dstream, checkOpen_of_openFault hf, runStream, streamLoop_ended (s := openContext s) (.inl hzero)]
  refine ⟨_, hrun, ?_, fun a => ?_, ?_⟩
  · rintro rfl
    exact hrun
  · rw [closeContext_obuf, openContext_obuf, read_zeroFill, hzero, if_neg (Nat.not_lt_zero a)]
  · exact congrArg (fun n : Word => { closeContext (openContext s) with olen := n }) hlen

/-! ### The reference environment -/

/-- Under the reference environment a stream obtains what the file holds up to its length, whatever the chunks. -/
theorem dstream_fileSource {cap : Word} {s : State} (hf : openFault cap s = none) (hsrc : s.src.replies = []) :
    ∃ trace, dstream cap Config.chunkMin Config.chunkMax s =
      .next (closeContext (withRequests s.req s.src trace
        (storeChunk s.len.toNat (fileAnswer s.src.data 0 s.len.toNat) (openContext s)))) := by
  obtain ⟨src, trace, hused, hrun⟩ := dstream_answered hf (by rw [hsrc]; rfl)
  rw [hused.eq_of_replies_nil hsrc, hsrc] at hrun
  exact ⟨trace, hrun⟩

/-- Settles O38: what is obtained, and so what is stored, is the same with either `CHUNK`. -/
theorem dstreamIndependentOfChunk : Obligations.DstreamIndependentOfChunk := by
  unfold Obligations.DstreamIndependentOfChunk
  intro cap s c hf _ hsrc
  obtain ⟨trace, hrun⟩ := dstream_fileSource hf hsrc
  obtain ⟨trace', hrun'⟩ := dstream_fileSource (s := { s with chunk := c }) hf hsrc
  exact ⟨_, _, hrun, hrun', rfl⟩

/-- A file with enough data answers in full. -/
theorem fileAnswer_length_of_remaining {s : State} (hdata : s.olen.toNat ≤ s.src.data.length) {n : Nat}
    (hn : n ≤ remaining s) : (fileAnswer s.src.data s.soff.toNat n).length = n := by
  unfold remaining at hn
  rw [fileAnswer, List.length_take, List.length_drop]
  omega

/-- `WR REQ, q` and `SCHUNK` on an open stream. -/
theorem exec_schunk_withReq {s : State} (q : Word) (hopen : s.ctxv = true) :
    exec .schunk { s with req := q } = chunkStep (min q.toNat (remaining s)) { s with req := q } .next :=
  exec_schunk_of_ctxv hopen

/-- Under the reference environment `SCHUNK` stores what the file holds from the offset on, up to the request's size, also
where that is 0. -/
theorem exec_schunk_fileSource {s : State} (q : Word) (hopen : s.ctxv = true) (hsrc : s.src.replies = []) :
    ∃ trace, exec .schunk { s with req := q } =
      .next (withRequests q s.src trace
        (storeChunk (min q.toNat (remaining s)) (fileAnswer s.src.data s.soff.toNat (min q.toNat (remaining s))) s)) := by
  rw [exec_schunk_withReq q hopen]
  generalize min q.toNat (remaining s) = req
  by_cases hreq : req = 0
  · refine ⟨s.trace, ?_⟩
    rw [hreq, chunkStep_zero, fileAnswer_zero, storeChunk_nil]
    rfl
  · have hans : sourceAnswer s.src s.soff.toNat req = .bytes (fileAnswer s.src.data s.soff.toNat req) := by
      rw [sourceAnswer, hsrc]
    obtain ⟨trace, hstep⟩ := chunkStep_answered (s := { s with req := q }) hreq hans
    have hused : afterAnswer s.src = s.src := (UsedUp.refl _).of_afterAnswer.eq_of_replies_nil hsrc
    refine ⟨trace, ?_⟩
    rw [hstep, hused]
    rfl

/-- Under the reference environment with enough data any `SCHUNK`s store the next so many bytes of the file as one. -/
theorem chunksOf_fileSource (qs : List Word) {s t : State} (hopen : s.ctxv = true) (hsrc : s.src.replies = [])
    (hdata : s.olen.toNat ≤ s.src.data.length) (h : chunksOf qs s = .next t) :
    ∃ n q trace, n ≤ remaining s ∧
      t = withRequests q s.src trace (storeChunk n (fileAnswer s.src.data s.soff.toNat n) s) := by
  induction qs generalizing s with
  | nil =>
    obtain rfl : s = t := Host.Outcome.next.inj h
    refine ⟨0, s.req, s.trace, Nat.zero_le _, ?_⟩
    rw [fileAnswer_zero, storeChunk_nil, withRequests_self]
  | cons q rest ih =>
    obtain ⟨trace, hstep⟩ := exec_schunk_fileSource q hopen hsrc
    have hfirst : min q.toNat (remaining s) ≤ remaining s := Nat.min_le_right ..
    rw [chunksOf, hstep, andThen] at h
    generalize min q.toNat (remaining s) = m at hfirst h
    have hlen := fileAnswer_length_of_remaining hdata hfirst
    split_ifs at h
    · exact ⟨m, q, trace, hfirst, (Host.Outcome.next.inj h).symm⟩
    · obtain ⟨n, q', trace', hn, rfl⟩ :=
        ih (s := withRequests q s.src trace (storeChunk m _ s)) hopen hsrc hdata h
      have hrem := remaining_storeChunk (hlen.trans_le hfirst) m
      have hoff := storeChunk_soff_toNat (hlen.trans_le hfirst) m
      rw [hlen] at hrem hoff
      rw [remaining_withRequests, hrem] at hn
      refine ⟨m + n, q', trace', by omega, ?_⟩
      rw [fileAnswer_split (Nat.le_add_right m n) hlen, Nat.add_sub_cancel_left]
      simp only [storeChunk_withRequests, withRequests_withRequests, withRequests_src, withRequests_soff, hoff,
        storeChunk_storeChunk hlen hfirst]

/-- Settles O39: at the end the host's chunks, like those of `DSTREAM`, have stored the file up to the length. -/
theorem hostChosenChunksGiveTheSameStream : Obligations.HostChosenChunksGiveTheSameStream := by
  unfold Obligations.HostChosenChunksGiveTheSameStream
  intro cap s a b qs hf _ hsrc hdata ha hb hend
  rw [sopen_of_openFault hf] at ha
  obtain rfl := Host.Outcome.next.inj ha
  obtain ⟨n, q, trace, hn, rfl⟩ := chunksOf_fileSource qs (s := openContext s) rfl hsrc hdata hb
  obtain ⟨trace', hrun⟩ := dstream_fileSource hf hsrc
  have hlen := fileAnswer_length_of_remaining (s := openContext s) hdata hn
  obtain rfl : n = s.len.toNat := by
    have hoff := storeChunk_soff_toNat (hlen.trans_le hn) n
    rw [hlen] at hoff
    calc n = (storeChunk n _ (openContext s)).soff.toNat := (hoff.trans (Nat.zero_add n)).symm
      _ = s.len.toNat := congrArg BitVec.toNat hend
  exact ⟨_, _, exec_sclose_of_ctxv rfl, hrun, rfl⟩

end Sys2Proof.Machine
end

section
/-! PROOF. `DSTREAM` and its script of `SOPEN`, `WR REQ` and `SCHUNK` in a loop, and `SCLOSE`
(spec/45_ctr_stream.md R194). -/

namespace Sys2Proof.Machine

theorem exec_dstream (s : State) :
    exec .dstream s = dstream Config.obufCap Config.chunkMin Config.chunkMax s := rfl

theorem andThen_of_not_waiting {s : State} (h : s.waiting = false) (more : State → Result State) :
    andThen (.next s) more = more s := by
  rw [andThen, h]
  rfl

theorem andThen_of_waiting {s : State} (h : s.waiting = true) (more : State → Result State) :
    andThen (.next s) more = .next s := by
  rw [andThen, h]
  rfl

theorem chunkScript_ended {s : State} (h : remaining s = 0 ∨ s.sshort = true) (q : Word) (n : Nat) :
    chunkScript q n s = .next s := by
  cases n with
  | zero => rfl
  | succ n => exact if_neg fun hgo => streams_iff.1 hgo h

theorem chunkScript_runs {s : State} (h : ¬(remaining s = 0 ∨ s.sshort = true)) (q : Word) (n : Nat) :
    chunkScript q (n + 1) s = andThen (exec .schunk { s with req := q }) (chunkScript q n) :=
  if_pos (streams_iff.2 h)

/-- A chunk after which no short read is recorded was full, and leaves that much less to ask for. -/
theorem remaining_storeChunk_of_not_short {s : State} {req : Nat} {d : List Byte} (hlen : d.length ≤ req)
    (hfit : req ≤ remaining s) (h : (storeChunk req d s).sshort = false) :
    remaining (storeChunk req d s) = remaining s - req := by
  have hfull : req ≤ d.length := by
    simp only [storeChunk_sshort, streamShort, Bool.or_eq_false_iff, decide_eq_false_iff_not, Nat.not_lt] at h
    exact h.2
  rw [remaining_storeChunk (hlen.trans hfit), hlen.antisymm hfull]

theorem chunkScript_eq_streamLoop_of_ended {s : State} (h : remaining s = 0 ∨ s.sshort = true) (hopen : s.ctxv = true)
    (hwait : s.waiting = false) (q r : Word) (n m : Nat) :
    withReq r (andThen (chunkScript q n s) (exec .sclose)) =
      streamLoop q.toNat (fun t => .next (closeContext t)) m { s with req := r } := by
  rw [chunkScript_ended h, streamLoop_ended (s := { s with req := r }) h, andThen_of_not_waiting hwait,
    exec_sclose_of_ctxv hopen]
  rfl

/-- The loop of the script and then `SCLOSE` do what the loop of `DSTREAM` does, each with enough rounds: each round makes
the same request, and an answer that does not end both loops leaves less to ask for. -/
theorem chunkScript_eq_streamLoop {q : Word} (r : Word) {s : State} (hopen : s.ctxv = true) (hwait : s.waiting = false)
    (hq : q.toNat = 0 → remaining s = 0) {n m : Nat} (hn : s.sshort = false → remaining s ≤ n)
    (hm : s.sshort = false → remaining s ≤ m) :
    withReq r (andThen (chunkScript q n s) (exec .sclose)) =
      streamLoop q.toNat (fun t => .next (closeContext t)) m { s with req := r } := by
  induction n generalizing s m with
  | zero =>
    refine chunkScript_eq_streamLoop_of_ended ?_ hopen hwait ..
    rw [← Bool.not_eq_false, or_iff_not_imp_right, not_not]
    exact fun h => Nat.le_zero.1 (hn h)
  | succ n ih =>
    by_cases hend : remaining s = 0 ∨ s.sshort = true
    · exact chunkScript_eq_streamLoop_of_ended hend hopen hwait ..
    obtain ⟨hleft, hshort⟩ := not_or.1 hend
    replace hn := hn (Bool.eq_false_iff.2 hshort)
    replace hm := hm (Bool.eq_false_iff.2 hshort)
    obtain ⟨m, rfl⟩ : ∃ k, m = k + 1 := Nat.exists_eq_succ_of_ne_zero (by omega)
    have hreq : min q.toNat (remaining s) ≠ 0 := fun h0 => hleft (by omega)
    have hloop : streamLoop q.toNat (fun t => .next (closeContext t)) (m + 1) { s with req := r } =
        chunkStep (min q.toNat (remaining s)) { s with req := r } (streamLoop q.toNat _ m) :=
      streamLoop_runs (s := { s with req := r }) hend ..
    rw [chunkScript_runs hend, exec_schunk_withReq q hopen, hloop]
    cases hans : sourceAnswer s.src s.soff.toNat (min q.toNat (remaining s)) with
    | bytes d =>
      have hrem := remaining_storeChunk_of_not_short (sourceAnswer_length hans) (Nat.min_le_right ..)
      rw [chunkStep_bytes (s := { s with req := q }) hreq hans, chunkStep_bytes (s := { s with req := r }) hreq hans,
        andThen_of_not_waiting (by exact hwait)]
      refine ih ?_ ?_ (fun h0 => absurd (hq h0) hleft) ?_ ?_
      · exact hopen
      · exact hwait
      all_goals exact fun h => (hrem h).trans_le (by omega)
    | never =>
      rw [chunkStep_never (s := { s with req := q }) hreq hans, chunkStep_never (s := { s with req := r }) hreq hans,
        andThen_of_waiting rfl, andThen_of_waiting rfl]
      rfl
    | tooLong =>
      rw [chunkStep_tooLong (s := { s with req := q }) hreq hans, chunkStep_tooLong (s := { s with req := r }) hreq hans]
      rfl

/-- Settles O37: the script opens what `DSTREAM` opens, and the chunk size, at most `LEN`, fits `REQ`. -/
theorem dstreamEqualsItsScript : Obligations.DstreamEqualsItsScript := by
  unfold Obligations.DstreamEqualsItsScript
  refine ⟨fun s => ⟨exec_dstream s, exec_sopen s⟩, fun cap s n hf hwait hn => ?_⟩
  have hq : (BitVec.ofNat 32 (chunkOf s)).toNat = chunkOf s :=
    Nat.mod_eq_of_lt ((Nat.min_le_left ..).trans_lt s.len.isLt)
  rw [dstream, checkOpen_of_openFault hf, runStream, streamScript, sopen_of_openFault hf,
    andThen_of_not_waiting (s := openContext s) hwait]
  have hscript := chunkScript_eq_streamLoop (q := BitVec.ofNat 32 (chunkOf s)) s.req (s := openContext s) (n := n)
    (m := s.len.toNat) rfl hwait (by rw [hq]; exact len_eq_zero_of_chunkOf) (fun _ => hn) (fun _ => le_rfl)
  rw [hq] at hscript
  exact hscript.symm

end Sys2Proof.Machine
end

section
/-! PROOF. The fault record and the trace (spec/60_exceptions.md R212 to R216, spec/20_memory.md R61): which command
faults and with which code, what an access and a step can do to the record, and what a request adds to the trace. -/

namespace Sys2Proof.Machine

/-! ### The fault record of a command -/

/-- A checked command whose precondition fails leaves the fault and nothing else. -/
theorem check_faults {holds : Bool} {c c' : FaultCode} {s : State} {go : Result State}
    (h : (if holds = true then none else some c) = some c') : check holds c s go = .next (faulted c' s) := by
  split_ifs at h with hholds
  cases h
  exact check_eq_next.2 (.inr ⟨Bool.eq_false_iff.2 hholds, rfl⟩)

/-- A checked command whose precondition holds goes on. -/
theorem next_of_check {holds : Bool} {c : FaultCode} {s t : State} {go : Result State}
    (hf : (if holds = true then none else some c) = none) (h : check holds c s go = .next t) : go = .next t := by
  obtain ⟨-, hgo⟩ | ⟨hholds, -⟩ := check_eq_next.1 h
  · exact hgo
  · simp [hholds] at hf

theorem exec_of_commandFault {i : Instr} {s : State} {c : FaultCode} (h : commandFault Config.obufCap s i = some c) :
    exec i s = .next (faulted c s) := by
  cases i with
  | gnext32 | gnext64 | kmder | schunk | sclose => exact check_faults h
  | sopen | dstream => exact checkOpen_faults h _
  | nop | srst | tinit | tload | gseed | kcder => cases h

/-- `ERR` and `ECODE` are as before. -/
def SameRecord (s t : State) : Prop := t.err = s.err ∧ t.ecode = s.ecode

theorem SameRecord.refl (s : State) : SameRecord s s := ⟨rfl, rfl⟩

theorem sameRecord_deriveMaterial (p : Prng) (idx : Nat) (dst : Dst) (s : State) :
    SameRecord s (deriveMaterial p idx dst s) := by
  cases dst <;> simp [SameRecord, deriveMaterial, discardGenerator, writeMaterial]

theorem sameRecord_keptByChunks (s : State) : KeptByChunks (SameRecord s) where
  stored _ _ hu := by simpa [SameRecord] using hu
  awaiting hu := by simpa [SameRecord] using hu

/-- A command that faults nowhere leaves the fault record alone, `SRST` apart (spec/60_exceptions.md R213). -/
theorem exec_sameRecord {i : Instr} {s t : State} (hi : i ≠ .srst) (hf : commandFault Config.obufCap s i = none)
    (h : exec i s = .next t) : SameRecord s t := by
  cases i with
  | srst => exact absurd rfl hi
  | nop | tinit | gseed => cases h; exact ⟨rfl, rfl⟩
  | gnext32 | gnext64 | sclose => cases next_of_check hf h; exact ⟨rfl, rfl⟩
  | kmder idx dst => cases next_of_check hf h; exact sameRecord_deriveMaterial Config.prng idx dst s
  | tload => obtain ⟨d, -, rfl⟩ | ⟨-, rfl⟩ := tload_eq_next.1 h <;> simp [SameRecord]
  | kcder => obtain ⟨d, -, rfl⟩ | ⟨-, rfl⟩ := kcder_eq_next.1 h <;> simp [SameRecord, derivePair]
  | sopen => cases (sopen_of_openFault hf).symm.trans h; exact ⟨rfl, rfl⟩
  | schunk =>
    exact (sameRecord_keptByChunks s).chunkStep (.refl s) (Nat.min_le_right ..)
      (fun u hu hn => by cases hn; exact hu) (next_of_check hf h)
  | dstream =>
    exact (sameRecord_keptByChunks s).streamLoop (s := openContext s) (fun u hu hn => by cases hn; exact hu) _
      ⟨rfl, rfl⟩ ((checkOpen_of_openFault hf _).symm.trans h)

/-- Settles O47: the codes are evaluated, a failing check answers its fault, and past the checks nothing writes the
record. -/
theorem faultingCommandChangesOnlyTheRecord : Obligations.FaultingCommandChangesOnlyTheRecord := by
  unfold Obligations.FaultingCommandChangesOnlyTheRecord
  exact ⟨rfl, fun _ _ _ => exec_of_commandFault,
    fun _ _ _ h => ⟨checkOpen_faults h _, checkOpen_faults h _⟩, fun _ _ _ => exec_sameRecord⟩

/-! ### The fault record after an access -/

/-- The fault record is as before, or as it is once one more fault is recorded. -/
def RecordAdvances (s t : State) : Prop := SameRecord s t ∨ ∃ c, SameRecord (recordFault c s) t

/-- A recorded fault keeps its code (spec/60_exceptions.md R213). -/
theorem RecordAdvances.sticky {s t : State} (h : RecordAdvances s t) (hs : s.err = true) : SameRecord s t := by
  obtain hsame | ⟨c, herr, hcode⟩ := h
  · exact hsame
  · exact ⟨herr.trans hs.symm, by rw [hcode, recordFault_ecode, if_pos hs]⟩

theorem faultCode_bounds (c : FaultCode) : 0x01#8 ≤ faultCode c ∧ faultCode c ≤ 0x0A#8 := by cases c <;> decide

theorem RecordAdvances.faultRecordOk {s t : State} (h : RecordAdvances s t) (hs : FaultRecordOk s) :
    FaultRecordOk t := by
  obtain ⟨herr, hcode⟩ | ⟨c, herr, hcode⟩ := h
  · unfold FaultRecordOk
    rwa [herr, hcode]
  · refine ⟨fun h => (by rw [herr] at h; cases h), fun _ => ?_⟩
    rw [hcode, recordFault_ecode]
    split_ifs with hrecorded
    · exact hs.2 hrecorded
    · exact faultCode_bounds c

theorem exec_recordAdvances {i : Instr} {s t : State} (hi : i ≠ .srst) (h : exec i s = .next t) :
    RecordAdvances s t := by
  cases hf : commandFault Config.obufCap s i with
  | none => exact .inl (exec_sameRecord hi hf h)
  | some c => cases (exec_of_commandFault hf).symm.trans h; exact .inr ⟨c, rfl, rfl⟩

/-- From `s` to `t` at most one fault is recorded; no request is made and the engine waits as it did. -/
structure AccessKept (s t : State) : Prop where
  record : RecordAdvances s t
  trace : t.trace = s.trace
  waiting : t.waiting = s.waiting

theorem accessKept_recordFault (c : FaultCode) (s : State) : AccessKept s (recordFault c s) :=
  ⟨.inr ⟨c, rfl, rfl⟩, rfl, rfl⟩

theorem accessKept_writeReg {r : Reg} {v : Word} {s t : State} (h : writeReg r v s = .finished t) :
    AccessKept s t := by
  cases r with
  | cmd => cases h
  | status | tgot | goutLo | goutHi | soff | olen | cb | cpos => cases h; exact accessKept_recordFault .addr s
  | hoff | seed | len | chunk | req | key | ictr => cases h; exact ⟨.inl ⟨rfl, rfl⟩, rfl, rfl⟩
  | tblw i =>
    cases h
    split_ifs
    · exact ⟨.inl ⟨rfl, rfl⟩, rfl, rfl⟩
    · exact accessKept_recordFault .noTbl s

theorem accessKept_read {a : HostAccess} (ha : (∃ width off, a = .read width off) ∨ ∃ o, a = .readOut o)
    {s t : State} (h : hostPort a s = .finished t) : AccessKept s t := by
  obtain ⟨r, u, hu, hp⟩ := hostPort_read_cases ha s
  cases hp.symm.trans h
  obtain rfl | ⟨c, rfl⟩ := hu
  · exact ⟨.inl ⟨rfl, rfl⟩, rfl, rfl⟩
  · exact ⟨.inr ⟨c, rfl, rfl⟩, rfl, rfl⟩

/-- An access that is neither a command nor a reset makes no request and records at most one fault. -/
theorem hostPort_accessKept {a : HostAccess} {s t : State} (ha : a ≠ .hardReset) (h : hostPort a s = .finished t) :
    AccessKept s t := by
  cases a with
  | write width off v =>
    rw [hostPort, hostWrite] at h
    cases hr : regAt width off with
    | none => rw [hr] at h; cases h; exact accessKept_recordFault .addr s
    | some r => rw [hr] at h; exact accessKept_writeReg h
  | read width off => exact accessKept_read (.inl ⟨width, off, rfl⟩) h
  | readOut o => exact accessKept_read (.inr ⟨o, rfl⟩) h
  | hardReset => exact absurd rfl ha

/-- A step resets the engine, by the access it serves or by the one that ends its wait, or records at most one fault. -/
theorem step_record_cases {s t : State} (h : step s = .next t) :
    (∃ u, t = resetEngine u ∧
      (s.waiting = true ∨ ∃ rest, s.host = .hardReset :: rest ∨ s.host = commandWrite (encode .srst) :: rest)) ∨
    RecordAdvances s t := by
  obtain ⟨hwait, rfl⟩ | ⟨-, -, rfl⟩ | ⟨-, a, rest, hhost, ⟨w, u, hp, hrun⟩ | hp⟩ := step_cases h
  · obtain ⟨-, hw⟩ | ⟨_, rest, -, -, hw⟩ := waitForReset_cases s
    · rw [hw]; exact .inr (.inl (.refl s))
    · exact .inl ⟨_, hw, .inl hwait⟩
  · exact .inr (.inl (.refl t))
  · obtain ⟨rfl, rfl⟩ := hostPort_eq_command hp
    obtain ⟨i, hd, hi⟩ | ⟨e, -, rfl⟩ := hrun
    · by_cases hr : i = .srst
      · subst hr
        cases hi
        rw [← (encode_of_decode hd).2] at hhost
        exact .inl ⟨_, rfl, .inr ⟨rest, .inr hhost⟩⟩
      · exact .inr (exec_recordAdvances (s := takeAccess rest s) hr hi)
    · exact .inr (.inr ⟨.illCmd, rfl, rfl⟩)
  · by_cases ha : a = .hardReset
    · subst ha
      cases hp
      exact .inl ⟨_, rfl, .inr ⟨rest, .inl hhost⟩⟩
    · exact .inr (hostPort_accessKept ha hp).record

/-- Settles O48: a step that serves no reset records at most one more fault, which a recorded one survives. -/
theorem faultRecordIsSticky : Obligations.FaultRecordIsSticky := by
  unfold Obligations.FaultRecordIsSticky
  intro s t a rest herr ⟨hwait, hhost⟩ hreset hsrst h
  obtain ⟨-, -, hwait' | ⟨_, hhost' | hhost'⟩⟩ | hrecord := step_record_cases h
  · exact absurd (hwait.symm.trans hwait') Bool.false_ne_true
  · exact absurd (List.cons.inj (hhost.symm.trans hhost')).1 hreset
  · exact absurd (List.cons.inj (hhost.symm.trans hhost')).1 hsrst
  · obtain ⟨herr', hcode⟩ := hrecord.sticky herr
    exact ⟨herr'.trans herr, hcode⟩

/-! ### The trace -/

/-- The requests made are within the contract of spec/20_memory.md R61, and the engine is in no wait. -/
structure TraceRuns (s : State) : Prop where
  ok : TraceOk s
  running : s.waiting = false

theorem TraceOk.of_kept {s t : State} (h : TraceOk s) (htrace : t.trace = s.trace)
    (hwait : t.waiting = true → s.waiting = true) : TraceOk t := by
  unfold TraceOk
  rw [htrace]
  exact ⟨h.1, fun ht => h.2 (hwait ht)⟩

theorem traceOk_resetEngine {s : State} (hs : TraceOk s) : TraceOk (resetEngine s) :=
  hs.of_kept rfl (fun hw => by cases hw)

theorem TraceRuns.of_kept {s t : State} (h : TraceRuns s) (htrace : t.trace = s.trace)
    (hwait : t.waiting = s.waiting) : TraceRuns t :=
  ⟨h.ok.of_kept htrace hwait.le, hwait.trans h.running⟩

theorem traceRuns_noteRequest {s : State} (hs : TraceRuns s) (space : Space) (off : Word) {max n : Nat}
    (hpos : max ≠ 0) (hmax : max < 2 ^ 32) (hn : n ≤ max) : TraceRuns (noteRequest space off max (some n) s) where
  ok := by
    rw [TraceOk, noteRequest_trace, noteRequest_waiting, hs.running, List.forall_mem_append, List.forall_mem_singleton]
    exact ⟨⟨hs.ok.1, Nat.one_le_iff_ne_zero.2 hpos, hmax, fun m hm => by cases hm; exact hn⟩, nofun⟩
  running := (noteRequest_waiting ..).trans hs.running

theorem traceOk_awaitAnswer {s : State} (hs : TraceOk s) (space : Space) (off : Word) {max : Nat}
    (hpos : max ≠ 0) (hmax : max < 2 ^ 32) : TraceOk (awaitAnswer space off max s) := by
  rw [TraceOk, awaitAnswer_trace, List.forall_mem_append, List.forall_mem_singleton]
  exact ⟨⟨hs.1, Nat.one_le_iff_ne_zero.2 hpos, hmax, nofun⟩, fun _ => ⟨s.trace, _, rfl, rfl⟩⟩

/-- A command that makes a request within the bounds of spec/20_memory.md R61 keeps the trace where what it does with the
answer does. -/
theorem traceOk_srcRead {space : Space} {off : Word} {max : Nat} {s t : State} {go : List Byte → State → Result State}
    (hs : TraceRuns s) (hpos : max ≠ 0) (hmax : max < 2 ^ 32)
    (hgo : ∀ d u, TraceRuns u → go d u = .next t → TraceOk t) (h : srcRead space off max s go = .next t) :
    TraceOk t := by
  obtain ⟨d, hd, hn⟩ | ⟨-, rfl⟩ := srcRead_eq_next.1 h
  · exact hgo d _ (traceRuns_noteRequest hs space off hpos hmax (sourceAnswer_length hd)) hn
  · exact traceOk_awaitAnswer hs.ok space off hpos hmax

theorem traceOk_loadTable {s t : State} {go : State → Result State} (hs : TraceRuns s)
    (hgo : ∀ u, TraceRuns u → go u = .next t → TraceOk t) (h : loadTable Config.tblLoadBytes s go = .next t) :
    TraceOk t := by
  have hbytes : Config.tblLoadBytes ≠ 0 ∧ Config.tblLoadBytes < 2 ^ 32 := by
    obtain h | h := tblLoadBytes_eq <;> rw [h] <;> decide
  exact traceOk_srcRead hs hbytes.1 hbytes.2
    (fun d u hu => hgo _ (hu.of_kept (installTable_trace ..) (installTable_waiting ..))) h

theorem traceOk_chunkStep {req : Nat} {s t : State} {go : State → Result State} (hs : TraceRuns s)
    (hreq : req ≤ remaining s) (hgo : ∀ u, TraceRuns u → go u = .next t → TraceOk t)
    (h : chunkStep req s go = .next t) : TraceOk t := by
  have hmax : req < 2 ^ 32 := (hreq.trans (Nat.sub_le ..)).trans_lt s.olen.isLt
  rw [chunkStep] at h
  split_ifs at h with hpos
  · exact hgo s hs h
  · exact traceOk_srcRead hs hpos hmax (fun d u hu hn => hgo (storeChunk req d u) (hu.of_kept rfl rfl) hn) h

theorem traceOk_streamLoop {chunk : Nat} {t : State} {go : State → Result State}
    (hgo : ∀ u, TraceRuns u → go u = .next t → TraceOk t) (n : Nat) {s : State} (hs : TraceRuns s)
    (h : streamLoop chunk go n s = .next t) : TraceOk t := by
  induction n generalizing s with
  | zero => exact hgo s hs h
  | succ n ih =>
    rw [streamLoop] at h
    split_ifs at h
    · exact traceOk_chunkStep hs (Nat.min_le_right ..) (fun u hu => ih hu) h
    · exact hgo s hs h

/-- Every command of an engine in no wait keeps the trace: it makes no request, or makes its own within bounds. -/
theorem exec_traceOk {i : Instr} {s t : State} (hs : TraceRuns s) (h : exec i s = .next t) : TraceOk t := by
  have hfault (c : FaultCode) : TraceOk (recordFault c s) := hs.ok.of_kept rfl id
  cases i with
  | srst => cases h; exact traceOk_resetEngine hs.ok
  | tload => exact traceOk_loadTable hs (fun u hu hn => by cases hn; exact hu.ok) h
  | kcder =>
    rw [exec_kcder] at h
    exact traceOk_loadTable hs (fun u hu hn => by cases hn; exact hu.ok.of_kept rfl id) h
  | schunk =>
    obtain ⟨-, hn⟩ | ⟨-, rfl⟩ := check_eq_next.1 h
    · exact traceOk_chunkStep hs (Nat.min_le_right ..) (fun u hu hn => by cases hn; exact hu.ok) hn
    · exact hfault _
  | dstream =>
    obtain ⟨-, -, hn⟩ | ⟨c, rfl⟩ := checkOpen_goes_or_faults h
    · exact traceOk_streamLoop (fun u hu hn => by cases hn; exact hu.ok.of_kept rfl id) _
        (hs.of_kept (t := openContext s) rfl rfl) hn
    · exact hfault c
  | kmder idx dst => rw [(exec_commandFrame (by simp) h).written]; cases dst <;> exact hs.ok.of_kept rfl id
  | nop | tinit | gseed | gnext32 | gnext64 | sopen | sclose =>
    rw [(exec_commandFrame (by simp) h).written]
    exact hs.ok.of_kept rfl id

theorem step_traceOk {s t : State} (hs : TraceOk s) (h : step s = .next t) : TraceOk t := by
  obtain ⟨-, rfl⟩ | ⟨-, -, rfl⟩ | ⟨hwait, a, rest, -, ⟨w, u, hp, hrun⟩ | hp⟩ := step_cases h
  · obtain ⟨-, hw⟩ | ⟨_, rest, -, -, hw⟩ := waitForReset_cases s
    · rw [hw]; exact hs
    · rw [hw]; exact traceOk_resetEngine (s := takeAccess rest s) hs
  · exact hs
  · obtain ⟨-, rfl⟩ := hostPort_eq_command hp
    obtain ⟨i, -, hi⟩ | ⟨e, -, rfl⟩ := hrun
    · exact exec_traceOk (s := takeAccess rest s) ⟨hs, hwait⟩ hi
    · exact hs.of_kept rfl id
  · by_cases ha : a = .hardReset
    · subst ha
      cases hp
      exact traceOk_resetEngine (s := takeAccess rest s) hs
    · have hk := hostPort_accessKept ha hp
      exact hs.of_kept hk.trace hk.waiting.le

/-- Settles O43: a reset clears the record and any other step records at most one fault, by one of the ten codes; every
request is made within bounds, and the one that starts a wait comes last. -/
theorem everyStepKeepsTheRecordsOk : Obligations.EveryStepKeepsTheRecordsOk := by
  unfold Obligations.EveryStepKeepsTheRecordsOk
  refine fun s t h => ⟨fun hs => ?_, fun hs => step_traceOk hs h⟩
  obtain ⟨u, rfl, -⟩ | hrecord := step_record_cases h
  · exact ⟨fun _ => rfl, fun herr => by cases herr⟩
  · exact hrecord.faultRecordOk hs

end Sys2Proof.Machine
end

section
/-! PROOF. Noninterference (spec/70_reset_and_hazards.md R241, spec/93_implementation_defined.md U7, U8, U12): each
operation takes two states that differ in unobservable contents only to two such states, and answers both alike. -/

namespace Sys2Proof.Machine

/-! ### Contexts and key registers -/

/-- Two contexts that differ at most in a keystream buffer of which nothing is left (spec/10_state.md R26). -/
structure CtxAgrees (x y : Ctx) : Prop where
  key : x.key = y.key
  cb : x.cb = y.cb
  pos : x.pos = y.pos
  ks : x.pos.val < 16 → x.ks = y.ks

/-- The next keystream block replaces the buffer, so the old one does not matter. -/
theorem CtxAgrees.nextKeystream {x y : Ctx} (h : CtxAgrees x y) : nextKeystream x = nextKeystream y := by
  simp only [Machine.nextKeystream, h.key, h.cb]

theorem CtxAgrees.eq_of_left {x y : Ctx} (h : CtxAgrees x y) (hleft : x.pos.val < 16) : x = y := by
  cases x
  cases y
  rw [Ctx.mk.injEq]
  exact ⟨h.key, h.cb, h.ks hleft, h.pos⟩

/-- A byte is met by keystream that is left, and then the contexts are equal, or by a new block. -/
theorem CtxAgrees.ctrByte {x y : Ctx} (h : CtxAgrees x y) (d : Byte) : ctrByte x d = ctrByte y d := by
  by_cases hleft : x.pos.val < 16
  · rw [h.eq_of_left hleft]
  · have hleft' : ¬y.pos.val < 16 := h.pos ▸ hleft
    rw [Machine.ctrByte, Machine.ctrByte, dif_neg hleft, dif_neg hleft', h.nextKeystream]

theorem CtxAgrees.ctrCrypt {x y : Ctx} (h : CtxAgrees x y) (d : List Byte) :
    (ctrCrypt x d).1 = (ctrCrypt y d).1 ∧ CtxAgrees (ctrCrypt x d).2 (ctrCrypt y d).2 := by
  cases d with
  | nil => exact ⟨rfl, h⟩
  | cons b rest =>
    have heq : Machine.ctrCrypt x (b :: rest) = Machine.ctrCrypt y (b :: rest) := by
      rw [Machine.ctrCrypt, Machine.ctrCrypt, h.ctrByte]
    rw [heq]
    exact ⟨rfl, rfl, rfl, rfl, fun _ => rfl⟩

/-- Two registers that agree where valid agree everywhere once all four valid bits are set. -/
theorem block_eq_of_valid {a b : Block} {v : BitVec 4} (hv : v = 0b1111#4)
    (h : ∀ n : Fin 4, v.getLsbD n.val = true → blockWord a n = blockWord b n) : a = b := by
  subst hv
  have hall : ∀ n : Fin 4, (0b1111#4).getLsbD n.val = true := by decide
  exact block_ext_words a b fun n => h n (hall n)

/-- A word written to both of two registers that agree where valid is one more on which they agree. -/
theorem blockWord_setBlockWord_congr {a b : Block} {v : BitVec 4}
    (h : ∀ n : Fin 4, v.getLsbD n.val = true → blockWord a n = blockWord b n) (m : Fin 4) (w : Word) (n : Fin 4)
    (hn : (setValid v m).getLsbD n.val = true) :
    blockWord (setBlockWord a m w) n = blockWord (setBlockWord b m w) n := by
  rw [setValid_getLsbD, Bool.or_eq_true, decide_eq_true_eq] at hn
  rw [blockWord_setBlockWord, blockWord_setBlockWord]
  split_ifs with hm
  · rfl
  · exact h n (hn.resolve_left hm)

/-! ### What every state operation does to the relation -/

section
variable {s t : State}

theorem Indistinct.ctxAgrees (h : Indistinct s t) (hopen : s.ctxv = true) : CtxAgrees s.ctx t.ctx :=
  have ⟨hkey, hcb, hpos⟩ := h.ctx hopen
  ⟨hkey, hcb, hpos, h.ks hopen⟩

theorem Indistinct.remaining (h : Indistinct s t) : remaining s = remaining t := by
  rw [Machine.remaining, Machine.remaining, h.olen, h.soff]

theorem Indistinct.takeAccess (h : Indistinct s t) (rest : List HostAccess) :
    Indistinct (takeAccess rest s) (takeAccess rest t) := { h with host := rfl, ret := rfl }

theorem Indistinct.recordFault (h : Indistinct s t) (c : FaultCode) :
    Indistinct (recordFault c s) (recordFault c t) :=
  { h with err := rfl, ecode := by rw [recordFault_ecode, recordFault_ecode, h.err, h.ecode] }

theorem Indistinct.returnWord (h : Indistinct s t) (v : Word) : Indistinct (returnWord v s) (returnWord v t) :=
  { h with ret := rfl }

theorem Indistinct.returnByte (h : Indistinct s t) (b : Byte) : Indistinct (returnByte b s) (returnByte b t) :=
  { h with ret := rfl }

/-- A reset leaves nothing of what the engine held. -/
theorem Indistinct.resetEngine (h : Indistinct s t) : Indistinct (resetEngine s) (resetEngine t) := by
  constructor
  case hdr => exact h.hdr
  case src => exact h.src
  case trace => exact h.trace
  case host => exact h.host
  case ret => exact h.ret
  case canonical => exact ⟨rfl, rfl⟩
  case ctx => exact fun _ => ⟨rfl, rfl, rfl⟩
  all_goals intros; rfl

theorem Indistinct.noteRequest (h : Indistinct s t) (space : Space) (off : Word) (max : Nat) (n : Option Nat) :
    Indistinct (noteRequest space off max n s) (noteRequest space off max n t) := by
  have htrace (r : Request) : s.trace ++ [r] = t.trace ++ [r] := by rw [h.trace]
  cases space with
  | hdr => exact { h with hdr := congrArg afterAnswer h.hdr, trace := htrace _ }
  | src => exact { h with src := congrArg afterAnswer h.src, trace := htrace _ }

theorem Indistinct.awaitAnswer (h : Indistinct s t) (space : Space) (off : Word) (max : Nat) :
    Indistinct (awaitAnswer space off max s) (awaitAnswer space off max t) :=
  { h.noteRequest space off max none with waiting := rfl, ret := rfl }

theorem Indistinct.seedGenerator (h : Indistinct s t) (p : Prng) :
    Indistinct (seedGenerator p s) (seedGenerator p t) :=
  { h with g := fun _ => congrArg p.seed h.seed, gv := rfl }

theorem Indistinct.draw32 (h : Indistinct s t) (hv : s.gv = true) (p : Prng) :
    Indistinct (draw32 p s) (draw32 p t) :=
  { h with
    g := fun _ => congrArg (fun g => (p.next32 g).2) (h.g hv)
    gout := congrArg (fun g => (p.next32 g).1.setWidth 64) (h.g hv) }

theorem Indistinct.draw64 (h : Indistinct s t) (hv : s.gv = true) (p : Prng) :
    Indistinct (draw64 p s) (draw64 p t) :=
  { h with
    g := fun _ => congrArg (fun g => (p.next64 g).2) (h.g hv)
    gout := congrArg (fun g => (p.next64 g).1) (h.g hv) }

theorem Indistinct.withTable (h : Indistinct s t) (u : Table) : Indistinct (withTable s u) (withTable t u) :=
  { h with tbl := fun _ => rfl, tblv := rfl, tgot := rfl, tshort := rfl }

theorem Indistinct.installTable (h : Indistinct s t) (max : Nat) (d : List Byte) :
    Indistinct (installTable max d s) (installTable max d t) := by
  unfold Machine.installTable
  generalize tableOf d = u
  exact { h with tbl := fun _ => rfl, tblv := rfl, tgot := rfl, tshort := rfl }

theorem Indistinct.discardTable (h : Indistinct s t) : Indistinct { s with tblv := false } { t with tblv := false } :=
  { h with tbl := nofun, tblv := rfl }

/-- A derivation reads the table alone, and leaves no generator to look at. -/
theorem Indistinct.deriveMaterial (h : Indistinct s t) (hv : s.tblv = true) (p : Prng) (idx : Nat) (dst : Dst) :
    Indistinct (deriveMaterial p idx dst s) (deriveMaterial p idx dst t) := by
  have hkm : km p s.tbl idx = km p t.tbl idx := by rw [h.tbl hv]
  cases dst with
  | key =>
    rw [deriveMaterial_key, deriveMaterial_key, hkm]
    exact { h with key := fun _ _ => rfl, keyv := rfl, g := fun _ => rfl, gv := rfl }
  | ictr =>
    rw [deriveMaterial_ictr, deriveMaterial_ictr, hkm]
    exact { h with ictr := fun _ _ => rfl, ictrv := rfl, g := fun _ => rfl, gv := rfl }

theorem Indistinct.derivePair (h : Indistinct s t) (hv : s.tblv = true) (p : Prng) :
    Indistinct (derivePair p s) (derivePair p t) := by
  rw [derivePair_eq_deriveMaterial, derivePair_eq_deriveMaterial]
  have hkey := h.deriveMaterial hv p Config.keyIndex .key
  exact (hkey.deriveMaterial ((deriveMaterial_tblv ..).trans hv) p Config.ctrIndex .ictr).discardTable

/-- A new stream copies key and counter whole, and below its length the buffer is zero. -/
theorem Indistinct.openContext (h : Indistinct s t) (hk : keysLoaded s = true) :
    Indistinct (openContext s) (openContext t) := by
  obtain ⟨hkeyv, hictrv⟩ := keysLoaded_iff.1 hk
  have hctx : (Machine.openContext s).ctx = (Machine.openContext t).ctx := by
    rw [openContext_ctx, openContext_ctx, block_eq_of_valid hkeyv h.key, block_eq_of_valid hictrv h.ictr]
  exact { h with
    ctx := fun _ => by simp only [hctx, and_self]
    ks := fun _ _ => by rw [hctx]
    ctxv := rfl
    olen := h.len
    soff := rfl
    sshort := rfl
    obuf := fun a ha => by
      rw [openContext_olen] at ha
      rw [openContext_obuf, openContext_obuf, ← h.len, read_zeroFill, read_zeroFill, if_pos ha, if_pos ha]
    canonical := ⟨wf_zeroFill h.canonical.1 _, wf_zeroFill h.canonical.2 _⟩ }

/-- A chunk stored is the same bytes at the same offset, whatever lies past the length. -/
theorem Indistinct.storeChunk (h : Indistinct s t) (hopen : s.ctxv = true) (req : Nat) (d : List Byte) :
    Indistinct (storeChunk req d s) (storeChunk req d t) := by
  obtain ⟨hbytes, hctx⟩ := (h.ctxAgrees hopen).ctrCrypt d
  exact { h with
    ctx := fun _ => ⟨hctx.key, hctx.cb, hctx.pos⟩
    ks := fun _ => hctx.ks
    soff := by rw [storeChunk_soff, storeChunk_soff, h.soff]
    sshort := by rw [storeChunk_sshort, storeChunk_sshort, h.sshort]
    obuf := fun a ha => by
      rw [read_storeChunk h.canonical.1, read_storeChunk h.canonical.2, hbytes, h.soff, h.obuf a ha]
    canonical := ⟨wf_writeBytes h.canonical.1 _ _, wf_writeBytes h.canonical.2 _ _⟩ }

theorem Indistinct.closeContext (h : Indistinct s t) : Indistinct (closeContext s) (closeContext t) :=
  { h with ctx := nofun, ks := nofun, ctxv := rfl }

/-! ### Checks and requests answer both states alike -/

theorem Indistinct.check (h : Indistinct s t) {holds holds' : Bool} (hsame : holds = holds') (c : FaultCode)
    {go go' : Result State} (hgo : holds = true → IndistinctOutcomes go go') :
    IndistinctOutcomes (check holds c s go) (check holds' c t go') := by
  subst hsame
  cases holds with
  | true => exact hgo rfl
  | false => exact h.recordFault c

theorem Indistinct.keysLoaded (h : Indistinct s t) : keysLoaded s = keysLoaded t := by
  rw [Machine.keysLoaded, Machine.keysLoaded, h.keyv, h.ictrv]

theorem Indistinct.checkOpen (h : Indistinct s t) (cap : Word) {go go' : Result State}
    (hgo : Machine.keysLoaded s = true → IndistinctOutcomes go go') :
    IndistinctOutcomes (checkOpen cap s go) (checkOpen cap t go') :=
  h.check (congrArg not h.ctxv) _ fun _ =>
    h.check h.keysLoaded _ fun hkeys => h.check (by rw [h.len]) _ fun _ => hgo hkeys

/-- Both states make the same request to the same source, and go on with the same bytes. -/
theorem Indistinct.srcRead (h : Indistinct s t) (space : Space) {off off' : Word} (hoff : off = off') (max : Nat)
    {go go' : List Byte → State → Result State}
    (hgo : ∀ d, IndistinctOutcomes (go d (Machine.noteRequest space off max (some d.length) s))
      (go' d (Machine.noteRequest space off max (some d.length) t))) :
    IndistinctOutcomes (srcRead space off max s go) (srcRead space off' max t go') := by
  subst hoff
  have hsource : sourceOf space s = sourceOf space t := by
    cases space with
    | hdr => exact h.hdr
    | src => exact h.src
  rw [Machine.srcRead, Machine.srcRead, ← hsource]
  cases sourceAnswer (sourceOf space s) off.toNat max with
  | bytes d => exact hgo d
  | never => exact h.awaitAnswer space off max
  | tooLong => exact rfl

theorem Indistinct.loadTable (h : Indistinct s t) (max : Nat) {go : State → Result State}
    (hgo : ∀ u v, Indistinct u v → u.tblv = true → IndistinctOutcomes (go u) (go v)) :
    IndistinctOutcomes (loadTable max s go) (loadTable max t go) :=
  h.srcRead .hdr h.hoff max fun d => hgo _ _ ((h.noteRequest ..).installTable max d) (installTable_tblv ..)

theorem Indistinct.chunkStep (h : Indistinct s t) (hopen : s.ctxv = true) (req : Nat) {go : State → Result State}
    (hgo : ∀ u v, Indistinct u v → u.ctxv = true → IndistinctOutcomes (go u) (go v)) :
    IndistinctOutcomes (chunkStep req s go) (chunkStep req t go) := by
  rw [Machine.chunkStep, Machine.chunkStep]
  split_ifs
  · exact hgo s t h hopen
  · exact h.srcRead .src h.soff req fun d => hgo _ _ ((h.noteRequest .src s.soff req _).storeChunk hopen req d) hopen

end

theorem Indistinct.streamLoop {chunk : Nat} {go : State → Result State}
    (hgo : ∀ u v, Indistinct u v → u.ctxv = true → IndistinctOutcomes (go u) (go v)) (n : Nat) {s t : State}
    (h : Indistinct s t) (hopen : s.ctxv = true) :
    IndistinctOutcomes (streamLoop chunk go n s) (streamLoop chunk go n t) := by
  induction n generalizing s t with
  | zero => exact hgo s t h hopen
  | succ n ih =>
    rw [Machine.streamLoop, Machine.streamLoop, ← h.soff, ← h.olen, ← h.sshort, ← h.remaining]
    split_ifs
    · exact h.chunkStep hopen _ fun u v => ih
    · exact hgo s t h hopen

/-! ### Commands, accesses, steps -/

/-- Every command answers both states alike: each reads only elements that are valid. -/
theorem Indistinct.exec {s t : State} (h : Indistinct s t) (i : Instr) :
    IndistinctOutcomes (exec i s) (exec i t) := by
  cases i with
  | nop => exact h
  | srst => exact h.resetEngine
  | tinit => exact h.withTable zeroTable
  | tload => exact h.loadTable _ fun u v huv _ => huv
  | gseed => exact h.seedGenerator _
  | gnext32 => exact h.check h.gv _ fun hv => h.draw32 hv _
  | gnext64 => exact h.check h.gv _ fun hv => h.draw64 hv _
  | kmder idx dst => exact h.check h.tblv _ fun hv => h.deriveMaterial hv _ idx dst
  | kcder =>
    rw [exec_kcder, exec_kcder]
    exact h.loadTable _ fun u v huv hv => huv.derivePair hv _
  | sopen => exact h.checkOpen _ fun hkeys => h.openContext hkeys
  | schunk =>
    refine h.check h.ctxv _ fun hopen => ?_
    rw [← h.req, ← h.remaining]
    exact h.chunkStep hopen _ fun u v huv _ => huv
  | sclose => exact h.check h.ctxv _ fun _ => h.closeContext
  | dstream =>
    refine h.checkOpen _ fun hkeys => ?_
    rw [runStream, runStream, ← h.len, ← h.chunk]
    exact (h.openContext hkeys).streamLoop (fun u v huv _ => by exact huv.closeContext) _ rfl

/-- Two accesses that come to the same: the same command on two states, or two finished states, that differ in
unobservable contents only. -/
inductive IndistinctPorts : PortResult → PortResult → Prop
  | command (w : Word) {s t : State} : Indistinct s t → IndistinctPorts (.command w s) (.command w t)
  | finished {s t : State} : Indistinct s t → IndistinctPorts (.finished s) (.finished t)

theorem Indistinct.writeReg {s t : State} (h : Indistinct s t) (r : Reg) (v : Word) :
    IndistinctPorts (writeReg r v s) (writeReg r v t) := by
  cases r with
  | cmd => exact .command v h
  | hoff => exact .finished { h with hoff := rfl }
  | seed => exact .finished { h with seed := rfl }
  | len => exact .finished { h with len := rfl }
  | chunk => exact .finished { h with chunk := rfl }
  | req => exact .finished { h with req := rfl }
  | key n =>
    exact .finished { h with
      key := blockWord_setBlockWord_congr h.key n v
      keyv := congrArg (setValid · n) h.keyv }
  | ictr n =>
    exact .finished { h with
      ictr := blockWord_setBlockWord_congr h.ictr n v
      ictrv := congrArg (setValid · n) h.ictrv }
  | tblw i =>
    refine .finished ?_
    by_cases hv : s.tblv = true
    · rw [if_pos hv, if_pos (h.tblv ▸ hv)]
      exact { h with tbl := fun _ => congrArg (Vector.set · i v) (h.tbl hv) }
    · rw [if_neg hv, if_neg (h.tblv ▸ hv)]
      exact h.recordFault .noTbl
  | status | tgot | goutLo | goutHi | soff | olen | cb | cpos => exact .finished (h.recordFault .addr)

/-- Two reads behind equal valid bits, of contents that agree where valid. -/
theorem guardedRead_congr {v v' : Bool} (hv : v = v') {x y : Word} (h : v = true → x = y) (c : FaultCode) :
    (if v then Except.ok x else .error c) = if v' then .ok y else .error c := by
  subst hv
  split_ifs with hvalid
  · rw [h hvalid]
  · rfl

/-- A read of a register looks at its content only where the valid bit is set. -/
theorem Indistinct.readReg {s t : State} (h : Indistinct s t) (r : Reg) : readReg r s = readReg r t := by
  cases r with
  | cmd => rfl
  | status =>
    simp only [Machine.readReg, statusWord, h.ecode, h.ictrv, h.keyv, h.err, h.sshort, h.tshort, h.ctxv, h.gv, h.tblv]
  | hoff | tgot | seed | goutLo | goutHi | len | chunk | req | soff | olen =>
    simp only [Machine.readReg, h.hoff, h.tgot, h.seed, h.gout, h.len, h.chunk, h.req, h.soff, h.olen]
  | key n => exact guardedRead_congr (congrArg (·.getLsbD n.val) h.keyv) (h.key n) .uninit
  | ictr n => exact guardedRead_congr (congrArg (·.getLsbD n.val) h.ictrv) (h.ictr n) .uninit
  | cb n => exact guardedRead_congr h.ctxv (fun hv => congrArg (blockWord · n) (h.ctxAgrees hv).cb) .noCtx
  | cpos => exact guardedRead_congr h.ctxv (fun hv => by rw [(h.ctxAgrees hv).pos]) .noCtx
  | tblw i => exact guardedRead_congr h.tblv (fun hv => congrArg (·[i]) (h.tbl hv)) .noTbl

theorem Indistinct.hostRead {s t : State} (h : Indistinct s t) (width off : Nat) :
    Indistinct (hostRead width off s) (hostRead width off t) := by
  rw [Machine.hostRead, Machine.hostRead]
  cases regAt width off with
  | none => exact (h.recordFault .addr).returnWord _
  | some r =>
    simp only [← h.readReg]
    cases Machine.readReg r s with
    | ok v => exact h.returnWord v
    | error c => exact (h.recordFault c).returnWord _

/-- A byte of the output buffer is returned only from below the length. -/
theorem Indistinct.readOut {s t : State} (h : Indistinct s t) (o : Word) :
    Indistinct (readOut o s) (readOut o t) := by
  rw [Machine.readOut, Machine.readOut, ← h.ctxv, ← h.olen]
  split_ifs with hopen hend
  · exact (h.recordFault .own).returnByte _
  · exact (h.recordFault .addr).returnByte _
  · rw [← h.obuf o.toNat (BitVec.lt_def.1 (BitVec.not_le.1 hend))]
    exact h.returnByte _

theorem Indistinct.hostPort {s t : State} (h : Indistinct s t) (a : HostAccess) :
    IndistinctPorts (hostPort a s) (hostPort a t) := by
  cases a with
  | write width off v =>
    rw [Machine.hostPort, Machine.hostPort, hostWrite, hostWrite]
    cases regAt width off with
    | none => exact .finished (h.recordFault .addr)
    | some r => exact h.writeReg r v
  | read width off => exact .finished (h.hostRead width off)
  | readOut o => exact .finished (h.readOut o)
  | hardReset => exact .finished h.resetEngine

theorem Indistinct.runCommand {s t : State} (h : Indistinct s t) (w : Word) :
    IndistinctOutcomes (runCommand w s) (runCommand w t) := by
  rw [Machine.runCommand, Machine.runCommand]
  cases decode w with
  | ok i => exact h.exec i
  | error e => exact h.recordFault .illCmd

theorem Indistinct.waitForReset {s t : State} (h : Indistinct s t) : Indistinct (waitForReset s) (waitForReset t) := by
  obtain ⟨hn, hs⟩ | ⟨lost, rest, hhost, hlost, hs⟩ := waitForReset_cases s
  · rw [hs, waitForReset_of_not_mem (h.host ▸ hn)]
    exact h
  · rw [hs, waitForReset_of_host (h.host ▸ hhost) hlost]
    exact (h.takeAccess rest).resetEngine

/-- Settles O52: both states wait, idle or serve the same access, which answers them alike. -/
theorem unobservableContentsStayUnobservable : Obligations.UnobservableContentsStayUnobservable := by
  unfold Obligations.UnobservableContentsStayUnobservable
  intro s t h
  cases hw : s.waiting with
  | true =>
    rw [step_waiting hw, step_waiting (h.waiting ▸ hw)]
    exact h.waitForReset
  | false =>
    cases hs : s.host with
    | nil =>
      rw [step_idle hw hs, step_idle (h.waiting ▸ hw) (h.host ▸ hs)]
      exact h
    | cons a rest =>
      rw [step_access hw hs, step_access (h.waiting ▸ hw) (h.host ▸ hs)]
      have hport := (h.takeAccess rest).hostPort a
      generalize hostPort a (takeAccess rest s) = x, hostPort a (takeAccess rest t) = y at hport ⊢
      cases hport with
      | command w hu => exact hu.runCommand w
      | finished hu => exact hu

end Sys2Proof.Machine
end

section
/-! PROOF. What a stream stores and what it asks for (spec/45_ctr_stream.md R183, R189, spec/70_reset_and_hazards.md R247,
R249): the plaintext of a chunk in mid-stream, and the bound on the requests of `DSTREAM`. -/

namespace Sys2Proof.Machine

/-- Settles O34: the chunk is stored as the open context transforms it, which runs from the stream offset. -/
theorem schunkDecryptsAtItsOffset : Obligations.SchunkDecryptsAtItsOffset := by
  unfold Obligations.SchunkDecryptsAtItsOffset
  intro k0 c0 s t d hruns hwf hreq hleft hans hexec j hj
  obtain ⟨hopen, hctx, -⟩ := contextRuns_iff.1 hruns
  obtain ⟨u, hu, hread, -⟩ := (schunkRunsOneChunk s).2.2 d hopen hwf hreq hleft hans
  obtain rfl : u = t := Host.Outcome.next.inj (hu.symm.trans hexec)
  rw [hread, if_pos ⟨Nat.le_add_right .., Nat.add_lt_add_left hj _⟩, Nat.add_sub_cancel_left,
    ctrCrypt_getD_of_ctxRuns hctx hj]

/-! ### The requests of a stream -/

/-- From `s` to `t` at most `n` requests are made, all to `SRC`, each for at least one byte and at most `chunk`. -/
def RequestsWithin (chunk n : Nat) (s t : State) : Prop :=
  ∃ made : List Request, t.trace = s.trace ++ made ∧ made.length ≤ n ∧
    ∀ r ∈ made, r.space = .src ∧ 1 ≤ r.max ∧ r.max ≤ chunk

theorem RequestsWithin.of_trace_eq {chunk n : Nat} {s t : State} (h : t.trace = s.trace) : RequestsWithin chunk n s t :=
  ⟨[], by rw [h, List.append_nil], Nat.zero_le n, nofun⟩

/-- One request more, made first. -/
theorem RequestsWithin.cons {chunk n m req : Nat} {off : Word} {count : Option Nat} {s u t : State} (hreq : req ≠ 0)
    (hchunk : req ≤ chunk) (hm : n + 1 ≤ m)
    (hu : u.trace = s.trace ++ [{ space := .src, off := off, max := req, n := count }])
    (h : RequestsWithin chunk n u t) : RequestsWithin chunk m s t := by
  obtain ⟨made, htrace, hlen, hall⟩ := h
  refine ⟨{ space := .src, off := off, max := req, n := count } :: made, ?_, (Nat.succ_le_succ hlen).trans hm,
    List.forall_mem_cons.2 ⟨⟨rfl, Nat.one_le_iff_ne_zero.2 hreq, hchunk⟩, hall⟩⟩
  rw [htrace, hu, List.append_assoc, List.singleton_append]

/-- How many requests a stream still makes at most: none after a short read, else as many as the bytes left to ask for
need (spec/45_ctr_stream.md R189). -/
def requestsLeft (chunk : Nat) (s : State) : Nat :=
  if s.sshort = true then 0 else (remaining s + chunk - 1) / chunk

/-- A request for a chunk, or for what is left where that is less, is one of those needed. -/
theorem ceilDiv_sub_min {chunk left : Nat} (hchunk : chunk ≠ 0) (hleft : left ≠ 0) :
    (left - min chunk left + chunk - 1) / chunk + 1 ≤ (left + chunk - 1) / chunk := by
  have hpos := Nat.pos_of_ne_zero hchunk
  obtain hfull | hlast := Nat.le_total chunk left
  · rw [← Nat.add_div_right _ hpos, Nat.min_eq_left hfull]
    exact Nat.div_le_div_right (by omega)
  · rw [Nat.min_eq_right hlast, Nat.div_eq_of_lt (by omega)]
    exact Nat.div_pos (by omega) hpos

/-- Whatever a stream that runs on obtains for a request, it has one request less to make. -/
theorem requestsLeft_storeChunk {chunk : Nat} {s : State} (hend : ¬(remaining s = 0 ∨ s.sshort = true))
    (hchunk : chunk ≠ 0) {d : List Byte} (hd : d.length ≤ min chunk (remaining s)) :
    requestsLeft chunk (storeChunk (min chunk (remaining s)) d s) + 1 ≤ requestsLeft chunk s := by
  obtain ⟨hleft, hshort⟩ := not_or.1 hend
  have hceil := ceilDiv_sub_min hchunk hleft
  rw [requestsLeft, requestsLeft, if_neg hshort]
  split_ifs with hshort'
  · exact (Nat.le_add_left 1 _).trans hceil
  · rwa [remaining_storeChunk_of_not_short hd (Nat.min_le_right ..) (Bool.eq_false_iff.2 hshort')]

theorem streamLoop_requests {chunk : Nat} {t : State} {go : State → Result State}
    (hgo : ∀ u, go u = .next t → t.trace = u.trace) (n : Nat) {s : State} (h : streamLoop chunk go n s = .next t) :
    RequestsWithin chunk (requestsLeft chunk s) s t := by
  induction n generalizing s with
  | zero => exact .of_trace_eq (hgo s h)
  | succ n ih =>
    by_cases hend : remaining s = 0 ∨ s.sshort = true
    · rw [streamLoop_ended hend] at h
      exact .of_trace_eq (hgo s h)
    rw [streamLoop_runs hend] at h
    have hchunk (hreq : min chunk (remaining s) ≠ 0) : chunk ≠ 0 := fun h0 => hreq (by rw [h0, Nat.zero_min])
    obtain ⟨-, hn⟩ | ⟨hreq, d, hd, hn⟩ | ⟨hreq, -, rfl⟩ := chunkStep_eq_next.1 h
    · exact ih hn
    · exact .cons hreq (Nat.min_le_left ..) (requestsLeft_storeChunk hend (hchunk hreq) (sourceAnswer_length hd))
        (noteRequest_trace ..) (ih hn)
    · have hone := (Nat.le_add_left 1 _).trans (requestsLeft_storeChunk hend (hchunk hreq) (d := []) (Nat.zero_le _))
      exact .cons (n := 0) hreq (Nat.min_le_left ..) hone (awaitAnswer_trace ..) (.of_trace_eq rfl)

/-- Settles O41: a fresh stream has `LEN` bytes to ask for and no short read behind it. -/
theorem dstreamRequestsAreBounded : Obligations.DstreamRequestsAreBounded := by
  unfold Obligations.DstreamRequestsAreBounded
  intro cap s t hf h
  rw [dstream, checkOpen_of_openFault hf, runStream] at h
  exact streamLoop_requests (s := openContext s) (fun u hu => by cases hu; rfl) _ h

end Sys2Proof.Machine
end

section
/-! PROOF. Where every request is answered the engine never stops (spec/70_reset_and_hazards.md R249), and the reference
environment answers every request (spec/20_memory.md R62). -/

namespace Sys2Proof.Machine

/-! ### Answered commands -/

/-- An operation on `s` ends with a next state, in which an engine that was in no wait is in none. -/
def Completes (s : State) (x : Result State) : Prop := ∃ t, x = .next t ∧ (s.waiting = false → t.waiting = false)

theorem completes_next {s t : State} (h : t.waiting = s.waiting) : Completes s (.next t) :=
  ⟨t, rfl, fun hs => h.trans hs⟩

/-- A check completes where the part after it does, if it is reached. -/
theorem completes_check {holds : Bool} {c : FaultCode} {s : State} {go : Result State}
    (h : holds = true → Completes s go) : Completes s (check holds c s go) := by
  cases holds with
  | true => exact h rfl
  | false => exact completes_next (recordFault_waiting c s)

/-- `SOPEN` and `DSTREAM` complete where no precondition fails or what follows does. -/
theorem completes_checkOpen {cap : Word} {s : State} {go : Result State}
    (h : openFault cap s = none → Completes s go) : Completes s (checkOpen cap s go) := by
  cases hf : openFault cap s with
  | none => rw [checkOpen_of_openFault hf]; exact h hf
  | some c => rw [checkOpen_faults hf]; exact completes_next rfl

theorem completes_loadTable {max : Nat} {s : State} {go : State → Result State} (h : AnswersWithin s.hdr s.hoff max)
    (hgo : ∀ u : State, u.waiting = s.waiting → Completes s (go u)) : Completes s (loadTable max s go) := by
  obtain ⟨d, hd⟩ := h
  rw [loadTable_bytes hd]
  exact hgo _ ((installTable_waiting ..).trans (noteRequest_waiting ..))

theorem deriveMaterial_waiting (p : Prng) (idx : Nat) (dst : Dst) (s : State) :
    (deriveMaterial p idx dst s).waiting = s.waiting := by
  cases dst <;> simp only [deriveMaterial, discardGenerator, writeMaterial]

/-- A command whose every request is answered within the contract completes. -/
theorem exec_completes {i : Instr} {s : State} (h : Answered Config.obufCap s i) : Completes s (exec i s) := by
  cases i with
  | nop | tinit | gseed => exact completes_next rfl
  | srst => exact ⟨_, rfl, fun _ => rfl⟩
  | gnext32 | gnext64 | sclose => exact completes_check fun _ => completes_next rfl
  | kmder idx dst => exact completes_check fun _ => completes_next (deriveMaterial_waiting ..)
  | tload => exact completes_loadTable h fun u hu => completes_next hu
  | kcder =>
    rw [exec_kcder]
    refine completes_loadTable h fun u hu => completes_next ?_
    rw [← hu, derivePair]
  | sopen => exact completes_checkOpen fun _ => completes_next rfl
  | schunk =>
    refine completes_check fun hopen => ?_
    by_cases hreq : min s.req.toNat (remaining s) = 0
    · rw [hreq, chunkStep_zero]
      exact completes_next rfl
    · obtain ⟨d, hd⟩ := h hopen hreq
      rw [chunkStep_bytes hreq hd]
      exact completes_next rfl
  | dstream =>
    refine completes_checkOpen fun hf => ?_
    obtain ⟨src, trace, -, hrun⟩ := dstream_answered hf (h hf)
    rw [dstream, checkOpen_of_openFault hf] at hrun
    rw [hrun]
    exact completes_next rfl

/-! ### Answered steps -/

/-- What the environment answers is not changed by taking an access. -/
theorem answered_takeAccess {cap : Word} {s : State} {i : Instr} (h : Answered cap s i) (rest : List HostAccess) :
    Answered cap (takeAccess rest s) i := by cases i <;> exact h

theorem hostPort_waiting {a : HostAccess} {s t : State} (h : hostPort a s = .finished t) (hs : s.waiting = false) :
    t.waiting = false := by
  by_cases ha : a = .hardReset
  · subst ha
    cases h
    rfl
  · exact (hostPort_accessKept ha h).waiting.trans hs

/-- A step completes where the command it runs, if any, has its requests answered. -/
theorem step_completes {s : State} (hs : s.waiting = false)
    (h : ∀ (w : Word) (i : Instr) (rest : List HostAccess), s.host = .write 32 0x000 w :: rest → decode w = .ok i →
      Answered Config.obufCap s i) : ∃ t, step s = .next t ∧ t.waiting = false := by
  cases hhost : s.host with
  | nil => exact ⟨s, step_idle hs hhost, hs⟩
  | cons a rest =>
    rw [step_access hs hhost]
    cases hp : hostPort a (takeAccess rest s) with
    | finished t => exact ⟨t, rfl, hostPort_waiting hp hs⟩
    | command w u =>
      obtain ⟨rfl, rfl⟩ := hostPort_eq_command hp
      cases hd : decode w with
      | error e => exact ⟨recordFault .illCmd (takeAccess rest s), by simp only [runCommand, hd], hs⟩
      | ok i =>
        obtain ⟨t, ht, hwait⟩ := exec_completes (answered_takeAccess (h w i rest hhost hd) rest)
        exact ⟨t, (runCommand_of_decode hd _).trans ht, hwait hs⟩

/-! ### The reference environment -/

/-- Both byte sources are the reference environment of spec/20_memory.md R62: no scripted reply is left. -/
def FileSources (s : State) : Prop := s.hdr.replies = [] ∧ s.src.replies = []

theorem answersWithin_of_replies_nil {src : Source} (h : src.replies = []) (off : Word) (max : Nat) :
    AnswersWithin src off max := ⟨fileAnswer src.data off.toNat max, by rw [Answers, sourceAnswer, h]⟩

/-- The reference environment answers every request within the contract. -/
theorem FileSources.answered {s : State} (h : FileSources s) (cap : Word) (i : Instr) : Answered cap s i := by
  obtain ⟨hhdr, hsrc⟩ := h
  cases i with
  | tload | kcder => exact answersWithin_of_replies_nil hhdr _ _
  | schunk => exact fun _ _ => answersWithin_of_replies_nil hsrc _ _
  | dstream =>
    rw [Answered, hsrc]
    exact fun _ => rfl
  | nop | srst | tinit | gseed | gnext32 | gnext64 | kmder | sopen | sclose => exact trivial

/-- A request uses up a reply, of which there is none. -/
theorem FileSources.noteRequest {s : State} (h : FileSources s) (space : Space) (off : Word) (max : Nat)
    (n : Option Nat) : FileSources (noteRequest space off max n s) := by
  obtain ⟨hhdr, hsrc⟩ := h
  cases space with
  | hdr => exact ⟨congrArg List.tail hhdr, hsrc⟩
  | src => exact ⟨hhdr, congrArg List.tail hsrc⟩

theorem FileSources.awaitAnswer {s : State} (h : FileSources s) (space : Space) (off : Word) (max : Nat) :
    FileSources (awaitAnswer space off max s) := h.noteRequest space off max none

theorem FileSources.installTable {s : State} (h : FileSources s) (max : Nat) (d : List Byte) :
    FileSources (installTable max d s) := by
  rwa [FileSources, installTable_hdr, installTable_src]

theorem FileSources.derivePair {s : State} (h : FileSources s) (p : Prng) : FileSources (derivePair p s) := by
  rwa [Machine.derivePair, FileSources]

theorem fileSources_keptByChunks : KeptByChunks FileSources where
  stored {u req d} _ _ h := h.noteRequest .src u.soff req (some d.length)
  awaiting h := h.awaitAnswer ..

theorem FileSources.exec {i : Instr} {s t : State} (hs : FileSources s) (h : exec i s = .next t) : FileSources t := by
  cases i with
  | srst => cases h; exact hs
  | tload =>
    obtain ⟨d, -, rfl⟩ | ⟨-, rfl⟩ := tload_eq_next.1 h
    · exact (hs.noteRequest ..).installTable ..
    · exact hs.awaitAnswer ..
  | kcder =>
    obtain ⟨d, -, rfl⟩ | ⟨-, rfl⟩ := kcder_eq_next.1 h
    · exact ((hs.noteRequest ..).installTable ..).derivePair _
    · exact hs.awaitAnswer ..
  | schunk => exact fileSources_keptByChunks.schunk hs (fun _ => hs) h
  | dstream => exact fileSources_keptByChunks.dstream (fun _ => hs) (fun u hu => hu) (fun _ => hs) h
  | kmder idx dst => rw [(exec_commandFrame (by simp) h).written]; cases dst <;> exact hs
  | nop | tinit | gseed | gnext32 | gnext64 | sopen | sclose =>
    rw [(exec_commandFrame (by simp) h).written]
    exact hs

theorem FileSources.read {a : HostAccess} {s t : State} (hs : FileSources s)
    (ha : (∃ width off, a = .read width off) ∨ ∃ o, a = .readOut o) (h : hostPort a s = .finished t) :
    FileSources t := by
  obtain ⟨r, u, hu, hp⟩ := hostPort_read_cases ha s
  cases hp.symm.trans h
  obtain rfl | ⟨c, rfl⟩ := hu <;> exact hs

/-- An access that is no command makes no request. -/
theorem FileSources.hostPort {a : HostAccess} {s t : State} (hs : FileSources s) (h : hostPort a s = .finished t) :
    FileSources t := by
  cases a with
  | write width off v =>
    rw [Machine.hostPort, hostWrite] at h
    cases hr : regAt width off with
    | none => rw [hr] at h; cases h; exact hs
    | some r =>
      rw [hr] at h
      have hcmd : r ≠ .cmd := by rintro rfl; cases h
      obtain ⟨u, hu, hframe⟩ := writeReg_frame hcmd v s
      cases hu.symm.trans h
      rw [hframe]
      exact hs
  | hardReset => cases h; exact hs
  | read width off => exact hs.read (.inl ⟨width, off, rfl⟩) h
  | readOut o => exact hs.read (.inr ⟨o, rfl⟩) h

theorem FileSources.step {s t : State} (hs : FileSources s) (h : step s = .next t) : FileSources t := by
  obtain ⟨-, rfl⟩ | ⟨-, -, rfl⟩ | ⟨-, a, rest, -, ⟨w, u, hp, hrun⟩ | hp⟩ := step_cases h
  · obtain ⟨-, hw⟩ | ⟨_, rest, -, -, hw⟩ := waitForReset_cases s <;> rw [hw] <;> exact hs
  · exact hs
  · obtain ⟨-, rfl⟩ := hostPort_eq_command hp
    obtain ⟨i, -, hi⟩ | ⟨e, -, rfl⟩ := hrun
    · exact FileSources.exec (s := takeAccess rest s) hs hi
    · exact hs
  · exact FileSources.hostPort (s := takeAccess rest s) hs hp

/-- Settles O51: a command completes by what its requests answer, a step by the command it runs, and the reference
environment answers every request and stays what it is. -/
theorem answeredEngineNeverStops : Obligations.AnsweredEngineNeverStops := by
  unfold Obligations.AnsweredEngineNeverStops
  refine ⟨fun i s => exec_completes, fun s => step_completes, fun s hs hhdr hsrc => ?_⟩
  have hfile : FileSources s := ⟨hhdr, hsrc⟩
  obtain ⟨t, ht, hwait⟩ := step_completes hs fun _ i _ _ _ => hfile.answered _ i
  exact ⟨t, ht, hwait, hfile.step ht⟩

end Sys2Proof.Machine
end
